-- ==== Sys2Proof/Word.lean ====
section
/-! DEFINITION. The words the block moves and the Scalars it computes with: 32-bit command and response words, 64-bit
patterns of IEEE 754 binary64 numbers, exact reals as expressions, and complex samples. -/

namespace Sys2Proof

/-- A 32-bit command, response or register word (`30_encoding.md` R90, R91). -/
abbrev Word := BitVec 32

/-- The bit pattern of an IEEE 754 binary64 number (`00_scope.md` R12, NUMERICS = BINARY64). -/
abbrev Binary64 := BitVec 64

/-- An exact real number of the IDEAL domain (`00_scope.md` R12), as plain data: the expression that computes it.
`Sys2Proof.Machine.exactEval` gives the real number an expression stands for. No command branches on a Scalar, so the
expression is all the machine needs. DESIGN CHOICE (log entry 3). -/
inductive ExactReal where
  /-- A rational number. -/
  | lit (q : ℚ)
  /-- A real number the host presented and did not name further: any real. -/
  | atom (k : Nat)
  /-- cos(2πk/n). -/
  | cosTurn (k n : Nat)
  /-- sin(2πk/n). -/
  | sinTurn (k n : Nat)
  | add (x y : ExactReal)
  | sub (x y : ExactReal)
  | mul (x y : ExactReal)
  | neg (x : ExactReal)
  | sqrt (x : ExactReal)
  | max (x y : ExactReal)
  deriving DecidableEq, Repr, Inhabited

/-- A Scalar, the number domain chosen by NUMERICS (`00_scope.md` R17). -/
inductive Scalar where
  | exact (x : ExactReal)
  | binary64 (v : Binary64)
  deriving DecidableEq, Repr, Inhabited

/-- A complex sample: a pair of Scalars (`00_scope.md` R17). -/
structure Sample where
  re : Scalar
  im : Scalar
  deriving DecidableEq, Repr

/-- The three rounded operations of the BINARY64 datapath (`00_scope.md` R12; `40_units.md` R111, R112). -/
inductive ArithOp where
  | add
  | sub
  | mul
  deriving DecidableEq, Repr

/-- Eight Scalars: an Alpha Vector, or half of a cropped spectrum (`10_state.md` R39, R48). -/
abbrev Alpha := Vector Scalar 8

end Sys2Proof
end

