-- ==== Sys2Proof/Syntax.lean ====
section
/-! DEFINITION. The commands of the block: one constructor per row of the opcode map (`30_encoding.md` R94). Each operand
has the width of its field in the command word (R92), so every term is a command some word encodes. -/

namespace Sys2Proof

/-- A host command without its data operand (`30_encoding.md` R92, R93). The data operand d of QPUSH is not part of the
word and stands in the machine's state. -/
inductive Instr where
  /-- NOP (`43_host_io.md` R211). -/
  | nop
  /-- QPUSH s, c (`43_host_io.md` R212). -/
  | qpush (s c : BitVec 8)
  /-- CONNECT (`42_array_commands.md` R171). -/
  | connect
  /-- READ (`42_array_commands.md` R172). -/
  | read
  /-- COMPUTE (`42_array_commands.md` R173). -/
  | compute
  /-- SHIFT (`42_array_commands.md` R174). -/
  | shift
  /-- ROUND (`42_array_commands.md` R175). -/
  | round
  /-- RUN T (`42_array_commands.md` R176). -/
  | run (t : BitVec 16)
  /-- FINALIZE (`42_array_commands.md` R177). -/
  | finalize
  /-- RDREG r (`43_host_io.md` R213). -/
  | rdreg (r : BitVec 8)
  /-- RDRES k, j (`43_host_io.md` R214). -/
  | rdres (k : BitVec 8) (j : BitVec 3)
  /-- RDALPHA c, sel, j (`43_host_io.md` R215). -/
  | rdalpha (c : BitVec 8) (sel : BitVec 1) (j : BitVec 3)
  /-- RDCELL c, sel (`43_host_io.md` R216). -/
  | rdcell (c sel : BitVec 8)
  /-- RDQLEN s, c (`43_host_io.md` R217). -/
  | rdqlen (s c : BitVec 8)
  /-- RDRAW c, i (`43_host_io.md` R218). -/
  | rdraw (c : BitVec 8) (i : BitVec 16)
  /-- RDCONJ c, i (`43_host_io.md` R219). -/
  | rdconj (c : BitVec 8) (i : BitVec 16)
  /-- RDSHIFT c, i (`43_host_io.md` R220). -/
  | rdshift (c : BitVec 8) (i : BitVec 16)
  deriving DecidableEq, Repr

/-- The mnemonic of a command, as the opcode map spells it (`30_encoding.md` R94). -/
def Instr.mnemonic : Instr → String
  | .nop => "NOP"
  | .qpush _ _ => "QPUSH"
  | .connect => "CONNECT"
  | .read => "READ"
  | .compute => "COMPUTE"
  | .shift => "SHIFT"
  | .round => "ROUND"
  | .run _ => "RUN"
  | .finalize => "FINALIZE"
  | .rdreg _ => "RDREG"
  | .rdres _ _ => "RDRES"
  | .rdalpha _ _ _ => "RDALPHA"
  | .rdcell _ _ => "RDCELL"
  | .rdqlen _ _ => "RDQLEN"
  | .rdraw _ _ => "RDRAW"
  | .rdconj _ _ => "RDCONJ"
  | .rdshift _ _ => "RDSHIFT"

/-- The stage-type commands (`42_array_commands.md` R170). -/
def Instr.isStageType : Instr → Bool
  | .connect | .read | .compute | .shift | .round | .run _ | .finalize => true
  | .nop | .qpush _ _ | .rdreg _ | .rdres _ _ | .rdalpha _ _ _ | .rdcell _ _ | .rdqlen _ _ | .rdraw _ _ | .rdconj _ _
  | .rdshift _ _ => false

/-- The read commands (`60_exceptions.md` R248). -/
def Instr.isRead : Instr → Bool
  | .rdreg _ | .rdres _ _ | .rdalpha _ _ _ | .rdcell _ _ | .rdqlen _ _ | .rdraw _ _ | .rdconj _ _ | .rdshift _ _ => true
  | .nop | .qpush _ _ | .connect | .read | .compute | .shift | .round | .run _ | .finalize => false

end Sys2Proof
end

