-- ==== Sys2Proof/Decode.lean ====
section
/-! DEFINITION. The decoder, total on 32-bit words, and after it the encoder, both written from the formats and the opcode
map of `30_encoding.md` (R92, R94, R95). -/

namespace Sys2Proof

/-- Why a word is illegal (`30_encoding.md` R95). -/
inductive Reject where
  /-- OP is not in the opcode map (OP = 0x0E, 0x0F or 0x13..0xFF). -/
  | unassignedOpcode (op : BitVec 8)
  /-- A reserved-zero bit of the named command's format is 1. -/
  | reservedBits (mnemonic : String)
  deriving DecidableEq, Repr

/-- OP = w[31:24] in every format (`30_encoding.md` R91). -/
def opcodeOf (w : Word) : BitVec 8 := w.extractLsb' 24 8

/-- Field w[23:16] (`30_encoding.md` R92: S of QSC; C of ALP, CSEL, CIDX; K of RES). -/
def field23to16 (w : Word) : BitVec 8 := w.extractLsb' 16 8

/-- Field w[15:8] (`30_encoding.md` R92: C of QSC). -/
def field15to8 (w : Word) : BitVec 8 := w.extractLsb' 8 8

/-- Field w[7:0] (`30_encoding.md` R92: R of REG, SEL of CSEL). -/
def field7to0 (w : Word) : BitVec 8 := w.extractLsb' 0 8

/-- Field w[15:0] (`30_encoding.md` R92: IMM16 of I16, IDX of CIDX). -/
def field15to0 (w : Word) : BitVec 16 := w.extractLsb' 0 16

/-- Field w[2:0] (`30_encoding.md` R92: J of RES and ALP). -/
def field2to0 (w : Word) : BitVec 3 := w.extractLsb' 0 3

/-- Field w[8] (`30_encoding.md` R92: SEL1 of ALP). -/
def field8 (w : Word) : BitVec 1 := w.extractLsb' 8 1

/-- Accept `i` when its reserved-zero bits are zero, and reject it by its mnemonic otherwise (`30_encoding.md` R95). -/
def checkReserved (zero : Bool) (i : Instr) : Except Reject Instr :=
  if zero then .ok i else .error (.reservedBits i.mnemonic)

/-- Format Z: bits 23:0 are reserved (`30_encoding.md` R92). -/
def decodeZ (w : Word) (i : Instr) : Except Reject Instr :=
  checkReserved (w.extractLsb' 0 24 == 0#24) i

/-- Format QSC: bits 7:0 are reserved. -/
def decodeQSC (w : Word) (mk : BitVec 8 → BitVec 8 → Instr) : Except Reject Instr :=
  checkReserved (w.extractLsb' 0 8 == 0#8) (mk (field23to16 w) (field15to8 w))

/-- Format I16: bits 23:16 are reserved. -/
def decodeI16 (w : Word) (mk : BitVec 16 → Instr) : Except Reject Instr :=
  checkReserved (w.extractLsb' 16 8 == 0#8) (mk (field15to0 w))

/-- Format REG: bits 23:8 are reserved. -/
def decodeREG (w : Word) (mk : BitVec 8 → Instr) : Except Reject Instr :=
  checkReserved (w.extractLsb' 8 16 == 0#16) (mk (field7to0 w))

/-- Format RES: bits 15:3 are reserved. -/
def decodeRES (w : Word) (mk : BitVec 8 → BitVec 3 → Instr) : Except Reject Instr :=
  checkReserved (w.extractLsb' 3 13 == 0#13) (mk (field23to16 w) (field2to0 w))

/-- Format ALP: bits 15:9 and 7:3 are reserved. -/
def decodeALP (w : Word) (mk : BitVec 8 → BitVec 1 → BitVec 3 → Instr) : Except Reject Instr :=
  checkReserved (w.extractLsb' 9 7 == 0#7 && w.extractLsb' 3 5 == 0#5) (mk (field23to16 w) (field8 w) (field2to0 w))

/-- Format CSEL: bits 15:8 are reserved. -/
def decodeCSEL (w : Word) (mk : BitVec 8 → BitVec 8 → Instr) : Except Reject Instr :=
  checkReserved (w.extractLsb' 8 8 == 0#8) (mk (field23to16 w) (field7to0 w))

/-- Format CIDX: no reserved bits. -/
def decodeCIDX (w : Word) (mk : BitVec 8 → BitVec 16 → Instr) : Except Reject Instr :=
  checkReserved true (mk (field23to16 w) (field15to0 w))

/-- Decoding a command word: it selects one row of the opcode map or is illegal (`30_encoding.md` R94 to R96). -/
def decode (w : Word) : Except Reject Instr :=
  match (opcodeOf w).toNat with
  | 0x00 => decodeZ w .nop
  | 0x01 => decodeQSC w .qpush
  | 0x02 => decodeZ w .connect
  | 0x03 => decodeZ w .read
  | 0x04 => decodeZ w .compute
  | 0x05 => decodeZ w .shift
  | 0x06 => decodeZ w .round
  | 0x07 => decodeI16 w .run
  | 0x08 => decodeZ w .finalize
  | 0x09 => decodeREG w .rdreg
  | 0x0A => decodeRES w .rdres
  | 0x0B => decodeALP w .rdalpha
  | 0x0C => decodeCSEL w .rdcell
  | 0x0D => decodeQSC w .rdqlen
  | 0x10 => decodeCIDX w .rdraw
  | 0x11 => decodeCIDX w .rdconj
  | 0x12 => decodeCIDX w .rdshift
  | _ => .error (.unassignedOpcode (opcodeOf w))

/-- The word of a command: OP and its format's fields, reserved bits zero (`30_encoding.md` R92, R94). -/
def encode : Instr → Word
  | .nop => 0x00#8 ++ 0#24
  | .qpush s c => 0x01#8 ++ (s ++ (c ++ 0#8))
  | .connect => 0x02#8 ++ 0#24
  | .read => 0x03#8 ++ 0#24
  | .compute => 0x04#8 ++ 0#24
  | .shift => 0x05#8 ++ 0#24
  | .round => 0x06#8 ++ 0#24
  | .run t => 0x07#8 ++ (0#8 ++ t)
  | .finalize => 0x08#8 ++ 0#24
  | .rdreg r => 0x09#8 ++ (0#16 ++ r)
  | .rdres k j => 0x0A#8 ++ (k ++ (0#13 ++ j))
  | .rdalpha c sel j => 0x0B#8 ++ (c ++ (0#7 ++ (sel ++ (0#5 ++ j))))
  | .rdcell c sel => 0x0C#8 ++ (c ++ (0#8 ++ sel))
  | .rdqlen s c => 0x0D#8 ++ (s ++ (c ++ 0#8))
  | .rdraw c i => 0x10#8 ++ (c ++ i)
  | .rdconj c i => 0x11#8 ++ (c ++ i)
  | .rdshift c i => 0x12#8 ++ (c ++ i)

/-- One row of the opcode map: the words w with w AND mask = match (`30_encoding.md` R94). -/
structure OpcodeRow where
  mnemonic : String
  pattern : Word
  mask : Word
  deriving DecidableEq, Repr

/-- The opcode map of `30_encoding.md` R94, as its match and mask columns read. The decoder does not use it: statements
hold the two against each other. -/
def opcodeMap : List OpcodeRow :=
  [⟨"NOP", 0x00000000#32, 0xFFFFFFFF#32⟩,
   ⟨"QPUSH", 0x01000000#32, 0xFF0000FF#32⟩,
   ⟨"CONNECT", 0x02000000#32, 0xFFFFFFFF#32⟩,
   ⟨"READ", 0x03000000#32, 0xFFFFFFFF#32⟩,
   ⟨"COMPUTE", 0x04000000#32, 0xFFFFFFFF#32⟩,
   ⟨"SHIFT", 0x05000000#32, 0xFFFFFFFF#32⟩,
   ⟨"ROUND", 0x06000000#32, 0xFFFFFFFF#32⟩,
   ⟨"RUN", 0x07000000#32, 0xFFFF0000#32⟩,
   ⟨"FINALIZE", 0x08000000#32, 0xFFFFFFFF#32⟩,
   ⟨"RDREG", 0x09000000#32, 0xFFFFFF00#32⟩,
   ⟨"RDRES", 0x0A000000#32, 0xFF00FFF8#32⟩,
   ⟨"RDALPHA", 0x0B000000#32, 0xFF00FEF8#32⟩,
   ⟨"RDCELL", 0x0C000000#32, 0xFF00FF00#32⟩,
   ⟨"RDQLEN", 0x0D000000#32, 0xFF0000FF#32⟩,
   ⟨"RDRAW", 0x10000000#32, 0xFF000000#32⟩,
   ⟨"RDCONJ", 0x11000000#32, 0xFF000000#32⟩,
   ⟨"RDSHIFT", 0x12000000#32, 0xFF000000#32⟩]

/-- A row selects a word when (w AND mask) = match (`30_encoding.md` R94). -/
def OpcodeRow.selects (r : OpcodeRow) (w : Word) : Bool := w &&& r.mask == r.pattern

/-- What the decoder reads from an instruction of `nbits` bits whose bits are `w`, bits above `nbits` zero. A command is one
32-bit word defined by bit positions (`30_encoding.md` R90, R91), so there is no byte layout to pass through. -/
def decodeTableWord (nbits w : Nat) : Option Instr :=
  (decode (BitVec.ofNat 32 (w % 2 ^ nbits))).toOption

end Sys2Proof
end

