-- ==== Sys2Proof/Config.lean ====
section
/-! DEFINITION. The parameters an implementation fixes when the block is built, and the values the spec leaves free. -/

namespace Sys2Proof

/-- The number domain of the datapath (`00_scope.md` R12). -/
inductive Numerics where
  | ideal
  | binary64
  deriving DecidableEq, Repr

/-- The configuration of a block (`00_scope.md` R9 to R12, `10_state.md` R50). CELL_SIZE is held as its logarithm L, so
that n is a power of two by construction (R10). -/
structure Config where
  /-- ARRAY_SIZE, N. -/
  arraySize : Nat
  /-- LOG2_CELL_SIZE, L. -/
  log2CellSize : Nat
  /-- NUM_SIGNALS, S. -/
  numSignals : Nat
  /-- QDEPTH. -/
  qdepth : Nat
  /-- NUMERICS. -/
  numerics : Numerics
  deriving DecidableEq, Repr

/-- CELL_SIZE n = 2^L (`00_scope.md` R10). -/
abbrev Config.cellSize (c : Config) : Nat := 2 ^ c.log2CellSize

/-- TWIDDLE_B64(n, k), the parameter of `00_scope.md` R13: a free value. The quarter turns that `40_units.md` R116 fixes
do not use it (log entry 4). -/
opaque Config.twiddleB64 : Nat → Nat → Binary64 × Binary64

/-- MAG_B64(re, im), the parameter of `00_scope.md` R13: a free value, used only where the laws of `40_units.md` R125 leave
it open (log entry 5). -/
opaque Config.magB64 : Binary64 → Binary64 → Binary64

/-- The payload and sign of the NaN that a binary64 operation produces: any value (`93_implementation_defined.md` I5;
log entry 6). -/
opaque Config.nanB64 : ArithOp → Binary64 → Binary64 → Binary64

/-- What an operation on Scalars of two different number domains gives. The spec has one domain for the whole block
(`00_scope.md` R12), so no rule gives a value: a free value (log entry 7). -/
opaque Config.mixedDomains : Scalar → Scalar → Scalar

end Sys2Proof
end

