-- ==== Sys2Proof/Machine/Binary64Arith.lean ====
section
/-! DEFINITION. IEEE 754 binary64 arithmetic on bit patterns, rounding to nearest, ties to even (`00_scope.md` R12; the
meaning of the IEEE 754 terms is general knowledge, `93_implementation_defined.md` G1 to G3, G6 and G9; log entry 10).
Finite values are computed exactly as integers: a finite number is an integer number of units of 2^-1074, a product of two
an integer number of units of 2^-2148. -/

namespace Sys2Proof.Machine

/-- The sign bit. -/
def b64Sign (v : Binary64) : Bool := v.getLsbD 63

/-- The biased exponent field, bits 62:52. -/
def b64Exp (v : Binary64) : Nat := (v.extractLsb' 52 11).toNat

/-- The fraction field, bits 51:0. -/
def b64Frac (v : Binary64) : Nat := (v.extractLsb' 0 52).toNat

def b64IsNaN (v : Binary64) : Bool := b64Exp v == 2047 && b64Frac v != 0
def b64IsInf (v : Binary64) : Bool := b64Exp v == 2047 && b64Frac v == 0
def b64IsZero (v : Binary64) : Bool := b64Exp v == 0 && b64Frac v == 0
def b64IsFinite (v : Binary64) : Bool := b64Exp v != 2047

/-- The magnitude of a finite number, in units of 2^-1074. -/
def b64Mag (v : Binary64) : Nat :=
  if b64Exp v = 0 then b64Frac v else (2 ^ 52 + b64Frac v) * 2 ^ (b64Exp v - 1)

/-- The value of a finite number, in units of 2^-1074. -/
def b64Int (v : Binary64) : Int := if b64Sign v then -(b64Mag v : Int) else (b64Mag v : Int)

/-- The pattern with the given sign bit and the given lower 63 bits. -/
def b64Pack (sign : Bool) (bits : Nat) : Binary64 := BitVec.ofNat 64 ((if sign then 2 ^ 63 else 0) + bits)

/-- Infinity of the given sign. -/
def b64Inf (sign : Bool) : Binary64 := b64Pack sign (2047 * 2 ^ 52)

/-- The binary64 number nearest to m units of 2^-2148, ties to even, infinity when it is out of range. -/
def b64Round (sign : Bool) (m : Nat) : Binary64 :=
  let lsb := Nat.max (m.log2 - 52) 1074
  let q := m / 2 ^ lsb
  let r := m % 2 ^ lsb
  let half := 2 ^ (lsb - 1)
  let up := decide (half < r) || (r == half && q % 2 == 1)
  let bits := (lsb - 1074) * 2 ^ 52 + q + (if up then 1 else 0)
  if bits < 2047 * 2 ^ 52 then b64Pack sign bits else b64Inf sign

/-- A NaN with the sign and payload of the given pattern, whatever the pattern is. -/
def b64ToNaN (v : Binary64) : Binary64 :=
  if b64Frac v = 0 then v ||| 0x7FF0000000000001#64 else v ||| 0x7FF0000000000000#64

/-- The NaN an operation produces: any NaN (`93_implementation_defined.md` I5). -/
def b64NaN (op : ArithOp) (a b : Binary64) : Binary64 := b64ToNaN (Config.nanB64 op a b)

/-- -a: the sign bit flipped, exactly (`40_units.md` R113). -/
def b64Neg (a : Binary64) : Binary64 := a ^^^ 0x8000000000000000#64

/-- |a|: the sign bit cleared. -/
def b64Abs (a : Binary64) : Binary64 := a &&& 0x7FFFFFFFFFFFFFFF#64

/-- a + b for operands that are no NaN, except that infinities of opposite sign give `nan` (`40_units.md` R111). An exact
zero sum is -0 only when both operands are negative. -/
def b64AddCore (a b nan : Binary64) : Binary64 :=
  if b64IsInf a then (if b64IsInf b && b64Sign a != b64Sign b then nan else a)
  else if b64IsInf b then b
  else
    let z := b64Int a + b64Int b
    b64Round (if z = 0 then b64Sign a && b64Sign b else decide (z < 0)) (z.natAbs * 2 ^ 1074)

/-- a + b, rounded (`40_units.md` R111). -/
def b64Add (a b : Binary64) : Binary64 :=
  if b64IsNaN a || b64IsNaN b then b64NaN .add a b else b64AddCore a b (b64NaN .add a b)

/-- a - b, rounded (`40_units.md` R112). -/
def b64Sub (a b : Binary64) : Binary64 :=
  if b64IsNaN a || b64IsNaN b then b64NaN .sub a b else b64AddCore a (b64Neg b) (b64NaN .sub a b)

/-- a * b, rounded (`40_units.md` R112). -/
def b64Mul (a b : Binary64) : Binary64 :=
  let sign := b64Sign a != b64Sign b
  if b64IsNaN a || b64IsNaN b then b64NaN .mul a b
  else if (b64IsInf a && b64IsZero b) || (b64IsZero a && b64IsInf b) then b64NaN .mul a b
  else if b64IsInf a || b64IsInf b then b64Inf sign
  else b64Round sign (b64Mag a * b64Mag b)

/-- The order key of a pattern that is no NaN: its sign-magnitude reading, so that -0 and +0 are equal. -/
def b64Key (v : Binary64) : Int :=
  if b64Sign v then -((b64Abs v).toNat : Int) else ((b64Abs v).toNat : Int)

/-- The ordered greater-than a > b: false when either operand is a NaN (`40_units.md` R128). -/
def b64Gt (a b : Binary64) : Bool := !b64IsNaN a && !b64IsNaN b && decide (b64Key b < b64Key a)

/-- MAG_B64(re, im) under the laws of `40_units.md` R125: |re| when im is a zero, |im| when re is a zero, and otherwise
the free parameter, which returns +0, a positive number or NaN. A NaN result is any NaN. -/
def b64Mag2 (re im : Binary64) : Binary64 :=
  let free := Config.magB64 re im
  if b64IsZero im then (if b64IsNaN re then b64ToNaN free else b64Abs re)
  else if b64IsZero re then (if b64IsNaN im then b64ToNaN free else b64Abs im)
  else if b64IsNaN free then free else b64Abs free

end Sys2Proof.Machine
end

