-- ==== Sys2Proof/Machine/ExactArith.lean ====
section
/-! DEFINITION. Arithmetic of the IDEAL domain on expressions (`00_scope.md` R12). Each operation builds the expression of
its exact result, and folds rational numbers and the neutral and absorbing elements where the real number stays the same
(log entry 3). -/

namespace Sys2Proof.Machine

/-- The sum of two rationals. -/
def ratAdd (p q : ℚ) : ℚ := mkRat (p.num * q.den + q.num * p.den) (p.den * q.den)

/-- The product of two rationals. -/
def ratMul (p q : ℚ) : ℚ := mkRat (p.num * q.num) (p.den * q.den)

/-- The negation of a rational. -/
def ratNeg (p : ℚ) : ℚ := mkRat (-p.num) p.den

/-- Whether p < q. -/
def ratLt (p q : ℚ) : Bool := decide (p.num * q.den < q.num * p.den)

/-- The integer square root of `n`, found bit by bit from bit `bits - 1` down, added to `r`. -/
def isqrtFrom (n : Nat) : Nat → Nat → Nat
  | 0, r => r
  | b + 1, r => isqrtFrom n b (if (r + 2 ^ b) * (r + 2 ^ b) ≤ n then r + 2 ^ b else r)

/-- The integer square root of `n`, rounded down. -/
def isqrt (n : Nat) : Nat := isqrtFrom n (n.log2 / 2 + 1) 0

/-- The root of a rational that is the square of a rational, when it is one. -/
def ratSqrt (q : ℚ) : Option ℚ :=
  let a := isqrt q.num.toNat
  let b := isqrt q.den
  if q.num = (a * a : Nat) ∧ q.den = b * b then some (mkRat a b) else none

/-- x + y. -/
def exactAdd (x y : ExactReal) : ExactReal :=
  match x, y with
  | .lit p, .lit q => .lit (ratAdd p q)
  | .lit p, y => if p = 0 then y else .add (.lit p) y
  | x, .lit q => if q = 0 then x else .add x (.lit q)
  | x, y => .add x y

/-- -x. -/
def exactNeg : ExactReal → ExactReal
  | .lit p => .lit (ratNeg p)
  | .neg x => x
  | x => .neg x

/-- x - y. -/
def exactSub (x y : ExactReal) : ExactReal :=
  match x, y with
  | .lit p, .lit q => .lit (ratAdd p (ratNeg q))
  | .lit p, y => if p = 0 then exactNeg y else .sub (.lit p) y
  | x, .lit q => if q = 0 then x else .sub x (.lit q)
  | x, y => .sub x y

/-- x * y. -/
def exactMul (x y : ExactReal) : ExactReal :=
  match x, y with
  | .lit p, .lit q => .lit (ratMul p q)
  | .lit p, y => if p = 0 then .lit 0 else if p = 1 then y else .mul (.lit p) y
  | x, .lit q => if q = 0 then .lit 0 else if q = 1 then x else .mul x (.lit q)
  | x, y => .mul x y

/-- The square root of x. -/
def exactSqrt : ExactReal → ExactReal
  | .lit q =>
    match ratSqrt q with
    | some r => .lit r
    | none => .sqrt (.lit q)
  | x => .sqrt x

/-- The greater of x and y (`40_units.md` R128: in IDEAL the ordinary maximum). -/
def exactMax (x y : ExactReal) : ExactReal :=
  match x, y with
  | .lit p, .lit q => if ratLt p q then .lit q else .lit p
  | x, y => .max x y

/-- The magnitude sqrt(re^2 + im^2), exactly (`40_units.md` R125). -/
def exactMag (re im : ExactReal) : ExactReal := exactSqrt (exactAdd (exactMul re re) (exactMul im im))

/-- The real number an expression stands for, the unnamed reals the host presented being `ρ`. Statements use it; no step
does. -/
noncomputable def exactEval (ρ : Nat → ℝ) : ExactReal → ℝ
  | .lit q => (q : ℝ)
  | .atom k => ρ k
  | .cosTurn k n => Real.cos (2 * Real.pi * k / n)
  | .sinTurn k n => Real.sin (2 * Real.pi * k / n)
  | .add x y => exactEval ρ x + exactEval ρ y
  | .sub x y => exactEval ρ x - exactEval ρ y
  | .mul x y => exactEval ρ x * exactEval ρ y
  | .neg x => - exactEval ρ x
  | .sqrt x => Real.sqrt (exactEval ρ x)
  | .max x y => Max.max (exactEval ρ x) (exactEval ρ y)

end Sys2Proof.Machine
end

