-- ==== Sys2Proof/Machine/ScalarArith.lean ====
section
/-! DEFINITION. Scalar arithmetic in the configured number domain (`00_scope.md` R12, R17). Operands of two different
domains do not occur in a block (log entry 7). -/

namespace Sys2Proof.Machine

/-- 0, with +0 in BINARY64 (`40_units.md` R114). -/
def scalarZero : Numerics → Scalar
  | .ideal => .exact (.lit 0)
  | .binary64 => .binary64 0#64

/-- 1 (`40_units.md` R116). -/
def scalarOne : Numerics → Scalar
  | .ideal => .exact (.lit 1)
  | .binary64 => .binary64 0x3FF0000000000000#64

/-- -1 (`40_units.md` R116). -/
def scalarMinusOne : Numerics → Scalar
  | .ideal => .exact (.lit (-1))
  | .binary64 => .binary64 0xBFF0000000000000#64

def scalarAdd : Scalar → Scalar → Scalar
  | .exact x, .exact y => .exact (exactAdd x y)
  | .binary64 a, .binary64 b => .binary64 (b64Add a b)
  | x, y => Config.mixedDomains x y

def scalarSub : Scalar → Scalar → Scalar
  | .exact x, .exact y => .exact (exactSub x y)
  | .binary64 a, .binary64 b => .binary64 (b64Sub a b)
  | x, y => Config.mixedDomains x y

def scalarMul : Scalar → Scalar → Scalar
  | .exact x, .exact y => .exact (exactMul x y)
  | .binary64 a, .binary64 b => .binary64 (b64Mul a b)
  | x, y => Config.mixedDomains x y

def scalarNeg : Scalar → Scalar
  | .exact x => .exact (exactNeg x)
  | .binary64 a => .binary64 (b64Neg a)

/-- `max2(a, b)` is b if b > a, else a (`40_units.md` R128). -/
def max2 : Scalar → Scalar → Scalar
  | .exact x, .exact y => .exact (exactMax x y)
  | .binary64 a, .binary64 b => if b64Gt b a then .binary64 b else .binary64 a
  | x, y => Config.mixedDomains x y

/-- `max3(a, b, c)` is `max2(max2(a, b), c)` (`40_units.md` R128). -/
def max3 (a b c : Scalar) : Scalar := max2 (max2 a b) c

/-- The magnitude of a pair (`40_units.md` R125). -/
def scalarMag : Scalar → Scalar → Scalar
  | .exact x, .exact y => .exact (exactMag x y)
  | .binary64 a, .binary64 b => .binary64 (b64Mag2 a b)
  | x, y => Config.mixedDomains x y

/-- The zero sample ZERO = (0, 0), both components +0 in BINARY64 (`40_units.md` R114). -/
def sampleZero (num : Numerics) : Sample := ⟨scalarZero num, scalarZero num⟩

/-- 0^8, the vector of eight zeros (`00_scope.md` R17). -/
def alphaZero (num : Numerics) : Alpha := Vector.ofFn fun _ => scalarZero num

/-- The real number a Scalar of the IDEAL domain stands for. A binary64 pattern has no meaning here and reads as 0. -/
noncomputable def scalarEval (ρ : Nat → ℝ) : Scalar → ℝ
  | .exact x => exactEval ρ x
  | .binary64 _ => 0

/-- The complex number a sample of the IDEAL domain stands for. -/
noncomputable def sampleEval (ρ : Nat → ℝ) (z : Sample) : ℂ := ⟨scalarEval ρ z.re, scalarEval ρ z.im⟩

end Sys2Proof.Machine
end

