-- ==== Sys2Proof/Machine/State.lean ====
section
/-! DEFINITION. The state of the block (`10_state.md` R30), why a step can stop, and the machine right after reset
(`10_state.md` R59). -/

namespace Sys2Proof.Machine

/-- PHASE (`10_state.md` R33). The values 5 and 6 are never held. -/
inductive Phase where
  | connect
  | read
  | compute
  | shift
  | done
  | fault
  deriving DecidableEq, Repr

/-- SRC[c], the input-source selector (`10_state.md` R43). -/
inductive Src where
  | none
  | ext (s : Nat)
  | pred
  deriving DecidableEq, Repr

/-- The causes of `60_exceptions.md` R241. `faulted` is a status only and is never written to FAULT_CAUSE. -/
inductive Cause where
  | illegal
  | sequence
  | underflow
  | range
  | qfull
  | noSignal
  | faulted
  deriving DecidableEq, Repr

/-- What a failing check raises: the cause and the fields of FAULT_INFO (`10_state.md` R53; `Fault(cause, cell, sec, stage)`
of `42_array_commands.md`). -/
structure Raised where
  cause : Cause
  cell : BitVec 8
  sec : BitVec 8
  stage : BitVec 3
  deriving DecidableEq, Repr

/-- The response port: what the last command or reset left on it (`30_encoding.md` R90). -/
structure Response where
  /-- rsp_status: 0 for success, or a cause code. -/
  status : BitVec 8
  /-- rsp_word. -/
  word : Word
  /-- rsp_val. -/
  val : Sample
  deriving DecidableEq, Repr

/-- One input of the host: a command word with its data operand (`30_encoding.md` R90), or the reset event
(`70_reset_and_hazards.md` R270). -/
inductive HostInput where
  | command (w : Word) (d : Sample)
  | reset
  deriving DecidableEq, Repr

/-- The state of one cell (`10_state.md` R41 to R48). A FIFO is the list of its elements, oldest first (`00_scope.md` R18). -/
structure Cell where
  /-- SIG_IDX[c] (R42). -/
  sigIdx : BitVec 16
  /-- SRC[c] (R43). -/
  src : Src
  /-- RAW[c] (R45). -/
  raw : List Sample
  /-- CONJ[c] (R46). -/
  conj : List Sample
  /-- SHIFT[c] (R47). -/
  shift : List Sample
  /-- ALPHA[c] (R48). -/
  alpha : Alpha
  /-- ALPHA_TOP[c] (R48). -/
  alphaTop : Alpha
  deriving DecidableEq, Repr

/-- The state of the block (`10_state.md` R30), with the model's own fields `cfg`, `port` and `operand`
(log entries 2, 1 and 9). -/
structure State where
  /-- The configuration, which no step changes (`10_state.md` R50; log entry 2). -/
  cfg : Config
  /-- PHASE (R33). -/
  phase : Phase
  /-- ROUND_KIND (R34). -/
  roundKind : Bool
  /-- RETIRED0 (R35). -/
  retired0 : Bool
  /-- ITER (R36). -/
  iter : BitVec 32
  /-- ACTIVE (R37). -/
  active : BitVec 32
  /-- CYC (R38). -/
  cyc : BitVec 64
  /-- RESULT_COUNT (R39). -/
  resultCount : BitVec 16
  /-- RESULT[0..N-1] (R39). -/
  result : List Alpha
  /-- FAULT_CAUSE (R40). -/
  faultCause : BitVec 8
  /-- FAULT_CMD (R40). -/
  faultCmd : Word
  /-- FAULT_INFO (R40, R53). -/
  faultInfo : Word
  /-- The cells 0..N-1 (R41). -/
  cells : List Cell
  /-- EXTQ[s][c], by row s and then by cell c (R49). -/
  extq : List (List (List Sample))
  /-- The inputs the host has still to present, first one first (`20_memory.md` R79; log entry 1). -/
  port : List HostInput
  /-- The data operand of the command being performed (`30_encoding.md` R90; log entry 9). -/
  operand : Sample
  /-- The response port (`30_encoding.md` R90). -/
  rsp : Response
  deriving DecidableEq, Repr

/-- Why the machine stops with a fault. The faults of `60_exceptions.md` are none of these: they are next states. -/
inductive Fault where
  /-- Raised by `step` when the host presents a data operand that is not of the configured number domain: no command of
  this block (`00_scope.md` R17, `30_encoding.md` R90; log entry 7). Safe. -/
  | operandDomain
  deriving DecidableEq, Repr

/-- Why the machine has no meaning for a step. -/
inductive Refusal where
  /-- An instruction with no meaning in the model. No arm of `exec` answers with it. Safe. -/
  | notModelled (mnemonic : String)
  /-- Raised by `step` on a configuration outside the legal ranges, which describes no block and accepts no command
  (`70_reset_and_hazards.md` R274; log entry 13). Safe. -/
  | illegalConfiguration
  deriving DecidableEq, Repr

/-- A cell at reset (`10_state.md` R59). -/
def Cell.reset (num : Numerics) : Cell :=
  { sigIdx := 0, src := .none, raw := [], conj := [], shift := [], alpha := alphaZero num, alphaTop := alphaZero num }

/-- The state right after reset of the block with configuration `cfg` (`10_state.md` R59), with nothing on the command
port. -/
def State.resetWith (cfg : Config) : State :=
  { cfg := cfg
    phase := .connect
    roundKind := false
    retired0 := false
    iter := 0
    active := BitVec.ofNat 32 cfg.arraySize
    cyc := 0
    resultCount := 0
    result := List.replicate cfg.arraySize (alphaZero cfg.numerics)
    faultCause := 0
    faultCmd := 0
    faultInfo := 0
    cells := List.replicate cfg.arraySize (Cell.reset cfg.numerics)
    extq := List.replicate cfg.numSignals (List.replicate cfg.arraySize [])
    port := []
    operand := sampleZero cfg.numerics
    rsp := { status := 0, word := 0, val := sampleZero cfg.numerics } }

/-- The configuration of `State.reset`: that of `95_test_vectors.md` section 2.7 (log entry 2). -/
def defaultConfig : Config :=
  { arraySize := 2, log2CellSize := 4, numSignals := 1, qdepth := 64, numerics := .ideal }

/-- The machine right after reset (`10_state.md` R59, `70_reset_and_hazards.md` R270), in the model's default
configuration. -/
def State.reset : State := State.resetWith defaultConfig

end Sys2Proof.Machine
end

