-- ==== Sys2Proof/Machine/Flags.lean ====
section
/-! DEFINITION. The codes and the layouts of the words the host reads: PHASE and cause codes, STATUS, FAULT_INFO, the SRC
encoding and the register map (`10_state.md` R33, R51 to R55; `60_exceptions.md` R241). The block has no other flags
(`10_state.md` R56). -/

namespace Sys2Proof.Machine

/-- The 3-bit value of PHASE (`10_state.md` R33). -/
def Phase.code : Phase → BitVec 3
  | .connect => 0
  | .read => 1
  | .compute => 2
  | .shift => 3
  | .done => 4
  | .fault => 7

/-- The 8-bit cause code (`60_exceptions.md` R241). -/
def Cause.code : Cause → BitVec 8
  | .illegal => 0x01
  | .sequence => 0x02
  | .underflow => 0x03
  | .range => 0x04
  | .qfull => 0x05
  | .noSignal => 0x06
  | .faulted => 0x07

/-- STATUS (`10_state.md` R52): PHASE, ROUND_KIND, RETIRED0, FAULTED, zeros. -/
def State.statusWord (s : State) : Word :=
  0#26 ++ (BitVec.ofBool (s.phase == .fault) ++ (BitVec.ofBool s.retired0 ++ (BitVec.ofBool s.roundKind ++ s.phase.code)))

/-- FAULT_INFO (`10_state.md` R53): zeros, stage, secondary index, cell. -/
def Raised.info (f : Raised) : Word := 0#13 ++ (f.stage ++ (f.sec ++ f.cell))

/-- The encoding of SRC[c] (`10_state.md` R54): kind in bits 1:0, signal index in bits 15:8. -/
def Src.code : Src → Word
  | .none => 0#32
  | .ext s => 0#16 ++ (BitVec.ofNat 8 s ++ 1#8)
  | .pred => 2#32

/-- CFG_NUMERICS (`10_state.md` R51). -/
def Numerics.code : Numerics → Word
  | .ideal => 0
  | .binary64 => 1

/-- The value of register r of the register map, none for the reserved numbers 0x0E..0xFF (`10_state.md` R51). -/
def State.readReg (s : State) (r : BitVec 8) : Option Word :=
  match r.toNat with
  | 0x00 => some s.statusWord
  | 0x01 => some (s.faultCause.setWidth 32)
  | 0x02 => some s.faultCmd
  | 0x03 => some s.faultInfo
  | 0x04 => some s.iter
  | 0x05 => some s.active
  | 0x06 => some (s.cyc.extractLsb' 0 32)
  | 0x07 => some (s.cyc.extractLsb' 32 32)
  | 0x08 => some (s.resultCount.setWidth 32)
  | 0x09 => some (BitVec.ofNat 32 s.cfg.arraySize)
  | 0x0A => some (BitVec.ofNat 32 s.cfg.log2CellSize)
  | 0x0B => some (BitVec.ofNat 32 s.cfg.numSignals)
  | 0x0C => some (BitVec.ofNat 32 s.cfg.qdepth)
  | 0x0D => some (Numerics.code s.cfg.numerics)
  | _ => none

/-- The value of an RDCELL selector, none for the reserved selectors 5..255 (`10_state.md` R55). -/
def Cell.select (k : Cell) (sel : BitVec 8) : Option Word :=
  match sel.toNat with
  | 0 => some (k.sigIdx.setWidth 32)
  | 1 => some k.src.code
  | 2 => some (BitVec.ofNat 32 k.raw.length)
  | 3 => some (BitVec.ofNat 32 k.conj.length)
  | 4 => some (BitVec.ofNat 32 k.shift.length)
  | _ => none

/-- The names of the register map, by number (`10_state.md` R51; assembler operands, `30_encoding.md` R97). -/
def registerNames : List String :=
  ["STATUS", "FAULT_CAUSE", "FAULT_CMD", "FAULT_INFO", "ITER", "ACTIVE", "CYC_LO", "CYC_HI", "RESULT_COUNT",
   "CFG_ARRAY_SIZE", "CFG_LOG2_CELL_SIZE", "CFG_NUM_SIGNALS", "CFG_QDEPTH", "CFG_NUMERICS"]

end Sys2Proof.Machine
end

