-- ==== Sys2Proof/Machine/Ops.lean ====
section
/-! DEFINITION. The operations every command is built from: FIFOs, the stores, loops over the cells, the response, and
taking a fault (`60_exceptions.md` R249) with the one way out of it, reset (R252). -/

namespace Sys2Proof.Machine

/-! ### FIFOs (`00_scope.md` R18) -/

/-- Push into a FIFO of capacity `cap`: when it is full, the oldest element is first lost. -/
def fifoPush (cap : Nat) (f : List Sample) (v : Sample) : List Sample :=
  (if f.length = cap then f.tail else f) ++ [v]

/-- Discard the k oldest elements. -/
def fifoDiscard (k : Nat) (f : List Sample) : List Sample := f.drop k

/-! ### The stores (`20_memory.md` R70). A store the configuration does not have reads as at reset, and a write to it has
no effect; no state of a block gets there (log entry 11). -/

/-- Cell c. -/
def State.cell (s : State) (c : Nat) : Cell := s.cells.getD c (Cell.reset s.cfg.numerics)

/-- Replace cell c. -/
def State.setCell (s : State) (c : Nat) (k : Cell) : State := { s with cells := s.cells.set c k }

/-- EXTQ[r][c]. -/
def State.queue (s : State) (r c : Nat) : List Sample := (s.extq.getD r []).getD c []

/-- Replace EXTQ[r][c]. -/
def State.setQueue (s : State) (r c : Nat) (q : List Sample) : State :=
  { s with extq := s.extq.set r ((s.extq.getD r []).set c q) }

/-- RESULT[k]. -/
def State.resultAt (s : State) (k : Nat) : Alpha := s.result.getD k (alphaZero s.cfg.numerics)

/-! ### Loops over the cells (`00_scope.md` R20) -/

/-- `for c in 0..N-1`, in ascending order, each iteration seeing the writes of the earlier ones. -/
def forCells (f : Nat → State → State) (s : State) : State :=
  (List.range s.cfg.arraySize).foldl (fun t c => f c t) s

/-- The lowest cell from `from` on for which a check fails (`60_exceptions.md` R251: lowest cell first). -/
def firstCell (s : State) (bad : Nat → Bool) : Option Nat := (List.range s.cfg.arraySize).find? bad

/-- The 8-bit cell field of FAULT_INFO. -/
def cellIndex (c : Nat) : BitVec 8 := BitVec.ofNat 8 c

/-! ### Responses (`30_encoding.md` R90, `43_host_io.md` R210) -/

/-- Success with no response value: rsp_word = 0, rsp_val = ZERO. -/
def State.respondOk (s : State) : State := { s with rsp := ⟨0, 0, sampleZero s.cfg.numerics⟩ }

/-- Success with a 32-bit value. -/
def State.respondWord (s : State) (v : Word) : State := { s with rsp := ⟨0, v, sampleZero s.cfg.numerics⟩ }

/-- Success with a complex sample. -/
def State.respondVal (s : State) (z : Sample) : State := { s with rsp := ⟨0, 0, z⟩ }

/-- Success with a Scalar, carried as (value, +0). -/
def State.respondScalar (s : State) (x : Scalar) : State := s.respondVal ⟨x, scalarZero s.cfg.numerics⟩

/-! ### Faults -/

/-- Taking a fault (`60_exceptions.md` R249) in a command with word w: outside P_FAULT the FAULT registers are written and
PHASE becomes P_FAULT; the response carries the cause. Nothing else changes. -/
def State.raise (s : State) (w : Word) (f : Raised) : State :=
  let t := if s.phase = .fault then s
    else { s with faultCause := f.cause.code, faultCmd := w, faultInfo := f.info, phase := .fault }
  { t with rsp := ⟨f.cause.code, 0, sampleZero s.cfg.numerics⟩ }

/-- The refusal of a command in P_FAULT: status E_FAULTED, no other change (`60_exceptions.md` R248). -/
def State.refuseFaulted (s : State) : State :=
  { s with rsp := ⟨Cause.faulted.code, 0, sampleZero s.cfg.numerics⟩ }

/-- The reset event, the only way out of P_FAULT and P_DONE (`60_exceptions.md` R252, `70_reset_and_hazards.md` R270): every
piece of state takes its reset value and the configuration stays. The inputs the host has still to present are the host's
(log entry 14). -/
def State.hostReset (s : State) : State := { State.resetWith s.cfg with port := s.port }

/-! ### Stage bodies -/

/-- What a stage body gives: the state after it, or the check that failed and the state it failed in. -/
abbrev StageResult := Except (State × Raised) State

/-- End a command with word w: success with no response value, or the fault its body raised, the effects of the bodies
before it kept (`60_exceptions.md` R250). -/
def StageResult.finish (w : Word) : StageResult → State
  | .ok t => t.respondOk
  | .error (t, f) => t.raise w f

/-- A stage-type command with word w: refused in P_FAULT (`42_array_commands.md` R178, `60_exceptions.md` R248), otherwise
its body decides. -/
def stageCommand (w : Word) (body : State → StageResult) (s : State) : State :=
  if s.phase = .fault then s.refuseFaulted else (body s).finish w

end Sys2Proof.Machine
end

