-- ==== Sys2Proof/Machine/Units.lean ====
section
/-! DEFINITION. The datapath units of `40_units.md`: complex primitives, twiddle generator, pipeline FFT, correlation
multiplier, spectrum stage and merge unit. They are pure functions, except that some add to CYC (R110): those take CYC and
give it back. -/

namespace Sys2Proof.Machine

/-! ### Complex primitives -/

/-- `40_units.md` R111. -/
def cadd (a b : Sample) : Sample := ⟨scalarAdd a.re b.re, scalarAdd a.im b.im⟩

/-- `40_units.md` R112: four products, then one difference and one sum. -/
def cmul (a b : Sample) : Sample :=
  ⟨scalarSub (scalarMul a.re b.re) (scalarMul a.im b.im), scalarAdd (scalarMul a.re b.im) (scalarMul a.im b.re)⟩

/-- `40_units.md` R113. -/
def conj (z : Sample) : Sample := ⟨z.re, scalarNeg z.im⟩

/-- Apply a unit's operation to each element in turn, adding 1 to CYC per element (R119, R123). -/
def mapCounted {α β : Type} (f : α → β) : List α → BitVec 64 → List β × BitVec 64
  | [], cyc => ([], cyc)
  | a :: as, cyc =>
    let r := mapCounted f as (cyc + 1)
    (f a :: r.1, r.2)

/-! ### Twiddle generator -/

/-- TWIDDLE(n, k) (`40_units.md` R115). The quarter turns are exact in both domains (R116). -/
def twiddle (num : Numerics) (n k : Nat) : Sample :=
  if 4 * k % n = 0 then
    match 4 * k / n with
    | 0 => ⟨scalarOne num, scalarZero num⟩
    | 1 => ⟨scalarZero num, scalarMinusOne num⟩
    | 2 => ⟨scalarMinusOne num, scalarZero num⟩
    | _ => ⟨scalarZero num, scalarOne num⟩
  else
    match num with
    | .ideal => ⟨.exact (.cosTurn k n), .exact (exactNeg (.sinTurn k n))⟩
    | .binary64 => ⟨.binary64 (Config.twiddleB64 n k).1, .binary64 (Config.twiddleB64 n k).2⟩

/-- The source's `generateTwiddleFactors(n)` (`40_units.md` R115). -/
def generateTwiddleFactors (num : Numerics) (n : Nat) : List Sample := (List.range n).map (twiddle num n)

/-! ### Pipeline FFT -/

/-- The elements at even indices. -/
def evens {α : Type} : List α → List α
  | [] => []
  | [a] => [a]
  | a :: _ :: t => a :: evens t

/-- The elements at odd indices. -/
def odds {α : Type} (x : List α) : List α := evens x.tail

/-- One combine level of the FFT: F[k] = E[k mod m] + TWIDDLE(2m, k) * O[k mod m] for k in 0..2m-1, one cycle each
(`40_units.md` R119, R120). -/
def combine (num : Numerics) (m : Nat) (e o : List Sample) (cyc : BitVec 64) : List Sample × BitVec 64 :=
  mapCounted
    (fun k => cadd (e.getD (k % m) (sampleZero num)) (cmul (twiddle num (2 * m) k) (o.getD (k % m) (sampleZero num))))
    (List.range (2 * m)) cyc

/-- PFFT of a vector of length 2^L (`40_units.md` R118, R119): the base case returns its element unchanged; the recursive
case transforms the even-indexed half, then the odd-indexed half, then combines. -/
def pfft (num : Numerics) : Nat → List Sample → BitVec 64 → List Sample × BitVec 64
  | 0, x, cyc => (x, cyc)
  | l + 1, x, cyc =>
    let e := pfft num l (evens x) cyc
    let o := pfft num l (odds x) e.2
    combine num (2 ^ l) e.1 o.1 o.2

/-! ### Correlation multiplier -/

/-- CORR(x, y) of two vectors of equal length (`40_units.md` R123). -/
def corr (x y : List Sample) (cyc : BitVec 64) : List Sample × BitVec 64 :=
  mapCounted (fun p => cmul p.1 p.2) (x.zip y) cyc

/-! ### Spectrum stage -/

/-- mag(z) (`40_units.md` R125). -/
def mag (z : Sample) : Scalar := scalarMag z.re z.im

/-- The FFT-shift: index j of the shifted vector holds bin (j + n/2) mod n (`40_units.md` R126). -/
def fftShift (num : Numerics) (f : List Sample) : List Sample :=
  (List.range f.length).map fun j => f.getD ((j + f.length / 2) % f.length) (sampleZero num)

/-- The central 16 bins of the shifted vector (`40_units.md` R126). -/
def cropCentral (num : Numerics) (sh : List Sample) : List Sample :=
  (List.range 16).map fun j => sh.getD (sh.length / 2 - 8 + j) (sampleZero num)

/-- The two halves of a cropped magnitude spectrum. -/
structure Spectrum where
  lower : Alpha
  upper : Alpha
  deriving DecidableEq, Repr

/-- SPECTRUM(F) (`40_units.md` R126), 16 cycles. -/
def spectrum (num : Numerics) (f : List Sample) (cyc : BitVec 64) : Spectrum × BitVec 64 :=
  let a := (cropCentral num (fftShift num f)).map mag
  (⟨Vector.ofFn fun i => a.getD i.val (scalarZero num), Vector.ofFn fun i => a.getD (8 + i.val) (scalarZero num)⟩,
    cyc + 16)

/-! ### Merge unit -/

/-- MERGE_INNER(top, lower, pred) (`40_units.md` R129): 2 comparisons for each of 8 bins. -/
def mergeInner (top lower pred : Alpha) (cyc : BitVec 64) : Alpha × BitVec 64 :=
  (Vector.ofFn fun i => max3 top[i] lower[i] pred[i], cyc + 16)

/-- MERGE_LAST(top, pred) (`40_units.md` R130): 1 comparison for each of 8 bins. -/
def mergeLast (top pred : Alpha) (cyc : BitVec 64) : Alpha × BitVec 64 :=
  (Vector.ofFn fun i => max2 top[i] pred[i], cyc + 8)

end Sys2Proof.Machine
end

