-- ==== Sys2Proof/Machine/CellOps.lean ====
section
/-! DEFINITION. The cell operations of `41_cell_ops.md`, which the stage commands apply to every cell: connect, clearShift,
read, compute and shift. -/

namespace Sys2Proof.Machine

/-! ### connect -/

/-- clearShift (`41_cell_ops.md` R145): n entries leave SHIFT[c] and CONJ[c]. -/
def clearShift (n : Nat) (k : Cell) : Cell :=
  { k with shift := fifoDiscard n k.shift, conj := fifoDiscard n k.conj }

/-- The load branch of connect on one cell (`41_cell_ops.md` R142): the row SIG_IDX[c] is selected and counted, after a
clearShift but on the very first load. -/
def connectLoad (n : Nat) (k : Cell) : Cell :=
  { (if k.sigIdx = 0 then k else clearShift n k) with src := .ext k.sigIdx.toNat, sigIdx := k.sigIdx + 1 }

/-- connect(c, load) (`41_cell_ops.md` R141 to R143). In a shift round cell 0 keeps its source. -/
def connectCell (load : Bool) (c : Nat) (s : State) : State :=
  if load then s.setCell c (connectLoad s.cfg.cellSize (s.cell c))
  else if c = 0 then s
  else s.setCell c { s.cell c with src := .pred }

/-! ### read -/

/-- What an external read works on: the external queue, the two register files of the cell, and CYC. -/
structure ReadPort where
  queue : List Sample
  raw : List Sample
  conj : List Sample
  cyc : BitVec 64
  deriving DecidableEq, Repr

/-- One slot of an external read (`41_cell_ops.md` R146): the queue's oldest sample, or ZERO when the queue is exhausted
(R147). -/
def readSlot (num : Numerics) (n : Nat) (p : ReadPort) : ReadPort :=
  let v := p.queue.headD (sampleZero num)
  { queue := p.queue.tail, raw := fifoPush n p.raw v, conj := fifoPush n p.conj (conj v), cyc := p.cyc + 1 }

/-- The slots of an external read, one after the other. -/
def readSlots (num : Numerics) (n : Nat) : Nat → ReadPort → ReadPort
  | 0, p => p
  | j + 1, p => readSlots num n j (readSlot num n p)

/-- The slots of a predecessor read (`41_cell_ops.md` R148): each pops one sample of the predecessor's SHIFT and pushes it
into RAW. READ has checked that no pop finds the FIFO empty. -/
def moveSlots (n : Nat) : Nat → List Sample → List Sample → List Sample × List Sample
  | 0, from_, raw => (from_, raw)
  | _ + 1, [], raw => ([], raw)
  | j + 1, v :: rest, raw => moveSlots n j rest (fifoPush n raw v)

/-- read(c) from the external queue EXTQ[r][c] (`41_cell_ops.md` R146). -/
def readExternal (r c : Nat) (s : State) : State :=
  let k := s.cell c
  let p := readSlots s.cfg.numerics s.cfg.cellSize s.cfg.cellSize ⟨s.queue r c, k.raw, k.conj, s.cyc⟩
  { (s.setQueue r c p.queue).setCell c { k with raw := p.raw, conj := p.conj } with cyc := p.cyc }

/-- read(c) from the predecessor's SHIFT (`41_cell_ops.md` R148), for c >= 1. -/
def readPredecessor (c : Nat) (s : State) : State :=
  let m := moveSlots s.cfg.cellSize s.cfg.cellSize (s.cell (c - 1)).shift (s.cell c).raw
  (s.setCell (c - 1) { s.cell (c - 1) with shift := m.1 }).setCell c { s.cell c with raw := m.2 }

/-- read(c) (`41_cell_ops.md` R146 to R149). READ has refused NONE, and cell 0 never selects PRED. -/
def readCell (c : Nat) (s : State) : State :=
  match (s.cell c).src with
  | .none => s
  | .ext r => readExternal r c s
  | .pred => if c = 0 then s else readPredecessor c s

/-! ### compute -/

/-- The last-cell predicate (`41_cell_ops.md` R155), between integers. -/
def isLast (s : State) (c : Nat) : Bool := decide ((c : Int) = s.active.toInt - 1)

/-- The predecessor alpha (`41_cell_ops.md` R157): 0^8 for cell 0, otherwise ALPHA[c-1] as it stands. -/
def predAlpha (s : State) (c : Nat) : Alpha :=
  if c = 0 then alphaZero s.cfg.numerics else (s.cell (c - 1)).alpha

/-- Steps 1 to 3 of compute (`41_cell_ops.md` R151, R152): correlate, transform, spectrum. -/
def cellSpectrum (cfg : Config) (k : Cell) (cyc : BitVec 64) : Spectrum × BitVec 64 :=
  let x := corr k.raw k.conj cyc
  let f := pfft cfg.numerics cfg.log2CellSize x.1 x.2
  spectrum cfg.numerics f.1 f.2

/-- Step 4 of compute (`41_cell_ops.md` R153, R154, R156): the first round sets ALPHA_TOP only; an inner cell merges; the
last cell takes the terminal merge. -/
def mergeStep (first last : Bool) (sp : Spectrum) (pred : Alpha) (k : Cell) (cyc : BitVec 64) : Cell × BitVec 64 :=
  if first then ({ k with alphaTop := sp.upper }, cyc)
  else if last then
    let m := mergeLast k.alphaTop pred cyc
    ({ k with alphaTop := m.1, alpha := m.1 }, m.2)
  else
    let m := mergeInner k.alphaTop sp.lower pred cyc
    ({ k with alpha := m.1, alphaTop := sp.upper }, m.2)

/-- compute(c, last, pred) (`41_cell_ops.md` R150 to R157). -/
def computeCell (c : Nat) (s : State) : State :=
  let sp := cellSpectrum s.cfg (s.cell c) s.cyc
  let m := mergeStep (s.iter == 0) (isLast s c) sp.1 (predAlpha s c) (s.cell c) sp.2
  { s.setCell c m.1 with cyc := m.2 }

/-! ### shift -/

/-- Drain RAW into SHIFT, one cycle per sample (`41_cell_ops.md` R160). -/
def drainRaw (n : Nat) : List Sample → List Sample → BitVec 64 → List Sample × BitVec 64
  | [], shift, cyc => (shift, cyc)
  | v :: raw, shift, cyc => drainRaw n raw (fifoPush n shift v) (cyc + 1)

/-- shift(c) (`41_cell_ops.md` R160). -/
def shiftCell (c : Nat) (s : State) : State :=
  let k := s.cell c
  let d := drainRaw s.cfg.cellSize k.raw k.shift s.cyc
  { s.setCell c { k with raw := [], shift := d.1 } with cyc := d.2 }

end Sys2Proof.Machine
end

