-- ==== Sys2Proof/Machine/ArrayCommands.lean ====
section
/-! DEFINITION. The arbiter and its commands (`42_array_commands.md`): CONNECT, READ, COMPUTE, SHIFT, ROUND, RUN and
FINALIZE. A body is a command's pseudocode after the refusal in P_FAULT; every check of a body comes before its changes. -/

namespace Sys2Proof.Machine

/-- The PHASE check that fails (`42_array_commands.md` R178): the stage is the one the command would have started. -/
def sequenceFault (stage : BitVec 3) : Raised := ⟨.sequence, 0, 0, stage⟩

/-! ### CONNECT -/

/-- Whether this round is a load round: ITER mod N = 0 (`42_array_commands.md` R171). -/
def State.isLoadRound (s : State) : Bool := s.iter.toNat % s.cfg.arraySize == 0

/-- SIG_IDX[c] >= S: the selected signal row does not exist (`42_array_commands.md` R171). -/
def noSignal (s : State) (c : Nat) : Bool := decide (s.cfg.numSignals ≤ (s.cell c).sigIdx.toNat)

/-- A clearShift would discard more than SHIFT[c] or CONJ[c] holds (`42_array_commands.md` R171). -/
def clearUnderflow (s : State) (c : Nat) : Bool :=
  (s.cell c).sigIdx != 0 &&
    (decide ((s.cell c).shift.length < s.cfg.cellSize) || decide ((s.cell c).conj.length < s.cfg.cellSize))

/-- The checks of a load round, E_NOSIGNAL before E_UNDERFLOW (`60_exceptions.md` R251). -/
def loadFault (s : State) : Option Raised :=
  match firstCell s (noSignal s) with
  | some c => some ⟨.noSignal, cellIndex c, (s.cell c).sigIdx.setWidth 8, 1⟩
  | none => (firstCell s (clearUnderflow s)).map fun c => ⟨.underflow, cellIndex c, 0, 1⟩

/-- ACTIVE after the CONNECT of a round: one less in every round with ITER != 0 (`42_array_commands.md` R179). -/
def State.nextActive (s : State) : BitVec 32 := if s.iter = 0 then s.active else s.active - 1

/-- The body of CONNECT (`42_array_commands.md` R171). -/
def connectBody (s : State) : StageResult :=
  if s.phase ≠ .connect then .error (s, sequenceFault 1)
  else
    match (if s.isLoadRound then loadFault s else none) with
    | some f => .error (s, f)
    | none =>
      .ok { forCells (connectCell s.isLoadRound) { s with active := s.nextActive } with
        roundKind := s.isLoadRound, phase := .read }

/-! ### READ -/

/-- SRC[c] = NONE (`42_array_commands.md` R172). -/
def noSource (s : State) (c : Nat) : Bool := (s.cell c).src == .none

/-- A predecessor-sourced cell whose predecessor holds fewer than n samples (`42_array_commands.md` R172). -/
def readUnderflow (s : State) (c : Nat) : Bool :=
  c != 0 && (s.cell c).src == .pred && decide ((s.cell (c - 1)).shift.length < s.cfg.cellSize)

/-- The checks of READ, SRC = NONE before E_UNDERFLOW (`60_exceptions.md` R251). -/
def readFault (s : State) : Option Raised :=
  match firstCell s (noSource s) with
  | some c => some ⟨.sequence, cellIndex c, 0, 2⟩
  | none => (firstCell s (readUnderflow s)).map fun c => ⟨.underflow, cellIndex c, 0, 2⟩

/-- The body of READ (`42_array_commands.md` R172). -/
def readBody (s : State) : StageResult :=
  if s.phase ≠ .read then .error (s, sequenceFault 2)
  else
    match readFault s with
    | some f => .error (s, f)
    | none => .ok { forCells readCell s with phase := .compute }

/-! ### COMPUTE -/

/-- RAW[c] or CONJ[c] holds fewer than n samples (`42_array_commands.md` R173). -/
def computeUnderflow (s : State) (c : Nat) : Bool :=
  decide ((s.cell c).raw.length < s.cfg.cellSize) || decide ((s.cell c).conj.length < s.cfg.cellSize)

/-- The body of COMPUTE (`42_array_commands.md` R173). -/
def computeBody (s : State) : StageResult :=
  if s.phase ≠ .compute then .error (s, sequenceFault 3)
  else
    match firstCell s (computeUnderflow s) with
    | some c => .error (s, ⟨.underflow, cellIndex c, 0, 3⟩)
    | none => .ok { forCells computeCell s with phase := .shift }

/-! ### SHIFT -/

/-- RAW[c] holds fewer than n samples (`42_array_commands.md` R174). -/
def shiftUnderflow (s : State) (c : Nat) : Bool := decide ((s.cell c).raw.length < s.cfg.cellSize)

/-- The body of SHIFT (`42_array_commands.md` R174). -/
def shiftBody (s : State) : StageResult :=
  if s.phase ≠ .shift then .error (s, sequenceFault 4)
  else
    match firstCell s (shiftUnderflow s) with
    | some c => .error (s, ⟨.underflow, cellIndex c, 0, 4⟩)
    | none => .ok { forCells shiftCell s with iter := s.iter + 1, phase := .connect }

/-! ### FINALIZE -/

/-- The run output (`42_array_commands.md` R177): ALPHA_TOP of cell 0, then ALPHA of every other cell. -/
def State.runOutput (s : State) : List Alpha :=
  (List.range s.cfg.arraySize).map fun c => if c = 0 then (s.cell 0).alphaTop else (s.cell c).alpha

/-- The body of FINALIZE (`42_array_commands.md` R177). -/
def finalizeBody (s : State) : StageResult :=
  if s.phase ≠ .connect then .error (s, sequenceFault 5)
  else
    .ok { s with
      result := s.runOutput, retired0 := true, resultCount := BitVec.ofNat 16 s.cfg.arraySize, phase := .done }

/-! ### ROUND and RUN -/

/-- The four stage bodies in a row (`42_array_commands.md` R175, after its PHASE check); a fault in one ends the rest. -/
def roundStages (s : State) : StageResult :=
  match connectBody s with
  | .error e => .error e
  | .ok s1 =>
    match readBody s1 with
    | .error e => .error e
    | .ok s2 =>
      match computeBody s2 with
      | .error e => .error e
      | .ok s3 => shiftBody s3

/-- The body of ROUND (`42_array_commands.md` R175). -/
def roundBody (s : State) : StageResult :=
  if s.phase ≠ .connect then .error (s, sequenceFault 0) else roundStages s

/-- T rounds, stopping at the first fault (`42_array_commands.md` R176). -/
def runRounds : Nat → State → StageResult
  | 0, s => .ok s
  | t + 1, s =>
    match roundStages s with
    | .error e => .error e
    | .ok s1 => runRounds t s1

/-- The body of RUN T (`42_array_commands.md` R176): T rounds, then FINALIZE. -/
def runBody (t : BitVec 16) (s : State) : StageResult :=
  if s.phase ≠ .connect then .error (s, sequenceFault 0)
  else
    match runRounds t.toNat s with
    | .error e => .error e
    | .ok s1 => finalizeBody s1

/-! ### The commands -/

/-- CONNECT (`42_array_commands.md` R171). -/
def execConnect (s : State) : Host.Outcome State Fault Refusal :=
  .next (stageCommand (encode .connect) connectBody s)

/-- READ (`42_array_commands.md` R172). -/
def execRead (s : State) : Host.Outcome State Fault Refusal :=
  .next (stageCommand (encode .read) readBody s)

/-- COMPUTE (`42_array_commands.md` R173). -/
def execCompute (s : State) : Host.Outcome State Fault Refusal :=
  .next (stageCommand (encode .compute) computeBody s)

/-- SHIFT (`42_array_commands.md` R174). -/
def execShift (s : State) : Host.Outcome State Fault Refusal :=
  .next (stageCommand (encode .shift) shiftBody s)

/-- ROUND (`42_array_commands.md` R175). -/
def execRound (s : State) : Host.Outcome State Fault Refusal :=
  .next (stageCommand (encode .round) roundBody s)

/-- RUN T (`42_array_commands.md` R176). -/
def execRun (t : BitVec 16) (s : State) : Host.Outcome State Fault Refusal :=
  .next (stageCommand (encode (.run t)) (runBody t) s)

/-- FINALIZE (`42_array_commands.md` R177). -/
def execFinalize (s : State) : Host.Outcome State Fault Refusal :=
  .next (stageCommand (encode .finalize) finalizeBody s)

end Sys2Proof.Machine
end

