-- ==== Sys2Proof/Machine/Operands.lean ====
section
/-! DEFINITION. The operand forms of the commands (`30_encoding.md` R93): index operands with their range checks, and the
byte form of a word where a platform carries one over a byte-wide path (`20_memory.md` R73). -/

namespace Sys2Proof.Machine

/-- C selects a cell, 0..N-1. -/
def State.cellInRange (s : State) (c : BitVec 8) : Bool := decide (c.toNat < s.cfg.arraySize)

/-- S selects a signal row, 0..S-1. -/
def State.signalInRange (s : State) (r : BitVec 8) : Bool := decide (r.toNat < s.cfg.numSignals)

/-- J selects one of the 8 bins, always in range. -/
def binIndex (j : BitVec 3) : Fin 8 := ⟨j.toNat, j.isLt⟩

/-- K selects a result vector, 0..RESULT_COUNT-1. -/
def State.resultInRange (s : State) (k : BitVec 8) : Bool := decide (k.toNat < s.resultCount.toNat)

/-- SEL1 selects ALPHA (0) or ALPHA_TOP (1). -/
def Cell.selectAlpha (k : Cell) (sel : BitVec 1) : Alpha := if sel = 0 then k.alpha else k.alphaTop

/-- IDX selects a FIFO element, 0 being the oldest; none when it is out of range. -/
def fifoElem (f : List Sample) (i : BitVec 16) : Option Sample := f[i.toNat]?

/-- An index operand out of range: E_RANGE with the cell and the secondary index (`60_exceptions.md` R245). -/
def rangeFault (cell sec : BitVec 8) : Raised := ⟨.range, cell, sec, 0⟩

/-- A word as bytes, byte 0 being bits 7:0 (`20_memory.md` R73). -/
def wordBytes (w : Word) : List (BitVec 8) :=
  [w.extractLsb' 0 8, w.extractLsb' 8 8, w.extractLsb' 16 8, w.extractLsb' 24 8]

/-- A binary64 Scalar as bytes, least significant byte first (`20_memory.md` R73). -/
def binary64Bytes (v : Binary64) : List (BitVec 8) :=
  wordBytes (v.extractLsb' 0 32) ++ wordBytes (v.extractLsb' 32 32)

/-- The word whose little-endian bytes are given, least significant first. -/
def wordOfBytes (b0 b1 b2 b3 : BitVec 8) : Word := b3 ++ (b2 ++ (b1 ++ b0))

end Sys2Proof.Machine
end

