-- ==== Sys2Proof/Machine/HostIo.lean ====
section
/-! DEFINITION. The host data and readout commands (`43_host_io.md`): NOP, QPUSH and the read commands. None adds to CYC;
none but QPUSH changes any state but the response, except through a fault (R210, R221). -/

namespace Sys2Proof.Machine

/-- NOP (`43_host_io.md` R211), accepted in every PHASE. -/
def execNop (s : State) : Host.Outcome State Fault Refusal := .next s.respondOk

/-- QPUSH s, c with the data operand d (`43_host_io.md` R212): E_RANGE before E_QFULL (`60_exceptions.md` R251). -/
def execQpush (r c : BitVec 8) (s : State) : Host.Outcome State Fault Refusal :=
  .next
    (if s.phase = .fault then s.refuseFaulted
     else if !(s.signalInRange r && s.cellInRange c) then s.raise (encode (.qpush r c)) (rangeFault c r)
     else if (s.queue r.toNat c.toNat).length = s.cfg.qdepth then s.raise (encode (.qpush r c)) ⟨.qfull, c, r, 0⟩
     else (s.setQueue r.toNat c.toNat (fifoPush s.cfg.qdepth (s.queue r.toNat c.toNat) s.operand)).respondOk)

/-- RDREG r (`43_host_io.md` R213). -/
def execRdreg (r : BitVec 8) (s : State) : Host.Outcome State Fault Refusal :=
  .next
    (match s.readReg r with
     | some v => s.respondWord v
     | none => s.raise (encode (.rdreg r)) (rangeFault 0 r))

/-- RDRES k, j (`43_host_io.md` R214). -/
def execRdres (k : BitVec 8) (j : BitVec 3) (s : State) : Host.Outcome State Fault Refusal :=
  .next
    (if s.resultInRange k then s.respondScalar (s.resultAt k.toNat)[binIndex j]
     else s.raise (encode (.rdres k j)) (rangeFault 0 k))

/-- RDALPHA c, sel, j (`43_host_io.md` R215). -/
def execRdalpha (c : BitVec 8) (sel : BitVec 1) (j : BitVec 3) (s : State) : Host.Outcome State Fault Refusal :=
  .next
    (if s.cellInRange c then s.respondScalar ((s.cell c.toNat).selectAlpha sel)[binIndex j]
     else s.raise (encode (.rdalpha c sel j)) (rangeFault c 0))

/-- RDCELL c, sel (`43_host_io.md` R216). -/
def execRdcell (c sel : BitVec 8) (s : State) : Host.Outcome State Fault Refusal :=
  .next
    (match (if s.cellInRange c then (s.cell c.toNat).select sel else none) with
     | some v => s.respondWord v
     | none => s.raise (encode (.rdcell c sel)) (rangeFault c sel))

/-- RDQLEN s, c (`43_host_io.md` R217). -/
def execRdqlen (r c : BitVec 8) (s : State) : Host.Outcome State Fault Refusal :=
  .next
    (if s.signalInRange r && s.cellInRange c then s.respondWord (BitVec.ofNat 32 (s.queue r.toNat c.toNat).length)
     else s.raise (encode (.rdqlen r c)) (rangeFault c r))

/-- A diagnostic read of element i of a FIFO of cell c (`43_host_io.md` R218 to R220), without a pop: E_RANGE with the low
byte of the index when the cell or the element does not exist. -/
def readElem (w : Word) (c : BitVec 8) (i : BitVec 16) (fifo : Cell → List Sample) (s : State) : State :=
  match (if s.cellInRange c then fifoElem (fifo (s.cell c.toNat)) i else none) with
  | some z => s.respondVal z
  | none => s.raise w (rangeFault c (i.setWidth 8))

/-- RDRAW c, i (`43_host_io.md` R218). -/
def execRdraw (c : BitVec 8) (i : BitVec 16) (s : State) : Host.Outcome State Fault Refusal :=
  .next (readElem (encode (.rdraw c i)) c i Cell.raw s)

/-- RDCONJ c, i (`43_host_io.md` R219). -/
def execRdconj (c : BitVec 8) (i : BitVec 16) (s : State) : Host.Outcome State Fault Refusal :=
  .next (readElem (encode (.rdconj c i)) c i Cell.conj s)

/-- RDSHIFT c, i (`43_host_io.md` R220). -/
def execRdshift (c : BitVec 8) (i : BitVec 16) (s : State) : Host.Outcome State Fault Refusal :=
  .next (readElem (encode (.rdshift c i)) c i Cell.shift s)

end Sys2Proof.Machine
end

