-- ==== Sys2Proof/Machine/Dispatch.lean ====
section
/-! DEFINITION. The meaning of each command: one arm per constructor of Instr. -/

namespace Sys2Proof.Machine

def exec (i : Instr) (s : State) : Host.Outcome State Fault Refusal :=
  match i with
  | .nop => Sys2Proof.Machine.execNop s
  | .qpush r c => Sys2Proof.Machine.execQpush r c s
  | .connect => Sys2Proof.Machine.execConnect s
  | .read => Sys2Proof.Machine.execRead s
  | .compute => Sys2Proof.Machine.execCompute s
  | .shift => Sys2Proof.Machine.execShift s
  | .round => Sys2Proof.Machine.execRound s
  | .run t => Sys2Proof.Machine.execRun t s
  | .finalize => Sys2Proof.Machine.execFinalize s
  | .rdreg r => Sys2Proof.Machine.execRdreg r s
  | .rdres k j => Sys2Proof.Machine.execRdres k j s
  | .rdalpha c sel j => Sys2Proof.Machine.execRdalpha c sel j s
  | .rdcell c sel => Sys2Proof.Machine.execRdcell c sel s
  | .rdqlen r c => Sys2Proof.Machine.execRdqlen r c s
  | .rdraw c j => Sys2Proof.Machine.execRdraw c j s
  | .rdconj c j => Sys2Proof.Machine.execRdconj c j s
  | .rdshift c j => Sys2Proof.Machine.execRdshift c j s

end Sys2Proof.Machine
end

