-- ==== Sys2Proof/WellFormed.lean ====
section
/-! DEFINITION. What must hold of the parameters and of the host's data for the block to exist and to accept a command.
Every term of `Instr` is a well-formed command: its operands have the widths of their fields (`30_encoding.md` R92). -/

namespace Sys2Proof

/-- A configuration inside the legal ranges of `00_scope.md` R9 to R12. Every other one describes no block
(`70_reset_and_hazards.md` R274). -/
def Config.legal (c : Config) : Bool :=
  decide (1 ≤ c.arraySize) && decide (c.arraySize ≤ 256) &&
  decide (4 ≤ c.log2CellSize) && decide (c.log2CellSize ≤ 16) &&
  decide (1 ≤ c.numSignals) && decide (c.numSignals ≤ 256) &&
  decide (1 ≤ c.qdepth) && decide (c.qdepth < 2 ^ 32)

/-- A Scalar of the configured number domain (`00_scope.md` R17). -/
def Scalar.inDomain (num : Numerics) : Scalar → Bool
  | .exact _ => num == .ideal
  | .binary64 _ => num == .binary64

/-- A sample whose two components are of the configured number domain: any pair of Scalars is a data operand, with no
other check (`92_eei_decisions.md` D39). -/
def Sample.inDomain (num : Numerics) (z : Sample) : Bool :=
  z.re.inDomain num && z.im.inDomain num

end Sys2Proof
end

