-- ==== Sys2Proof/Machine/Port.lean ====
section
/-! DEFINITION. The command port (`30_encoding.md` R90): accepting the next input of the host. This takes the place of an
instruction fetch, which the block does not have (`10_state.md` R32, `20_memory.md` R85). -/

namespace Sys2Proof.Machine

/-- What the port presents next. -/
inductive Presented where
  /-- Nothing: the block is idle (`60_exceptions.md` R262). -/
  | nothing
  /-- The reset event (`70_reset_and_hazards.md` R270). -/
  | reset
  /-- A command word; its data operand is latched. -/
  | command (w : Word)
  /-- A data operand outside the configured number domain (log entry 7). -/
  | foreignOperand
  deriving DecidableEq, Repr

/-- Take the next input off the port: what it presents, and the state with the input consumed and its data operand
latched (`20_memory.md` R79, log entry 1). -/
def State.accept (s : State) : Presented × State :=
  match s.port with
  | [] => (.nothing, s)
  | .reset :: rest => (.reset, { s with port := rest })
  | .command w d :: rest =>
    if d.inDomain s.cfg.numerics then (.command w, { s with port := rest, operand := d }) else (.foreignOperand, s)

/-- Present an instruction of `nbits` bits whose bits are `w`, the bits above `nbits` zero, as the next input of the host,
with the data operand ZERO. -/
def State.presentWord (s : State) (nbits w : Nat) : State :=
  { s with port := .command (BitVec.ofNat 32 (w % 2 ^ nbits)) (sampleZero s.cfg.numerics) :: s.port }

/-- An illegal word: E_ILLEGAL in every PHASE, before any other check (`60_exceptions.md` R242). -/
def illegalWord (w : Word) (s : State) : State := s.raise w ⟨.illegal, 0, 0, 0⟩

end Sys2Proof.Machine
end

