-- ==== Sys2Proof/Machine/Step.lean ====
section
/-! DEFINITION. One step of the block: the next input of the host is performed as one atomic transaction
(`70_reset_and_hazards.md` R281). -/

namespace Sys2Proof.Machine

/-- One step (`20_memory.md` R75, R79). A configuration that describes no block accepts nothing (`70_reset_and_hazards.md`
R274). -/
def step (s : State) : Host.Outcome State Fault Refusal :=
  if s.cfg.legal then
    match s.accept with
    | (.nothing, t) => .next t
    | (.reset, t) => .next t.hostReset
    | (.foreignOperand, _) => .fault .operandDomain
    | (.command w, t) =>
      match decode w with
      | .ok i => exec i t
      | .error _ => .next (illegalWord w t)
  else .refused .illegalConfiguration

/-- `s` with the instruction of `nbits` bits whose bits are `w` as the next input on the command port, its data operand
being ZERO (log entry 1). -/
def State.withFetchWord (s : State) (nbits w : Nat) : State := s.presentWord nbits w

end Sys2Proof.Machine
end

