-- ==== Sys2Proof/Safety.lean ====
section
/-! DEFINITION. What counts as a safe run, in the terms the statements use: the shape and the bounds of the stores, the
registers that go together, the number domain, non-negative alpha vectors, and the accepted sequences of
`42_array_commands.md`. -/

namespace Sys2Proof.Safety

open Sys2Proof.Machine

/-! ### The stores -/

/-- Every store has the shape the configuration gives it (`10_state.md` R30): N cells, N results, S rows of N queues. -/
abbrev Shape (s : State) : Prop :=
  s.cells.length = s.cfg.arraySize ∧ s.result.length = s.cfg.arraySize ∧ s.extq.length = s.cfg.numSignals ∧
  ∀ row ∈ s.extq, row.length = s.cfg.arraySize

/-- No FIFO holds more than its capacity (`10_state.md` R44 to R47, R49). -/
abbrev FifoBounds (s : State) : Prop :=
  (∀ k ∈ s.cells,
    k.raw.length ≤ s.cfg.cellSize ∧ k.conj.length ≤ s.cfg.cellSize ∧ k.shift.length ≤ s.cfg.cellSize) ∧
  ∀ row ∈ s.extq, ∀ q ∈ row, q.length ≤ s.cfg.qdepth

/-! ### Registers that go together -/

/-- RESULT_COUNT is 0 until FINALIZE and N after it, RETIRED0 tells which, and P_DONE is reached by FINALIZE only
(`10_state.md` R35, R39; `42_array_commands.md` R177). -/
abbrev ResultRegisters (s : State) : Prop :=
  s.resultCount = (if s.retired0 then BitVec.ofNat 16 s.cfg.arraySize else 0) ∧
  (s.phase = .done → s.retired0 = true) ∧
  (s.phase = .connect ∨ s.phase = .read ∨ s.phase = .compute ∨ s.phase = .shift → s.retired0 = false)

/-- The FAULT registers are clear outside P_FAULT, and in P_FAULT they hold a cause of `60_exceptions.md` R241 that can be
written there (R241, R248, R249). -/
abbrev FaultRegisters (s : State) : Prop :=
  (s.phase ≠ .fault → s.faultCause = 0 ∧ s.faultCmd = 0 ∧ s.faultInfo = 0) ∧
  (s.phase = .fault → 1 ≤ s.faultCause.toNat ∧ s.faultCause.toNat ≤ 6)

/-- The invariant of the stores and registers of a block. -/
abbrev BlockInv (s : State) : Prop := Shape s ∧ FifoBounds s ∧ ResultRegisters s ∧ FaultRegisters s

/-! ### Data -/

/-- Every Scalar of an alpha vector is of the configured domain. -/
abbrev AlphaInDomain (num : Numerics) (a : Alpha) : Prop := ∀ x ∈ a.toList, x.inDomain num = true

/-- Every sample of a FIFO is of the configured domain. -/
abbrev FifoInDomain (num : Numerics) (f : List Sample) : Prop := ∀ z ∈ f, z.inDomain num = true

/-- Every Scalar the block holds is of the configured number domain (`00_scope.md` R12, R17). -/
abbrev DomainInv (s : State) : Prop :=
  (∀ k ∈ s.cells, FifoInDomain s.cfg.numerics k.raw ∧ FifoInDomain s.cfg.numerics k.conj ∧
    FifoInDomain s.cfg.numerics k.shift ∧ AlphaInDomain s.cfg.numerics k.alpha ∧
    AlphaInDomain s.cfg.numerics k.alphaTop) ∧
  (∀ row ∈ s.extq, ∀ q ∈ row, FifoInDomain s.cfg.numerics q) ∧
  (∀ a ∈ s.result, AlphaInDomain s.cfg.numerics a) ∧
  s.operand.inDomain s.cfg.numerics = true ∧ s.rsp.val.inDomain s.cfg.numerics = true

/-- A Scalar that `40_units.md` R131 admits in an alpha vector: non-negative in IDEAL whatever the host's unnamed reals are;
+0, positive or NaN in BINARY64. -/
def ScalarNonNeg : Scalar → Prop
  | .exact x => ∀ ρ : Nat → ℝ, 0 ≤ exactEval ρ x
  | .binary64 v => b64IsNaN v = true ∨ b64Sign v = false

/-- Every bin of an alpha vector is non-negative. -/
def AlphaNonNeg (a : Alpha) : Prop := ∀ x ∈ a.toList, ScalarNonNeg x

/-- Every value held in ALPHA, ALPHA_TOP or RESULT is non-negative (`40_units.md` R131). -/
def NonNegInv (s : State) : Prop :=
  (∀ k ∈ s.cells, AlphaNonNeg k.alpha ∧ AlphaNonNeg k.alphaTop) ∧ ∀ a ∈ s.result, AlphaNonNeg a

/-! ### Values -/

/-- The quarter turns of the twiddle generator are the given numbers 1, -1 and 0 (`40_units.md` R116). Every length that is
a power of two is 1, 2 or a multiple of 4. -/
abbrev QuarterTurns (num : Numerics) (one minusOne zero : Scalar) : Prop :=
  twiddle num 1 0 = ⟨one, zero⟩ ∧ twiddle num 2 0 = ⟨one, zero⟩ ∧ twiddle num 2 1 = ⟨minusOne, zero⟩ ∧
  ∀ n : Nat, 0 < n →
    twiddle num (4 * n) 0 = ⟨one, zero⟩ ∧ twiddle num (4 * n) n = ⟨zero, minusOne⟩ ∧
    twiddle num (4 * n) (2 * n) = ⟨minusOne, zero⟩ ∧ twiddle num (4 * n) (3 * n) = ⟨zero, one⟩

/-- v is x/u rounded to nearest, ties to even, in units of 2^-1074 (`00_scope.md` R12; log entry 10). From half a unit
beyond the largest finite number on, v is the infinity of x's sign. Below it v is finite, no finite number is closer, and
where another finite number is as close, v has the even fraction. -/
abbrev RoundsToNearestEven (x : Int) (u : Nat) (v : Binary64) : Prop :=
  ((2 ^ 54 - 1) * 2 ^ 2044 * u ≤ |x| → v = b64Inf (decide (x < 0))) ∧
  (|x| < (2 ^ 54 - 1) * 2 ^ 2044 * u → b64IsFinite v = true ∧ ∀ c : Binary64, b64IsFinite c = true →
    |x - b64Int v * u| ≤ |x - b64Int c * u| ∧
    (|x - b64Int v * u| = |x - b64Int c * u| → b64Int c ≠ b64Int v → b64Frac v % 2 = 0))

/-- Every second element of a vector of length 2m, from element i on: the even-indexed half for i = 0, the odd-indexed half
for i = 1 (`40_units.md` R119). -/
def everySecond (num : Numerics) (m i : Nat) (x : List Sample) : List Sample :=
  (List.range m).map fun j => x.getD (2 * j + i) (sampleZero num)

/-! ### Accepted sequences (`42_array_commands.md`, section 5) -/

/-- SRC[c] from the CONNECT of round t on (`42_array_commands.md` R183). -/
def roundSource (cfg : Config) (t c : Nat) : Src :=
  if c = 0 ∨ t % cfg.arraySize = 0 then .ext (t / cfg.arraySize) else .pred

/-- ACTIVE during round t (`42_array_commands.md` R180). -/
def roundActive (cfg : Config) (t : Nat) : BitVec 32 := BitVec.ofInt 32 ((cfg.arraySize : Int) - (t : Int))

/-- Count(SHIFT[c]) at the COMPUTE and SHIFT of a round (`42_array_commands.md` R181). -/
def roundShiftCount (s : State) (c : Nat) : Nat :=
  if s.roundKind = false ∧ c + 1 = s.cfg.arraySize then s.cfg.cellSize else 0

/-- Between rounds, ITER = t rounds done: nothing has been read yet, or round t - 1 has left every RAW empty and every CONJ
and SHIFT full (`42_array_commands.md` R180, R181, R183, R184). -/
abbrev BetweenRounds (s : State) : Prop :=
  s.iter.toNat ≤ s.cfg.numSignals * s.cfg.arraySize ∧
  s.active = roundActive s.cfg (s.iter.toNat - 1) ∧
  ∀ c < s.cfg.arraySize,
    (s.cell c).sigIdx.toNat = (s.iter.toNat + s.cfg.arraySize - 1) / s.cfg.arraySize ∧
    (s.cell c).raw = [] ∧
    (s.cell c).conj.length = (if s.iter = 0 then 0 else s.cfg.cellSize) ∧
    (s.cell c).shift.length = (if s.iter = 0 then 0 else s.cfg.cellSize) ∧
    (s.cell c).src = (if s.iter = 0 then .none else roundSource s.cfg (s.iter.toNat - 1) c)

/-- What holds from the CONNECT of round t = ITER on (`42_array_commands.md` R180, R183, R184). -/
abbrev InRound (s : State) : Prop :=
  s.iter.toNat < s.cfg.numSignals * s.cfg.arraySize ∧
  s.active = roundActive s.cfg s.iter.toNat ∧
  s.roundKind = (s.iter.toNat % s.cfg.arraySize == 0) ∧
  ∀ c < s.cfg.arraySize,
    (s.cell c).sigIdx.toNat = s.iter.toNat / s.cfg.arraySize + 1 ∧
    (s.cell c).src = roundSource s.cfg s.iter.toNat c

/-- The FIFO counts at the READ of a round (`42_array_commands.md` R181). -/
abbrev ReadCounts (s : State) : Prop :=
  ∀ c < s.cfg.arraySize,
    (s.cell c).raw = [] ∧
    (s.cell c).conj.length = (if s.roundKind then 0 else s.cfg.cellSize) ∧
    (s.cell c).shift.length = (if s.roundKind then 0 else s.cfg.cellSize)

/-- The FIFO counts at the COMPUTE and the SHIFT of a round (`42_array_commands.md` R181), and the conjugates CONJ holds
where the cell has read externally in this round (`41_cell_ops.md` R162). -/
abbrev ComputeCounts (s : State) : Prop :=
  ∀ c < s.cfg.arraySize,
    (s.cell c).raw.length = s.cfg.cellSize ∧
    (s.cell c).conj.length = s.cfg.cellSize ∧
    (s.cell c).shift.length = roundShiftCount s c ∧
    (c = 0 ∨ s.roundKind = true → (s.cell c).conj = (s.cell c).raw.map conj)

/-- What holds of the arbiter and the FIFOs at every point of an accepted sequence, phase by phase
(`42_array_commands.md` R180, R181, R183, R184). After a fault nothing is claimed. -/
def AcceptedPoint (s : State) : Prop :=
  match s.phase with
  | .connect | .done => BetweenRounds s
  | .read => InRound s ∧ ReadCounts s
  | .compute | .shift => InRound s ∧ ComputeCounts s
  | .fault => True

/-- The invariant of the accepted sequences. -/
def AcceptedInv (s : State) : Prop := s.cfg.legal = true ∧ Shape s ∧ AcceptedPoint s

/-- CYC added by round t in an accepted sequence (`42_array_commands.md` R186): READ, then COMPUTE, then SHIFT. -/
def roundCost (cfg : Config) (t : Nat) : Nat :=
  (if t % cfg.arraySize = 0 then cfg.cellSize * cfg.arraySize else cfg.cellSize) +
  (cfg.arraySize * (cfg.cellSize + cfg.cellSize * cfg.log2CellSize + 16) +
    (if t = 0 then 0 else if t < cfg.arraySize then 16 * cfg.arraySize - 8 else 16 * cfg.arraySize)) +
  cfg.cellSize * cfg.arraySize

/-! ### Data erased -/

/-- A FIFO with every sample replaced by ZERO: only its count remains. -/
def eraseFifo (num : Numerics) (f : List Sample) : List Sample := f.map fun _ => sampleZero num

/-- A cell with its data erased. -/
def eraseCell (num : Numerics) (k : Cell) : Cell :=
  { k with raw := eraseFifo num k.raw, conj := eraseFifo num k.conj, shift := eraseFifo num k.shift,
           alpha := alphaZero num, alphaTop := alphaZero num }

/-- The state with every Scalar erased: the control state, the counts of the FIFOs and the response but its value. -/
def erase (s : State) : State :=
  { s with
    cells := s.cells.map (eraseCell s.cfg.numerics)
    extq := s.extq.map fun row => row.map (eraseFifo s.cfg.numerics)
    result := s.result.map fun _ => alphaZero s.cfg.numerics
    operand := sampleZero s.cfg.numerics
    rsp := { s.rsp with val := sampleZero s.cfg.numerics } }

/-! ### Sequences of commands -/

/-- Commands performed one after the other (`20_memory.md` R79). -/
def execSeq : List Instr → State → Host.Outcome State Fault Refusal
  | [], s => .next s
  | i :: is, s =>
    match exec i s with
    | .next t => execSeq is t
    | .fault r => .fault r
    | .refused r => .refused r

/-- The block an external read takes from a queue: its oldest samples, zero-filled to `j` slots (`41_cell_ops.md` R147). -/
def zeroFilled (num : Numerics) (j : Nat) (q : List Sample) : List Sample :=
  q.take j ++ List.replicate (j - q.length) (sampleZero num)

/-- The block cell c reads in a READ (`41_cell_ops.md` R146 to R148). -/
def readBlock (s : State) (c : Nat) : List Sample :=
  match (s.cell c).src with
  | .none => []
  | .ext r => zeroFilled s.cfg.numerics s.cfg.cellSize (s.queue r c)
  | .pred => (s.cell (c - 1)).shift.take s.cfg.cellSize

/-- The state after a fault in a command with word w (`60_exceptions.md` R249), FAULT_INFO as `10_state.md` R53 lays it
out. -/
def afterFault (s : State) (w : Word) (cause cell sec : BitVec 8) (stage : BitVec 3) : State :=
  if s.phase = .fault then { s with rsp := ⟨cause, 0, sampleZero s.cfg.numerics⟩ }
  else
    { s with
      faultCause := cause, faultCmd := w, faultInfo := 0#13 ++ (stage ++ (sec ++ cell)), phase := .fault
      rsp := ⟨cause, 0, sampleZero s.cfg.numerics⟩ }

/-- The response of a command that succeeded and defines no response value (`30_encoding.md` R90). -/
def okResponse (s : State) : Response := ⟨0, 0, sampleZero s.cfg.numerics⟩

end Sys2Proof.Safety
end

