-- ==== Sys2Proof/Certificates/Slice0/Obligations.lean ====
section
/-! DEFINITION. The statements for the provers, each about every state that meets its hypotheses. Every docstring names the
rules of `spec/` the statement rests on. -/

open Sys2Proof Sys2Proof.Machine Sys2Proof.Safety

/-! ### Encoding -/

/-- Every command decodes from its own word (`30_encoding.md` R92, R94). -/
def Obligations.DecodeOfEncode : Prop := ∀ i : Instr, decode (encode i) = .ok i

/-- A word that decodes is the word of the command it decodes to: every bit of a legal word counts (`30_encoding.md` R92,
R95). -/
def Obligations.EncodeOfDecode : Prop := ∀ (w : Word) (i : Instr), decode w = .ok i → encode i = w

/-- Every word selects exactly one row of the opcode map, and decodes to a command of that row's mnemonic, or selects no
row and is illegal (`30_encoding.md` R94, R96). -/
def Obligations.WordSelectsOneRowOrIsIllegal : Prop :=
  ∀ w : Word,
    (∃ i r, decode w = .ok i ∧ r ∈ opcodeMap ∧ r.selects w = true ∧ r.mnemonic = i.mnemonic ∧
      ∀ r' ∈ opcodeMap, r'.selects w = true → r' = r) ∨
    ((∃ e, decode w = .error e) ∧ ∀ r ∈ opcodeMap, r.selects w = false)

/-- The words of the spec's encoding examples decode to the commands they are written for (`30_encoding.md` R99). -/
def Obligations.ExampleWordsDecode : Prop :=
  decode 0x02000000#32 = .ok .connect ∧ decode 0x06000000#32 = .ok .round ∧ decode 0x07000002#32 = .ok (.run 2) ∧
  decode 0x08000000#32 = .ok .finalize ∧ decode 0x01000100#32 = .ok (.qpush 0 1) ∧
  decode 0x09000006#32 = .ok (.rdreg 0x06) ∧ decode 0x0A010003#32 = .ok (.rdres 1 3) ∧
  decode 0x0B020100#32 = .ok (.rdalpha 2 1 0) ∧ decode 0x0C010004#32 = .ok (.rdcell 1 4) ∧
  decode 0x0D000100#32 = .ok (.rdqlen 0 1) ∧ decode 0x1201000F#32 = .ok (.rdshift 1 15) ∧
  decode 0x02000001#32 = .error (.reservedBits "CONNECT")

/-! ### The step -/

/-- A word that selects no row of the opcode map faults E_ILLEGAL in every PHASE, before any other check; outside P_FAULT
the word is recorded in FAULT_CMD (`60_exceptions.md` R242, with the fault entry of R249). That the step takes the input off
the list `port` and latches its data operand in `operand` is the model's choice (log entries 1 and 9). -/
def Obligations.IllegalWordFaults : Prop :=
  ∀ (s : State) (w : Word) (d : Sample) (rest : List HostInput),
    s.cfg.legal = true → s.port = .command w d :: rest → d.inDomain s.cfg.numerics = true →
    (∀ r ∈ opcodeMap, r.selects w = false) →
    step s = .next (afterFault { s with port := rest, operand := d } w 0x01 0 0 0)

/-- When the next word on the command port decodes, the step is the command's meaning, with the input consumed and its data
operand latched; a word placed by `withFetchWord` is the next one (`20_memory.md` R75, R79). -/
def Obligations.StepRunsDecodedCommand : Prop :=
  (∀ (s : State) (w : Word) (d : Sample) (rest : List HostInput) (i : Instr),
    s.cfg.legal = true → s.port = .command w d :: rest → d.inDomain s.cfg.numerics = true → decode w = .ok i →
    step s = exec i { s with port := rest, operand := d }) ∧
  (∀ (s : State) (w : Nat) (i : Instr),
    s.cfg.legal = true → w < 2 ^ 32 → decode (BitVec.ofNat 32 w) = .ok i →
    step (s.withFetchWord 32 w) = exec i { s with operand := sampleZero s.cfg.numerics })

/-- With no command presented the block holds all its state (`60_exceptions.md` R262). That an idle block takes a step at
all is the model's choice (log entry 1). -/
def Obligations.IdleStepHoldsState : Prop :=
  ∀ s : State, s.cfg.legal = true → s.port = [] → step s = .next s

/-- The reset event sets every piece of state to its reset value (`10_state.md` R59) and keeps the configuration and the
host's later inputs. -/
def Obligations.ResetEventSetsResetValues : Prop :=
  ∀ (s : State) (rest : List HostInput), s.cfg.legal = true → s.port = .reset :: rest →
    ∃ t, step s = .next t ∧ t.cfg = s.cfg ∧ t.port = rest ∧
      t.phase = .connect ∧ t.roundKind = false ∧ t.retired0 = false ∧ t.iter = 0 ∧
      t.active = BitVec.ofNat 32 s.cfg.arraySize ∧ t.cyc = 0 ∧ t.resultCount = 0 ∧
      t.faultCause = 0 ∧ t.faultCmd = 0 ∧ t.faultInfo = 0 ∧
      t.result = List.replicate s.cfg.arraySize (alphaZero s.cfg.numerics) ∧
      (∀ c < s.cfg.arraySize,
        (t.cell c).sigIdx = 0 ∧ (t.cell c).src = .none ∧ (t.cell c).raw = [] ∧ (t.cell c).conj = [] ∧
        (t.cell c).shift = [] ∧ (t.cell c).alpha = alphaZero s.cfg.numerics ∧
        (t.cell c).alphaTop = alphaZero s.cfg.numerics) ∧
      Shape t ∧ ∀ r c, t.queue r c = []

/-- A step ends in a stop only where the model says so: a configuration outside the legal ranges accepts nothing
(`70_reset_and_hazards.md` R274), and a data operand outside the number domain is no input of the block (the model's choice,
log entry 7). Every other step has a next state. -/
def Obligations.StepStopsOnlyWhereNamed : Prop :=
  ∀ s : State,
    (s.cfg.arraySize = 0 ∨ 256 < s.cfg.arraySize ∨ s.cfg.log2CellSize < 4 ∨ 16 < s.cfg.log2CellSize ∨
      s.cfg.numSignals = 0 ∨ 256 < s.cfg.numSignals ∨ s.cfg.qdepth = 0 ∨ 2 ^ 32 ≤ s.cfg.qdepth →
      step s = .refused .illegalConfiguration) ∧
    (s.cfg.legal = true →
      (∀ w d rest, s.port = .command w d :: rest → d.inDomain s.cfg.numerics = false → step s = .fault .operandDomain) ∧
      ((∀ w d rest, s.port = .command w d :: rest → d.inDomain s.cfg.numerics = true) → ∃ t, step s = .next t))

/-! ### Faults -/

/-- Fault entry outside P_FAULT writes the FAULT registers and enters P_FAULT; in P_FAULT it keeps the first fault; the
response carries the cause; nothing else changes (`60_exceptions.md` R249). -/
def Obligations.FaultEntryKeepsFirstFault : Prop :=
  ∀ (s : State) (w : Word) (f : Raised),
    (s.phase ≠ .fault →
      s.raise w f =
        { s with faultCause := f.cause.code, faultCmd := w, faultInfo := 0#13 ++ (f.stage ++ (f.sec ++ f.cell)),
                 phase := .fault, rsp := ⟨f.cause.code, 0, sampleZero s.cfg.numerics⟩ }) ∧
    (s.phase = .fault → s.raise w f = { s with rsp := ⟨f.cause.code, 0, sampleZero s.cfg.numerics⟩ })

/-- In P_FAULT every command but NOP and the read commands is refused with status E_FAULTED and changes nothing; an illegal
word returns E_ILLEGAL and also changes nothing (`60_exceptions.md` R248). That the refusal carries rsp_word = 0 and
rsp_val = ZERO is deduced from `30_encoding.md` R90 (log entry 17); that the step of the second clause takes the input off
the port and latches its operand is the model's choice (log entries 1 and 9). -/
def Obligations.FaultedBlockRefusesCommands : Prop :=
  (∀ (i : Instr) (s : State), s.phase = .fault → i.isRead = false → i ≠ .nop →
    exec i s = .next { s with rsp := ⟨0x07, 0, sampleZero s.cfg.numerics⟩ }) ∧
  (∀ (s : State) (w : Word) (d : Sample) (rest : List HostInput),
    s.cfg.legal = true → s.phase = .fault → s.port = .command w d :: rest → d.inDomain s.cfg.numerics = true →
    (∀ r ∈ opcodeMap, r.selects w = false) →
    step s = .next { s with port := rest, operand := d, rsp := ⟨0x01, 0, sampleZero s.cfg.numerics⟩ })

/-- Until a reset, no step taken in P_FAULT changes anything but the port and the response (`60_exceptions.md` R248, R249,
R253). -/
def Obligations.FaultedBlockKeepsState : Prop :=
  ∀ s t : State, s.phase = .fault → (∀ rest, s.port ≠ .reset :: rest) → step s = .next t →
    t = { s with port := t.port, operand := t.operand, rsp := t.rsp }

/-- Only the reset event leaves P_FAULT, and it leaves the reset state (`60_exceptions.md` R252). That the response port and
the operand latch are reset too, to the values they have there, and that the inputs the host has still to present stay, is
the model's choice (log entries 8, 9 and 14). -/
def Obligations.OnlyResetLeavesFault : Prop :=
  ∀ s t : State, s.phase = .fault → step s = .next t → t.phase ≠ .fault →
    ∃ rest, s.port = .reset :: rest ∧ t = { State.resetWith s.cfg with port := rest }

/-- A stage-type command outside its PHASE faults E_SEQUENCE with the stage it would have started, and in P_FAULT it is
refused with E_FAULTED (`42_array_commands.md` R178). That the refusal carries rsp_word = 0 and rsp_val = ZERO is deduced
from `30_encoding.md` R90 (log entry 17). -/
def Obligations.WrongPhaseFaultsSequence : Prop :=
  ∀ s : State,
    (s.phase ≠ .fault →
      (s.phase ≠ .connect → exec .connect s = .next (afterFault s 0x02000000#32 0x02 0 0 1)) ∧
      (s.phase ≠ .read → exec .read s = .next (afterFault s 0x03000000#32 0x02 0 0 2)) ∧
      (s.phase ≠ .compute → exec .compute s = .next (afterFault s 0x04000000#32 0x02 0 0 3)) ∧
      (s.phase ≠ .shift → exec .shift s = .next (afterFault s 0x05000000#32 0x02 0 0 4)) ∧
      (s.phase ≠ .connect → exec .round s = .next (afterFault s 0x06000000#32 0x02 0 0 0)) ∧
      (∀ n : BitVec 16, s.phase ≠ .connect → exec (.run n) s = .next (afterFault s (encode (.run n)) 0x02 0 0 0)) ∧
      (s.phase ≠ .connect → exec .finalize s = .next (afterFault s 0x08000000#32 0x02 0 0 5))) ∧
    (s.phase = .fault → ∀ i : Instr, i.isStageType = true →
      exec i s = .next { s with rsp := ⟨0x07, 0, sampleZero s.cfg.numerics⟩ }) ∧
    (afterFault State.reset 0x03000000#32 0x02 0 0 2).faultInfo = 0x00020000#32

/-- A command other than ROUND and RUN that reports an error leaves everything but PHASE, the FAULT registers and the
response as before it (`60_exceptions.md` R250). -/
def Obligations.FaultsArePrecise : Prop :=
  ∀ (i : Instr) (s t : State), i ≠ .round → (∀ n, i ≠ .run n) → exec i s = .next t → t.rsp.status ≠ 0 →
    t = { s with phase := t.phase, faultCause := t.faultCause, faultCmd := t.faultCmd, faultInfo := t.faultInfo,
                 rsp := t.rsp }

/-! ### Host data and readout -/

/-- NOP responds with success in every PHASE and changes nothing else (`43_host_io.md` R211). -/
def Obligations.NopOnlyResponds : Prop :=
  ∀ s : State, exec .nop s = .next { s with rsp := okResponse s }

/-- QPUSH appends the data operand to the addressed queue and changes nothing else (`43_host_io.md` R212). -/
def Obligations.QpushAppendsOperand : Prop :=
  ∀ (s : State) (r c : BitVec 8), Shape s → s.phase ≠ .fault → r.toNat < s.cfg.numSignals → c.toNat < s.cfg.arraySize →
    (s.queue r.toNat c.toNat).length ≠ s.cfg.qdepth →
    exec (.qpush r c) s = .next { s with
      extq := s.extq.modify r.toNat fun row => row.modify c.toNat fun q => q ++ [s.operand]
      rsp := okResponse s }

/-- QPUSH faults E_RANGE on an index out of range, and otherwise E_QFULL on a full queue (`60_exceptions.md` R245, R246,
R251). -/
def Obligations.QpushFaults : Prop :=
  ∀ (s : State) (r c : BitVec 8), s.phase ≠ .fault →
    (s.cfg.numSignals ≤ r.toNat ∨ s.cfg.arraySize ≤ c.toNat →
      exec (.qpush r c) s = .next (afterFault s (encode (.qpush r c)) 0x04 c r 0)) ∧
    (r.toNat < s.cfg.numSignals → c.toNat < s.cfg.arraySize →
      (s.queue r.toNat c.toNat).length = s.cfg.qdepth →
      exec (.qpush r c) s = .next (afterFault s (encode (.qpush r c)) 0x05 c r 0))

/-- RDREG returns the register of the register map and changes nothing else; a reserved number faults E_RANGE
(`10_state.md` R51, `43_host_io.md` R213). -/
def Obligations.RdregReturnsRegister : Prop :=
  ∀ s : State,
    (∀ p ∈ [(0x00#8, s.statusWord), (0x01#8, s.faultCause.setWidth 32), (0x02#8, s.faultCmd), (0x03#8, s.faultInfo),
            (0x04#8, s.iter), (0x05#8, s.active), (0x06#8, s.cyc.setWidth 32), (0x07#8, (s.cyc >>> 32).setWidth 32),
            (0x08#8, s.resultCount.setWidth 32), (0x09#8, BitVec.ofNat 32 s.cfg.arraySize),
            (0x0A#8, BitVec.ofNat 32 s.cfg.log2CellSize), (0x0B#8, BitVec.ofNat 32 s.cfg.numSignals),
            (0x0C#8, BitVec.ofNat 32 s.cfg.qdepth), (0x0D#8, if s.cfg.numerics = .ideal then 0#32 else 1#32)],
      exec (.rdreg p.1) s = .next { s with rsp := ⟨0, p.2, sampleZero s.cfg.numerics⟩ }) ∧
    ∀ r : BitVec 8, 0x0D < r.toNat → exec (.rdreg r) s = .next (afterFault s (encode (.rdreg r)) 0x04 0 r 0)

/-- STATUS holds PHASE, ROUND_KIND, RETIRED0 and FAULTED at their places, zeros above, and is 0 at reset (`10_state.md`
R52). -/
def Obligations.StatusLayout : Prop :=
  (∀ s : State,
    s.statusWord.extractLsb' 0 3 = s.phase.code ∧ s.statusWord.getLsbD 3 = s.roundKind ∧
    s.statusWord.getLsbD 4 = s.retired0 ∧ (s.statusWord.getLsbD 5 = true ↔ s.phase = .fault) ∧
    s.statusWord.extractLsb' 6 26 = 0#26) ∧
  ∀ cfg : Config, (State.resetWith cfg).statusWord = 0#32

/-- RDRES returns a bin of RESULT[k] as (value, +0) for k < RESULT_COUNT, and otherwise faults E_RANGE (`43_host_io.md`
R214). -/
def Obligations.RdresReturnsResultBin : Prop :=
  ∀ (s : State) (k : BitVec 8) (j : BitVec 3),
    (∀ a, k.toNat < s.resultCount.toNat → s.result[k.toNat]? = some a →
      exec (.rdres k j) s = .next { s with rsp := ⟨0, 0, ⟨a[j.toNat], scalarZero s.cfg.numerics⟩⟩ }) ∧
    (s.resultCount.toNat ≤ k.toNat → exec (.rdres k j) s = .next (afterFault s (encode (.rdres k j)) 0x04 0 k 0))

/-- RDALPHA returns a bin of ALPHA[c] or ALPHA_TOP[c] as (value, +0) for c < N, and otherwise faults E_RANGE
(`43_host_io.md` R215). -/
def Obligations.RdalphaReturnsBin : Prop :=
  ∀ (s : State) (c : BitVec 8) (j : BitVec 3),
    (c.toNat < s.cfg.arraySize →
      exec (.rdalpha c 0 j) s =
        .next { s with rsp := ⟨0, 0, ⟨(s.cell c.toNat).alpha[j.toNat], scalarZero s.cfg.numerics⟩⟩ } ∧
      exec (.rdalpha c 1 j) s =
        .next { s with rsp := ⟨0, 0, ⟨(s.cell c.toNat).alphaTop[j.toNat], scalarZero s.cfg.numerics⟩⟩ }) ∧
    (s.cfg.arraySize ≤ c.toNat → ∀ sel : BitVec 1,
      exec (.rdalpha c sel j) s = .next (afterFault s (encode (.rdalpha c sel j)) 0x04 c 0 0))

/-- RDCELL returns SIG_IDX, the SRC encoding or a FIFO count of a cell, and faults E_RANGE on any other cell or selector
(`10_state.md` R54, R55; `43_host_io.md` R216). -/
def Obligations.RdcellReturnsSelected : Prop :=
  ∀ (s : State) (c sel : BitVec 8),
    (c.toNat < s.cfg.arraySize →
      (∀ p ∈ [(0#8, (s.cell c.toNat).sigIdx.setWidth 32), (2#8, BitVec.ofNat 32 (s.cell c.toNat).raw.length),
              (3#8, BitVec.ofNat 32 (s.cell c.toNat).conj.length),
              (4#8, BitVec.ofNat 32 (s.cell c.toNat).shift.length)],
        exec (.rdcell c p.1) s = .next { s with rsp := ⟨0, p.2, sampleZero s.cfg.numerics⟩ }) ∧
      ∃ v : Word, exec (.rdcell c 1) s = .next { s with rsp := ⟨0, v, sampleZero s.cfg.numerics⟩ } ∧
        ((s.cell c.toNat).src = .none → v = 0) ∧ ((s.cell c.toNat).src = .pred → v = 2) ∧
        ∀ r, (s.cell c.toNat).src = .ext r → r < 256 → v.toNat = 256 * r + 1) ∧
    (s.cfg.arraySize ≤ c.toNat ∨ 4 < sel.toNat →
      exec (.rdcell c sel) s = .next (afterFault s (encode (.rdcell c sel)) 0x04 c sel 0))

/-- RDQLEN returns the count of a queue, and faults E_RANGE on an index out of range (`43_host_io.md` R217). -/
def Obligations.RdqlenReturnsCount : Prop :=
  ∀ (s : State) (r c : BitVec 8),
    (r.toNat < s.cfg.numSignals → c.toNat < s.cfg.arraySize →
      exec (.rdqlen r c) s =
        .next { s with rsp := ⟨0, BitVec.ofNat 32 (s.queue r.toNat c.toNat).length, sampleZero s.cfg.numerics⟩ }) ∧
    (s.cfg.numSignals ≤ r.toNat ∨ s.cfg.arraySize ≤ c.toNat →
      exec (.rdqlen r c) s = .next (afterFault s (encode (.rdqlen r c)) 0x04 c r 0))

/-- RDRAW, RDCONJ and RDSHIFT return an element of a FIFO without a pop, the oldest at index 0, and fault E_RANGE on a cell
or an element that does not exist (`43_host_io.md` R218 to R220). -/
def Obligations.FifoReadsReturnElement : Prop :=
  ∀ (s : State) (c : BitVec 8) (i : BitVec 16),
    (∀ z, c.toNat < s.cfg.arraySize → (s.cell c.toNat).raw[i.toNat]? = some z →
      exec (.rdraw c i) s = .next { s with rsp := ⟨0, 0, z⟩ }) ∧
    (∀ z, c.toNat < s.cfg.arraySize → (s.cell c.toNat).conj[i.toNat]? = some z →
      exec (.rdconj c i) s = .next { s with rsp := ⟨0, 0, z⟩ }) ∧
    (∀ z, c.toNat < s.cfg.arraySize → (s.cell c.toNat).shift[i.toNat]? = some z →
      exec (.rdshift c i) s = .next { s with rsp := ⟨0, 0, z⟩ }) ∧
    (s.cfg.arraySize ≤ c.toNat ∨ (s.cell c.toNat).raw.length ≤ i.toNat →
      exec (.rdraw c i) s = .next (afterFault s (encode (.rdraw c i)) 0x04 c (i.setWidth 8) 0)) ∧
    (s.cfg.arraySize ≤ c.toNat ∨ (s.cell c.toNat).conj.length ≤ i.toNat →
      exec (.rdconj c i) s = .next (afterFault s (encode (.rdconj c i)) 0x04 c (i.setWidth 8) 0)) ∧
    (s.cfg.arraySize ≤ c.toNat ∨ (s.cell c.toNat).shift.length ≤ i.toNat →
      exec (.rdshift c i) s = .next (afterFault s (encode (.rdshift c i)) 0x04 c (i.setWidth 8) 0))

/-- A read command that succeeds changes nothing but the response; one that fails changes nothing but the response, PHASE
and the FAULT registers; repeated at once it returns the same response (`20_memory.md` R76, `43_host_io.md` R221). -/
def Obligations.ReadCommandsRepeat : Prop :=
  ∀ (i : Instr) (s t : State), i.isRead = true → exec i s = .next t →
    (t.rsp.status = 0 → t = { s with rsp := t.rsp }) ∧
    (t.rsp.status ≠ 0 → t.rsp.status = 0x04 ∧
      t = { s with phase := .fault, faultCause := t.faultCause, faultCmd := t.faultCmd, faultInfo := t.faultInfo,
                   rsp := t.rsp }) ∧
    ∃ u, exec i t = .next u ∧ u.rsp = t.rsp

/-! ### Datapath units -/

/-- In IDEAL the complex primitives and the twiddle factors are the complex numbers they are named for
(`40_units.md` R111 to R113, R115). -/
def Obligations.IdealPrimitivesAreExact : Prop :=
  ∀ ρ : Nat → ℝ,
    (∀ a b : Sample, a.inDomain .ideal = true → b.inDomain .ideal = true →
      sampleEval ρ (cadd a b) = sampleEval ρ a + sampleEval ρ b ∧
      sampleEval ρ (cmul a b) = sampleEval ρ a * sampleEval ρ b ∧
      sampleEval ρ (conj a) = (starRingEnd ℂ) (sampleEval ρ a)) ∧
    ∀ n k : Nat, k < n →
      sampleEval ρ (twiddle .ideal n k) = Complex.exp (-(2 * Real.pi * k / n : ℝ) * Complex.I)

/-- The quarter turns are exact in both domains: 1, -1 and 0 are those numbers in IDEAL, and their binary64 patterns in
BINARY64, every zero +0 (`40_units.md` R116). -/
def Obligations.QuarterTurnsAreExact : Prop :=
  QuarterTurns .ideal (.exact (.lit 1)) (.exact (.lit (-1))) (.exact (.lit 0)) ∧
  QuarterTurns .binary64 (.binary64 0x3FF0000000000000#64) (.binary64 0xBFF0000000000000#64) (.binary64 0#64)

/-- In IDEAL, TWIDDLE(n, k + n/2) = -TWIDDLE(n, k) and TWIDDLE(n, 2k) = TWIDDLE(n/2, k) (`40_units.md` R117). -/
def Obligations.TwiddleSymmetries : Prop :=
  ∀ (ρ : Nat → ℝ) (l k : Nat), k < 2 ^ l →
    sampleEval ρ (twiddle .ideal (2 ^ (l + 1)) (k + 2 ^ l)) = - sampleEval ρ (twiddle .ideal (2 ^ (l + 1)) k) ∧
    sampleEval ρ (twiddle .ideal (2 ^ (l + 1)) (2 * k)) = sampleEval ρ (twiddle .ideal (2 ^ l) k)

/-- In IDEAL the pipeline FFT is the discrete Fourier transform (`40_units.md` R122). -/
def Obligations.PfftIsFourierTransform : Prop :=
  ∀ (ρ : Nat → ℝ) (l : Nat) (x : List Sample) (cyc : BitVec 64),
    x.length = 2 ^ l → (∀ z ∈ x, z.inDomain .ideal = true) →
    ∀ k : Nat, k < 2 ^ l → ∃ z, (pfft .ideal l x cyc).1[k]? = some z ∧
      sampleEval ρ z =
        ∑ j ∈ Finset.range (2 ^ l), sampleEval ρ (x.getD j (sampleZero .ideal)) *
          Complex.exp (-(2 * Real.pi * j * k / (2 ^ l : ℕ) : ℝ) * Complex.I)

/-- PFFT in both domains: a vector of length 1 is returned unchanged (`40_units.md` R118); for a length n = 2m,
F[k] = E[k mod m] + W[k] * O[k mod m] for every k in 0..n-1, with E and O the transforms of the even-indexed and the
odd-indexed half and W[k] the twiddle factor of k itself, which off the quarter turns is in BINARY64 the parameter's value
at (n, k), whatever that value is (R115, R119; log entry 4); a length 2^L adds 2^L * L cycles (R120). -/
def Obligations.PfftCycleCost : Prop :=
  (∀ (num : Numerics) (z : Sample) (cyc : BitVec 64), pfft num 0 [z] cyc = ([z], cyc)) ∧
  (∀ (num : Numerics) (l : Nat) (x : List Sample) (cyc : BitVec 64), x.length = 2 ^ (l + 1) →
    (pfft num (l + 1) x cyc).1.length = 2 ^ (l + 1) ∧
    ∀ k < 2 ^ (l + 1), ∃ e o,
      (pfft num l (everySecond num (2 ^ l) 0 x) 0).1[k % 2 ^ l]? = some e ∧
      (pfft num l (everySecond num (2 ^ l) 1 x) 0).1[k % 2 ^ l]? = some o ∧
      (pfft num (l + 1) x cyc).1[k]? = some (cadd e (cmul (twiddle num (2 ^ (l + 1)) k) o))) ∧
  (∀ n k : Nat, k < n → 4 * k % n ≠ 0 →
    twiddle .binary64 n k = ⟨.binary64 (Config.twiddleB64 n k).1, .binary64 (Config.twiddleB64 n k).2⟩) ∧
  ∀ (num : Numerics) (l : Nat) (x : List Sample) (cyc : BitVec 64),
    (pfft num l x cyc).2 = cyc + BitVec.ofNat 64 (2 ^ l * l)

/-- CORR of any two vectors of one length is their product element by element, one cycle each, in both domains
(`40_units.md` R123): in a shift round the operands are a shifted block and a stale conjugate block (`10_state.md` R57). In
BINARY64 a product is four rounded products, a rounded difference and a rounded sum (R112), and conj flips the sign of the
imaginary part (R113). Correlating a block with its own conjugates gives the squared magnitudes, real: exactly in IDEAL, and
with two rounded products and one rounded sum in BINARY64, where the imaginary part is +0 when the cross product is finite
(R124). -/
def Obligations.CorrelationWithOwnConjugate : Prop :=
  (∀ (x y : List Sample) (cyc : BitVec 64), x.length = y.length →
    (corr x y cyc).2 = cyc + BitVec.ofNat 64 x.length ∧ (corr x y cyc).1.length = x.length ∧
    ∀ (i : Nat) (a b : Sample), x[i]? = some a → y[i]? = some b → (corr x y cyc).1[i]? = some (cmul a b)) ∧
  (∀ a b c d : Binary64,
    cmul ⟨.binary64 a, .binary64 b⟩ ⟨.binary64 c, .binary64 d⟩ =
      ⟨.binary64 (b64Sub (b64Mul a c) (b64Mul b d)), .binary64 (b64Add (b64Mul a d) (b64Mul b c))⟩ ∧
    conj ⟨.binary64 a, .binary64 b⟩ = ⟨.binary64 a, .binary64 (b ^^^ 0x8000000000000000#64)⟩) ∧
  (∀ (ρ : Nat → ℝ) (x : List Sample) (cyc : BitVec 64) (i : Nat) (z : Sample), (∀ y ∈ x, y.inDomain .ideal = true) →
    x[i]? = some z → ∃ y, (corr x (x.map conj) cyc).1[i]? = some y ∧
      scalarEval ρ y.re = scalarEval ρ z.re ^ 2 + scalarEval ρ z.im ^ 2 ∧ scalarEval ρ y.im = 0) ∧
  (∀ (x : List Sample) (cyc : BitVec 64) (i : Nat) (a b : Binary64), x[i]? = some ⟨.binary64 a, .binary64 b⟩ →
    ∃ y, (corr x (x.map conj) cyc).1[i]? = some y ∧
      (b64IsFinite a = true → b64IsFinite b = true → y.re = .binary64 (b64Add (b64Mul a a) (b64Mul b b))) ∧
      (b64IsFinite (b64Mul a b) = true → y.im = .binary64 0#64))

/-- SPECTRUM takes the magnitudes of bins n-8..n-1 as its lower half and of bins 0..7 as its upper half, in 16 cycles
(`40_units.md` R126). -/
def Obligations.SpectrumBins : Prop :=
  ∀ (num : Numerics) (l : Nat) (f : List Sample) (cyc : BitVec 64), 4 ≤ l → f.length = 2 ^ l →
    (spectrum num f cyc).2 = cyc + 16 ∧
    ∀ i (h : i < 8),
      f[2 ^ l - 8 + i]?.map mag = some ((spectrum num f cyc).1.lower[i]) ∧
      f[i]?.map mag = some ((spectrum num f cyc).1.upper[i])

/-- In IDEAL the spectrum of a real sequence is symmetric, so the lower half is the mirror of bins 1..8 (`40_units.md`
R127). -/
def Obligations.RealSpectrumIsMirrored : Prop :=
  ∀ (ρ : Nat → ℝ) (l : Nat) (x : List Sample) (cyc : BitVec 64), 4 ≤ l → x.length = 2 ^ l →
    (∀ z ∈ x, z.inDomain .ideal = true ∧ scalarEval ρ z.im = 0) →
    let f := (pfft .ideal l x cyc).1
    (∀ k, 1 ≤ k → k < 2 ^ l →
      scalarEval ρ (mag (f.getD (2 ^ l - k) (sampleZero .ideal))) = scalarEval ρ (mag (f.getD k (sampleZero .ideal)))) ∧
    ∀ i (h : i < 8),
      scalarEval ρ ((spectrum .ideal f cyc).1.lower[i]) = scalarEval ρ (mag (f.getD (8 - i) (sampleZero .ideal)))

/-- max2 is the ordinary maximum in IDEAL; in BINARY64 it keeps a NaN first operand, ignores a NaN second one, and of two
finite numbers takes the second exactly when it is greater, with the infinities outside them; max3 applies it twice, left to
right (`40_units.md` R128). -/
def Obligations.MaxOrderAndNaN : Prop :=
  (∀ (ρ : Nat → ℝ) (x y : ExactReal),
    scalarEval ρ (max2 (.exact x) (.exact y)) = max (exactEval ρ x) (exactEval ρ y)) ∧
  (∀ a b : Binary64, b64IsNaN a = true ∨ b64IsNaN b = true → max2 (.binary64 a) (.binary64 b) = .binary64 a) ∧
  (∀ a b : Binary64, b64IsFinite a = true → b64IsFinite b = true →
    max2 (.binary64 a) (.binary64 b) = .binary64 (if b64Int a < b64Int b then b else a)) ∧
  (∀ v : Binary64, b64IsFinite v = true →
    max2 (.binary64 v) (.binary64 (b64Inf false)) = .binary64 (b64Inf false) ∧
    max2 (.binary64 (b64Inf false)) (.binary64 v) = .binary64 (b64Inf false) ∧
    max2 (.binary64 v) (.binary64 (b64Inf true)) = .binary64 v ∧
    max2 (.binary64 (b64Inf true)) (.binary64 v) = .binary64 v) ∧
  ∀ a b c : Scalar, max3 a b c = max2 (max2 a b) c

/-- In both domains bin i of an inner merge is max3(top[i], lower[i], pred[i]), at a cost of 16, and bin i of a last merge
is max2(top[i], pred[i]), at a cost of 8 (`40_units.md` R129, R130). In IDEAL each bin is the maximum of its operands, so an
inner merge is at least each of its three and a last merge at least each of its two (`42_array_commands.md` R188). -/
def Obligations.MergesAreMaxima : Prop :=
  ∀ (top lower pred : Alpha) (cyc : BitVec 64),
    (mergeInner top lower pred cyc).2 = cyc + 16 ∧ (mergeLast top pred cyc).2 = cyc + 8 ∧
    (∀ i (h : i < 8),
      (mergeInner top lower pred cyc).1[i] = max3 top[i] lower[i] pred[i] ∧
      (mergeLast top pred cyc).1[i] = max2 top[i] pred[i]) ∧
    ∀ ρ : Nat → ℝ, AlphaInDomain .ideal top → AlphaInDomain .ideal lower → AlphaInDomain .ideal pred →
      ∀ i (h : i < 8),
        scalarEval ρ ((mergeInner top lower pred cyc).1[i]) =
          max (max (scalarEval ρ top[i]) (scalarEval ρ lower[i])) (scalarEval ρ pred[i]) ∧
        scalarEval ρ ((mergeLast top pred cyc).1[i]) = max (scalarEval ρ top[i]) (scalarEval ρ pred[i])

/-- The magnitude is the modulus in IDEAL; in BINARY64 it is |x| when the other component is a zero, and always +0, positive
or NaN (`40_units.md` R125). -/
def Obligations.MagnitudeLaws : Prop :=
  (∀ (ρ : Nat → ℝ) (z : Sample), z.inDomain .ideal = true → scalarEval ρ (mag z) = ‖sampleEval ρ z‖) ∧
  (∀ x o : Binary64, b64IsNaN x = false → b64IsZero o = true →
    mag ⟨.binary64 x, .binary64 o⟩ = .binary64 (b64Abs x) ∧ mag ⟨.binary64 o, .binary64 x⟩ = .binary64 (b64Abs x)) ∧
  ∀ x y : Binary64, ∃ v, mag ⟨.binary64 x, .binary64 y⟩ = .binary64 v ∧ (b64IsNaN v = true ∨ b64Sign v = false)

/-- In BINARY64 a sum, a difference and a product of finite numbers are the exact result rounded to nearest, ties to even,
infinite exactly from half a unit beyond the largest finite number on (`00_scope.md` R12, `40_units.md` R111, R112); sums
and differences are exact in units of 2^-1074, products in units of 2^-2148. The sign is that of the exact result; an exact
zero sum is -0 only when both addends are negative, and a product has the product of the signs. A NaN operand gives a NaN;
infinities give infinities, and a NaN where two of them cancel or a zero multiplies one. The IEEE 754 meaning is presumed
(log entry 10), and which NaN a NaN is stays open (log entry 6). -/
def Obligations.Binary64RoundsToNearestEven : Prop :=
  (∀ a b : Binary64, b64IsFinite a = true → b64IsFinite b = true →
    RoundsToNearestEven (b64Int a + b64Int b) 1 (b64Add a b) ∧
    RoundsToNearestEven (b64Int a - b64Int b) 1 (b64Sub a b) ∧
    RoundsToNearestEven (b64Int a * b64Int b) (2 ^ 1074) (b64Mul a b) ∧
    b64Sign (b64Add a b) =
      (if b64Int a + b64Int b = 0 then b64Sign a && b64Sign b else decide (b64Int a + b64Int b < 0)) ∧
    b64Sign (b64Sub a b) =
      (if b64Int a - b64Int b = 0 then b64Sign a && !b64Sign b else decide (b64Int a - b64Int b < 0)) ∧
    b64Sign (b64Mul a b) = (b64Sign a != b64Sign b)) ∧
  (∀ v : Binary64, b64IsFinite v = true ∨ b64IsNaN v = true ∨ v = b64Inf (b64Sign v)) ∧
  b64Inf false = 0x7FF0000000000000#64 ∧ b64Inf true = 0xFFF0000000000000#64 ∧
  (∀ a b : Binary64, b64IsNaN a = true ∨ b64IsNaN b = true →
    b64IsNaN (b64Add a b) = true ∧ b64IsNaN (b64Sub a b) = true ∧ b64IsNaN (b64Mul a b) = true) ∧
  (∀ (p : Bool) (v : Binary64), b64IsFinite v = true →
    b64Add (b64Inf p) v = b64Inf p ∧ b64Add v (b64Inf p) = b64Inf p ∧
    b64Sub (b64Inf p) v = b64Inf p ∧ b64Sub v (b64Inf p) = b64Inf (!p) ∧
    (b64Int v ≠ 0 →
      b64Mul (b64Inf p) v = b64Inf (p != b64Sign v) ∧ b64Mul v (b64Inf p) = b64Inf (b64Sign v != p)) ∧
    (b64Int v = 0 → b64IsNaN (b64Mul (b64Inf p) v) = true ∧ b64IsNaN (b64Mul v (b64Inf p)) = true)) ∧
  ∀ p q : Bool,
    b64Mul (b64Inf p) (b64Inf q) = b64Inf (p != q) ∧
    (p = q → b64Add (b64Inf p) (b64Inf q) = b64Inf p ∧ b64IsNaN (b64Sub (b64Inf p) (b64Inf q)) = true) ∧
    (p ≠ q → b64IsNaN (b64Add (b64Inf p) (b64Inf q)) = true ∧ b64Sub (b64Inf p) (b64Inf q) = b64Inf p)

/-! ### Array commands -/

/-- CONNECT in a load round: every cell selects and counts its next signal row, and clears SHIFT and CONJ but on its first;
ACTIVE is decremented unless ITER = 0 (`41_cell_ops.md` R142, R145; `42_array_commands.md` R171, R179). -/
def Obligations.ConnectLoadRound : Prop :=
  ∀ s : State, Shape s → s.phase = .connect → s.iter.toNat % s.cfg.arraySize = 0 →
    (∀ k ∈ s.cells, k.sigIdx.toNat < s.cfg.numSignals) →
    (∀ k ∈ s.cells, k.sigIdx ≠ 0 → s.cfg.cellSize ≤ k.shift.length ∧ s.cfg.cellSize ≤ k.conj.length) →
    exec .connect s = .next { s with
      active := if s.iter = 0 then s.active else s.active - 1
      roundKind := true
      phase := .read
      cells := s.cells.map fun k =>
        { k with src := .ext k.sigIdx.toNat, sigIdx := k.sigIdx + 1,
                 shift := if k.sigIdx = 0 then k.shift else k.shift.drop s.cfg.cellSize,
                 conj := if k.sigIdx = 0 then k.conj else k.conj.drop s.cfg.cellSize }
      rsp := okResponse s }

/-- CONNECT in a shift round: every cell but cell 0 selects its predecessor, and cell 0 keeps its source (`41_cell_ops.md`
R143; `42_array_commands.md` R171, R179). -/
def Obligations.ConnectShiftRound : Prop :=
  ∀ s : State, Shape s → s.phase = .connect → s.iter.toNat % s.cfg.arraySize ≠ 0 →
    exec .connect s = .next { s with
      active := s.active - 1
      roundKind := false
      phase := .read
      cells := s.cells.mapIdx fun c k => if c = 0 then k else { k with src := .pred }
      rsp := okResponse s }

/-- CONNECT of a load round faults E_NOSIGNAL at the lowest cell whose signal row does not exist, and otherwise E_UNDERFLOW
at the lowest cell that a clearShift would underflow (`42_array_commands.md` R171; `60_exceptions.md` R244, R247, R251). -/
def Obligations.ConnectFaults : Prop :=
  ∀ (s : State) (c : Nat), s.phase = .connect → s.iter.toNat % s.cfg.arraySize = 0 → c < s.cfg.arraySize →
    (s.cfg.numSignals ≤ (s.cell c).sigIdx.toNat → (∀ d < c, (s.cell d).sigIdx.toNat < s.cfg.numSignals) →
      exec .connect s =
        .next (afterFault s 0x02000000#32 0x06 (BitVec.ofNat 8 c) ((s.cell c).sigIdx.setWidth 8) 1)) ∧
    ((∀ d < s.cfg.arraySize, (s.cell d).sigIdx.toNat < s.cfg.numSignals) →
      (s.cell c).sigIdx ≠ 0 →
      ((s.cell c).shift.length < s.cfg.cellSize ∨ (s.cell c).conj.length < s.cfg.cellSize) →
      (∀ d < c, (s.cell d).sigIdx = 0 ∨
        (s.cfg.cellSize ≤ (s.cell d).shift.length ∧ s.cfg.cellSize ≤ (s.cell d).conj.length)) →
      exec .connect s = .next (afterFault s 0x02000000#32 0x03 (BitVec.ofNat 8 c) 0 1))

/-- READ gives every cell a block of n samples: from its external queue, zero-filled, with the conjugates into CONJ and n
cycles, or from its predecessor's SHIFT, with CONJ left alone and no cycle; SHIFT is emptied by its successor's read alone
(`41_cell_ops.md` R146 to R148; `42_array_commands.md` R172). -/
def Obligations.ReadBlocks : Prop :=
  ∀ s : State, Shape s → FifoBounds s → s.phase = .read →
    (∀ c < s.cfg.arraySize, (∃ r < s.cfg.numSignals, (s.cell c).src = .ext r) ∨
      (c ≠ 0 ∧ (s.cell c).src = .pred ∧ s.cfg.cellSize ≤ (s.cell (c - 1)).shift.length)) →
    ∃ t, exec .read s = .next t ∧ Shape t ∧
      t = { s with cells := t.cells, extq := t.extq, cyc := t.cyc, phase := .compute, rsp := okResponse s } ∧
      t.cyc = s.cyc + BitVec.ofNat 64
        (s.cfg.cellSize * ((List.range s.cfg.arraySize).filter fun c => (s.cell c).src != .pred).length) ∧
      (∀ c < s.cfg.arraySize, t.cell c = { s.cell c with
        raw := readBlock s c
        conj := if (s.cell c).src = .pred then (s.cell c).conj else (readBlock s c).map conj
        shift := if c + 1 < s.cfg.arraySize ∧ (s.cell (c + 1)).src = .pred then [] else (s.cell c).shift }) ∧
      ∀ r < s.cfg.numSignals, ∀ c < s.cfg.arraySize,
        t.queue r c = if (s.cell c).src = .ext r then (s.queue r c).drop s.cfg.cellSize else s.queue r c

/-- COMPUTE gives each cell, in ascending order, the first-round, the inner or the last merge of its spectrum with the ALPHA
its predecessor has just written, and leaves the FIFOs alone; the spectrum is that of the transform of CORR(RAW, CONJ),
whatever RAW and CONJ hold (`41_cell_ops.md` R150 to R159; `42_array_commands.md` R173). -/
def Obligations.ComputeMerges : Prop :=
  ∀ s : State, Shape s → FifoBounds s → s.phase = .compute →
    (∀ k ∈ s.cells, s.cfg.cellSize ≤ k.raw.length ∧ s.cfg.cellSize ≤ k.conj.length) →
    ∃ t, exec .compute s = .next t ∧ Shape t ∧
      t = { s with cells := t.cells, cyc := t.cyc, phase := .shift, rsp := okResponse s } ∧
      t.cyc = s.cyc + BitVec.ofNat 64
        (s.cfg.arraySize * (s.cfg.cellSize + s.cfg.cellSize * s.cfg.log2CellSize + 16) +
          (if s.iter = 0 then 0
           else if 1 ≤ s.active.toInt ∧ s.active.toInt ≤ s.cfg.arraySize then 16 * s.cfg.arraySize - 8
           else 16 * s.cfg.arraySize)) ∧
      ∀ c < s.cfg.arraySize,
        let f := (pfft s.cfg.numerics s.cfg.log2CellSize (corr (s.cell c).raw (s.cell c).conj 0).1 0).1
        let sp := (Machine.spectrum s.cfg.numerics f 0).1
        let pred := if c = 0 then alphaZero s.cfg.numerics else (t.cell (c - 1)).alpha
        (s.iter = 0 → t.cell c = { s.cell c with alphaTop := sp.upper }) ∧
        (s.iter ≠ 0 → (c : Int) ≠ s.active.toInt - 1 →
          t.cell c = { s.cell c with
            alpha := (mergeInner (s.cell c).alphaTop sp.lower pred 0).1, alphaTop := sp.upper }) ∧
        (s.iter ≠ 0 → (c : Int) = s.active.toInt - 1 →
          t.cell c = { s.cell c with
            alpha := (mergeLast (s.cell c).alphaTop pred 0).1,
            alphaTop := (mergeLast (s.cell c).alphaTop pred 0).1 })

/-- SHIFT moves every RAW into its SHIFT, one cycle per sample, and counts the round (`41_cell_ops.md` R160, R163;
`42_array_commands.md` R174). -/
def Obligations.ShiftMovesBlocks : Prop :=
  ∀ s : State, Shape s → FifoBounds s → s.phase = .shift →
    (∀ k ∈ s.cells, s.cfg.cellSize ≤ k.raw.length) →
    exec .shift s = .next { s with
      cells := s.cells.map fun k => { k with raw := [], shift := k.raw }
      cyc := s.cyc + BitVec.ofNat 64 (s.cfg.cellSize * s.cfg.arraySize)
      iter := s.iter + 1
      phase := .connect
      rsp := okResponse s }

/-- READ faults E_SEQUENCE at the lowest cell with no source, and otherwise E_UNDERFLOW at the lowest cell whose predecessor
holds too few samples; COMPUTE and SHIFT fault E_UNDERFLOW at the lowest cell that holds too few (`42_array_commands.md`
R172 to R174; `60_exceptions.md` R243, R244, R251). -/
def Obligations.StageUnderflowFaults : Prop :=
  ∀ (s : State) (c : Nat), c < s.cfg.arraySize →
    (s.phase = .read → (s.cell c).src = .none → (∀ d < c, (s.cell d).src ≠ .none) →
      exec .read s = .next (afterFault s 0x03000000#32 0x02 (BitVec.ofNat 8 c) 0 2)) ∧
    (s.phase = .read → (∀ d < s.cfg.arraySize, (s.cell d).src ≠ .none) →
      c ≠ 0 → (s.cell c).src = .pred → (s.cell (c - 1)).shift.length < s.cfg.cellSize →
      (∀ d < c, d = 0 ∨ (s.cell d).src ≠ .pred ∨ s.cfg.cellSize ≤ (s.cell (d - 1)).shift.length) →
      exec .read s = .next (afterFault s 0x03000000#32 0x03 (BitVec.ofNat 8 c) 0 2)) ∧
    (s.phase = .compute → ((s.cell c).raw.length < s.cfg.cellSize ∨ (s.cell c).conj.length < s.cfg.cellSize) →
      (∀ d < c, s.cfg.cellSize ≤ (s.cell d).raw.length ∧ s.cfg.cellSize ≤ (s.cell d).conj.length) →
      exec .compute s = .next (afterFault s 0x04000000#32 0x03 (BitVec.ofNat 8 c) 0 3)) ∧
    (s.phase = .shift → (s.cell c).raw.length < s.cfg.cellSize →
      (∀ d < c, s.cfg.cellSize ≤ (s.cell d).raw.length) →
      exec .shift s = .next (afterFault s 0x05000000#32 0x03 (BitVec.ofNat 8 c) 0 4))

/-- FINALIZE collects ALPHA_TOP of cell 0 and ALPHA of the others, in cell order, retires cell 0 and ends the run
(`42_array_commands.md` R177). -/
def Obligations.FinalizeCollectsResults : Prop :=
  ∀ s : State, s.phase = .connect →
    exec .finalize s = .next { s with
      result := (List.range s.cfg.arraySize).map fun c => if c = 0 then (s.cell c).alphaTop else (s.cell c).alpha
      retired0 := true
      resultCount := BitVec.ofNat 16 s.cfg.arraySize
      phase := .done
      rsp := okResponse s }

/-- ROUND has the effect of the four stage commands in a row; where one of them faults, ROUND keeps the earlier effects and
records its own word and the cause of the faulting stage (`42_array_commands.md` R175). -/
def Obligations.RoundIsFourStages : Prop :=
  ∀ s t : State, s.phase = .connect → execSeq [.connect, .read, .compute, .shift] s = .next t →
    exec .round s = .next
      (if t.rsp.status = 0 then t
       else { t with faultCmd := 0x06000000#32, rsp := ⟨t.faultCause, 0, sampleZero s.cfg.numerics⟩ })

/-- RUN T has the effect of T ROUNDs and a FINALIZE where none of them faults (`30_encoding.md` R98,
`42_array_commands.md` R176). Where the ROUND after k < T others faults, RUN stops there: the effects of the earlier rounds
and of the bodies before the faulting one stay, FAULT_CMD is the RUN word, cause and FAULT_INFO are those of the faulting
body, and FINALIZE is not performed (R175, R176). -/
def Obligations.RunIsRoundsThenFinalize : Prop :=
  ∀ (s : State) (n : BitVec 16), s.phase = .connect →
    (∀ t, execSeq (List.replicate n.toNat .round ++ [.finalize]) s = .next t → t.rsp.status = 0 →
      exec (.run n) s = .next t) ∧
    ∀ k < n.toNat, ∀ s1 t, execSeq (List.replicate k .round) s = .next s1 → s1.phase = .connect →
      exec .round s1 = .next t → t.rsp.status ≠ 0 →
      exec (.run n) s = .next { t with faultCmd := encode (.run n) } ∧ t.phase = .fault ∧
      t.result = s.result ∧ t.resultCount = s.resultCount ∧ t.retired0 = s.retired0

/-- In an accepted sequence ROUND completes while a signal row is left: it counts the round, adds the round's cost to CYC,
and leaves the block between rounds again (`42_array_commands.md` R175, R184, R186). -/
def Obligations.RoundCompletesInAcceptedSequence : Prop :=
  ∀ s : State, AcceptedInv s → s.phase = .connect →
    s.iter.toNat < s.cfg.numSignals * s.cfg.arraySize →
    ∃ t, exec .round s = .next t ∧ t.phase = .connect ∧ t.iter.toNat = s.iter.toNat + 1 ∧ t.rsp = okResponse s ∧
      t.cyc = s.cyc + BitVec.ofNat 64 (roundCost s.cfg s.iter.toNat) ∧ AcceptedInv t ∧
      t = { s with iter := t.iter, active := t.active, cyc := t.cyc, roundKind := t.roundKind, cells := t.cells,
                   extq := t.extq, rsp := t.rsp }

/-- In an accepted sequence RUN T completes while its signal rows exist: T rounds, their cost in CYC, and the results
collected; nothing else but the cells and the queues changes (`42_array_commands.md` R176, R184, R186). -/
def Obligations.RunCompletesInAcceptedSequence : Prop :=
  ∀ (s : State) (n : BitVec 16), AcceptedInv s → s.phase = .connect →
    s.iter.toNat + n.toNat ≤ s.cfg.numSignals * s.cfg.arraySize →
    ∃ t, exec (.run n) s = .next t ∧ t.phase = .done ∧ t.iter.toNat = s.iter.toNat + n.toNat ∧ t.rsp = okResponse s ∧
      t.retired0 = true ∧ t.resultCount = BitVec.ofNat 16 s.cfg.arraySize ∧
      t.cyc = s.cyc + BitVec.ofNat 64 (∑ k ∈ Finset.range n.toNat, roundCost s.cfg (s.iter.toNat + k)) ∧
      t.result = (List.range s.cfg.arraySize).map (fun c => if c = 0 then (t.cell c).alphaTop else (t.cell c).alpha) ∧
      AcceptedInv t ∧
      t = { s with phase := t.phase, iter := t.iter, active := t.active, cyc := t.cyc, roundKind := t.roundKind,
                   cells := t.cells, extq := t.extq, result := t.result, resultCount := t.resultCount,
                   retired0 := t.retired0, rsp := t.rsp }

/-! ### Invariants and whole-machine rules -/

/-- The reset state of every legal configuration meets every invariant stated here (`10_state.md` R59). The response and the
operand latch at reset are the model's choice (log entries 8 and 9). -/
def Obligations.ResetMeetsInvariants : Prop :=
  ∀ cfg : Config, cfg.legal = true →
    BlockInv (State.resetWith cfg) ∧ DomainInv (State.resetWith cfg) ∧ NonNegInv (State.resetWith cfg) ∧
    AcceptedInv (State.resetWith cfg)

/-- Every step keeps the shape and the bounds of the stores, the result registers and the FAULT registers together
(`10_state.md` R39, R44; `60_exceptions.md` R249). -/
def Obligations.StepKeepsBlockInvariant : Prop :=
  ∀ s t : State, BlockInv s → step s = .next t → BlockInv t

/-- Every step keeps every Scalar in the configured number domain (`00_scope.md` R12). -/
def Obligations.StepKeepsNumberDomain : Prop :=
  ∀ s t : State, DomainInv s → step s = .next t → DomainInv t

/-- Every step keeps the values of ALPHA, ALPHA_TOP and RESULT non-negative (`40_units.md` R131). -/
def Obligations.StepKeepsAlphaNonNegative : Prop :=
  ∀ s t : State, DomainInv s → NonNegInv s → step s = .next t → NonNegInv t

/-- Every step keeps the invariant of the accepted sequences: the FIFO counts, SIG_IDX, SRC and ACTIVE of round ITER, phase
by phase (`42_array_commands.md` R180, R181, R183). -/
def Obligations.StepKeepsAcceptedInvariant : Prop :=
  ∀ s t : State, AcceptedInv s → step s = .next t → AcceptedInv t

/-- In an accepted sequence no command faults E_UNDERFLOW, and a READ in its PHASE does not fault (`42_array_commands.md`
R182). -/
def Obligations.AcceptedSequenceNeverUnderflows : Prop :=
  ∀ (i : Instr) (s t : State), AcceptedInv s → exec i s = .next t →
    t.rsp.status ≠ 0x03 ∧ (s.phase = .read → i = .read → t.rsp.status = 0)

/-- In an accepted sequence CONNECT faults E_NOSIGNAL exactly in round S*N, and succeeds in every earlier round
(`42_array_commands.md` R184). -/
def Obligations.NoSignalExactlyAfterLastRow : Prop :=
  ∀ s : State, AcceptedInv s → s.phase = .connect →
    ∃ t, exec .connect s = .next t ∧
      (t.rsp.status = 0x06 ↔ s.iter.toNat = s.cfg.numSignals * s.cfg.arraySize) ∧
      (t.rsp.status = 0 ↔ s.iter.toNat < s.cfg.numSignals * s.cfg.arraySize)

/-- No data value influences the control state, the counts, CYC or the response but its value: two states that agree but for
data still do so after the same command (`42_array_commands.md` R187). -/
def Obligations.ControlIndependentOfData : Prop :=
  ∀ (i : Instr) (s s' : State), erase s = erase s' →
    ∃ t t', exec i s = .next t ∧ exec i s' = .next t' ∧ erase t = erase t'

/-- No step changes the configuration (`10_state.md` R50). -/
def Obligations.ConfigurationNeverChanges : Prop :=
  ∀ s t : State, step s = .next t → t.cfg = s.cfg

/-- Each store is written only by the commands the spec names for it (`20_memory.md` R72; `10_state.md` R33 to R39). -/
def Obligations.StoresWrittenOnlyByNamedCommands : Prop :=
  ∀ (i : Instr) (s t : State), exec i s = .next t → i ≠ .round → (∀ n, i ≠ .run n) →
    (t.extq ≠ s.extq → i = .read ∨ ∃ r c, i = .qpush r c) ∧
    (t.cells.map (·.alpha) ≠ s.cells.map (·.alpha) → i = .compute) ∧
    (t.cells.map (·.alphaTop) ≠ s.cells.map (·.alphaTop) → i = .compute) ∧
    (t.cells.map (·.raw) ≠ s.cells.map (·.raw) → i = .read ∨ i = .shift) ∧
    (t.cells.map (·.conj) ≠ s.cells.map (·.conj) → i = .connect ∨ i = .read) ∧
    (t.cells.map (·.shift) ≠ s.cells.map (·.shift) → i = .connect ∨ i = .read ∨ i = .shift) ∧
    (t.cells.map (fun k => (k.src, k.sigIdx)) ≠ s.cells.map (fun k => (k.src, k.sigIdx)) → i = .connect) ∧
    ((t.active, t.roundKind) ≠ (s.active, s.roundKind) → i = .connect) ∧
    ((t.result, t.resultCount, t.retired0) ≠ (s.result, s.resultCount, s.retired0) → i = .finalize) ∧
    (t.cyc ≠ s.cyc → i = .read ∨ i = .compute ∨ i = .shift) ∧
    (t.iter ≠ s.iter → i = .shift) ∧ t.port = s.port ∧ t.operand = s.operand
end

