-- ==== Sys2Proof/Laws/Exact.lean ====
section
/-! SUPPORT. The operations on exact expressions compute the real numbers they stand for: folding changes no value. -/

namespace Sys2Proof.Machine

theorem ratAdd_eq (p q : ℚ) : ratAdd p q = p + q := by
  unfold ratAdd; rw [Rat.add_def', Rat.mkRat_eq_div]

theorem ratMul_eq (p q : ℚ) : ratMul p q = p * q := by
  unfold ratMul; rw [Rat.mul_def', Rat.mkRat_eq_div]

theorem ratNeg_eq (p : ℚ) : ratNeg p = -p := by
  unfold ratNeg
  rw [Rat.mkRat_eq_div, Int.cast_neg, neg_div, Rat.num_div_den]

theorem ratLt_iff (p q : ℚ) : ratLt p q = true ↔ p < q := by
  unfold ratLt; rw [decide_eq_true_iff, Rat.lt_iff]

/-- A folded root is the non-negative root. -/
theorem ratSqrt_spec {q r : ℚ} (h : ratSqrt q = some r) : 0 ≤ r ∧ q = r * r := by
  unfold ratSqrt at h
  simp only at h
  split at h
  · rename_i hq
    obtain ⟨hn, hd⟩ := hq
    injection h with h
    subst h
    rw [Rat.mkRat_eq_div]
    refine ⟨by positivity, ?_⟩
    conv_lhs => rw [← Rat.num_div_den q, hn, hd]
    push_cast
    rw [div_mul_div_comm]
  · simp at h

@[simp] theorem exactEval_add (ρ : Nat → ℝ) (x y : ExactReal) :
    exactEval ρ (exactAdd x y) = exactEval ρ x + exactEval ρ y := by
  unfold exactAdd
  split <;> (try split) <;> simp_all [exactEval, ratAdd_eq]

@[simp] theorem exactEval_neg (ρ : Nat → ℝ) (x : ExactReal) : exactEval ρ (exactNeg x) = - exactEval ρ x := by
  unfold exactNeg
  split <;> simp [exactEval, ratNeg_eq]

@[simp] theorem exactEval_sub (ρ : Nat → ℝ) (x y : ExactReal) :
    exactEval ρ (exactSub x y) = exactEval ρ x - exactEval ρ y := by
  unfold exactSub
  split <;> (try split) <;> simp_all [exactEval, ratAdd_eq, ratNeg_eq, sub_eq_add_neg]

@[simp] theorem exactEval_mul (ρ : Nat → ℝ) (x y : ExactReal) :
    exactEval ρ (exactMul x y) = exactEval ρ x * exactEval ρ y := by
  unfold exactMul
  split <;> (try split) <;> (try split) <;> simp_all [exactEval, ratMul_eq]

@[simp] theorem exactEval_sqrt (ρ : Nat → ℝ) (x : ExactReal) :
    exactEval ρ (exactSqrt x) = Real.sqrt (exactEval ρ x) := by
  unfold exactSqrt
  split
  · split
    · rename_i q r h
      obtain ⟨h0, h1⟩ := ratSqrt_spec h
      subst h1
      simp only [exactEval, Rat.cast_mul]
      rw [Real.sqrt_mul_self (by exact_mod_cast h0)]
    · rfl
  · rfl

@[simp] theorem exactEval_max (ρ : Nat → ℝ) (x y : ExactReal) :
    exactEval ρ (exactMax x y) = max (exactEval ρ x) (exactEval ρ y) := by
  unfold exactMax
  split
  · rename_i p q
    split
    · rename_i h
      rw [ratLt_iff] at h
      simp only [exactEval]
      rw [max_eq_right (by exact_mod_cast h.le)]
    · rename_i h
      rw [ratLt_iff, not_lt] at h
      simp only [exactEval]
      rw [max_eq_left (by exact_mod_cast h)]
  · rfl

@[simp] theorem exactEval_mag (ρ : Nat → ℝ) (x y : ExactReal) :
    exactEval ρ (exactMag x y) = Real.sqrt (exactEval ρ x * exactEval ρ x + exactEval ρ y * exactEval ρ y) := by
  simp [exactMag]

/-! ### Scalars of the IDEAL domain -/

@[simp] theorem scalarEval_exact (ρ : Nat → ℝ) (x : ExactReal) : scalarEval ρ (.exact x) = exactEval ρ x := rfl
@[simp] theorem scalarEval_zero (ρ : Nat → ℝ) : scalarEval ρ (scalarZero .ideal) = 0 := by simp [scalarZero, exactEval]
@[simp] theorem scalarEval_one (ρ : Nat → ℝ) : scalarEval ρ (scalarOne .ideal) = 1 := by simp [scalarOne, exactEval]
@[simp] theorem scalarEval_minusOne (ρ : Nat → ℝ) : scalarEval ρ (scalarMinusOne .ideal) = -1 := by
  simp [scalarMinusOne, exactEval]

/-! ### Lists and counters of the units -/

/-- One cycle more, then n. -/
theorem cyc_add_succ (cyc : BitVec 64) (n : Nat) : cyc + 1 + BitVec.ofNat 64 n = cyc + BitVec.ofNat 64 (n + 1) := by
  apply BitVec.eq_of_toNat_eq
  simp [BitVec.toNat_add]
  omega

/-- A counted map is the map, with one cycle per element. -/
theorem mapCounted_eq {α β : Type} (f : α → β) (l : List α) :
    ∀ cyc, mapCounted f l cyc = (l.map f, cyc + BitVec.ofNat 64 l.length) := by
  induction l with
  | nil => intro cyc; simp [mapCounted]
  | cons a l ih =>
    intro cyc
    simp only [mapCounted, ih, List.map_cons, List.length_cons, cyc_add_succ]

theorem length_evens {α : Type} : ∀ x : List α, (evens x).length = (x.length + 1) / 2
  | [] => by simp [evens]
  | [_] => by simp [evens]
  | _ :: _ :: t => by simp only [evens, List.length_cons, length_evens t]; omega

/-- The elements of `evens` are those at the even indices. -/
theorem getElem?_evens {α : Type} : ∀ (x : List α) (i : Nat), (evens x)[i]? = x[2 * i]?
  | [], i => by simp [evens]
  | [a], i => by cases i <;> simp [evens, Nat.mul_add]
  | a :: b :: t, i => by
    cases i with
    | zero => simp [evens]
    | succ i => simp [evens, Nat.mul_add, getElem?_evens t i]

theorem length_odds {α : Type} (x : List α) : (odds x).length = x.length / 2 := by
  cases x with
  | nil => simp [odds, evens]
  | cons a t => simp [odds, length_evens]

/-- The elements of `odds` are those at the odd indices. -/
theorem getElem?_odds {α : Type} (x : List α) (i : Nat) : (odds x)[i]? = x[2 * i + 1]? := by
  cases x with
  | nil => simp [odds, evens]
  | cons a t => simp [odds, getElem?_evens]

theorem combine_length (num : Numerics) (m : Nat) (e o : List Sample) (cyc : BitVec 64) :
    (combine num m e o cyc).1.length = 2 * m := by
  simp [combine, mapCounted_eq]

/-- The transform of a vector of length 2^L has length 2^L. -/
theorem length_pfft (num : Numerics) (l : Nat) (x : List Sample) (cyc : BitVec 64) (h : x.length = 2 ^ l) :
    (pfft num l x cyc).1.length = 2 ^ l := by
  cases l with
  | zero => simpa [pfft] using h
  | succ l => simp [pfft, combine_length, pow_succ, Nat.mul_comm]

/-- CORR element by element. -/
theorem corr_eq (x y : List Sample) (cyc : BitVec 64) :
    corr x y cyc = ((x.zip y).map fun p => cmul p.1 p.2, cyc + BitVec.ofNat 64 (min x.length y.length)) := by
  simp [corr, mapCounted_eq]

end Sys2Proof.Machine
end

