-- ==== Sys2Proof/Laws/State.lean ====
section
/-! SUPPORT. One lemma per field per update of the state, each true by definition. -/

namespace Sys2Proof.Machine

/-! ### State.setCell -/

@[simp] theorem State.setCell_cfg (s : State) (c : Nat) (k : Cell) : (s.setCell c k).cfg = s.cfg := rfl
@[simp] theorem State.setCell_phase (s : State) (c : Nat) (k : Cell) : (s.setCell c k).phase = s.phase := rfl
@[simp] theorem State.setCell_roundKind (s : State) (c : Nat) (k : Cell) : (s.setCell c k).roundKind = s.roundKind := rfl
@[simp] theorem State.setCell_retired0 (s : State) (c : Nat) (k : Cell) : (s.setCell c k).retired0 = s.retired0 := rfl
@[simp] theorem State.setCell_iter (s : State) (c : Nat) (k : Cell) : (s.setCell c k).iter = s.iter := rfl
@[simp] theorem State.setCell_active (s : State) (c : Nat) (k : Cell) : (s.setCell c k).active = s.active := rfl
@[simp] theorem State.setCell_cyc (s : State) (c : Nat) (k : Cell) : (s.setCell c k).cyc = s.cyc := rfl
@[simp] theorem State.setCell_resultCount (s : State) (c : Nat) (k : Cell) : (s.setCell c k).resultCount = s.resultCount := rfl
@[simp] theorem State.setCell_result (s : State) (c : Nat) (k : Cell) : (s.setCell c k).result = s.result := rfl
@[simp] theorem State.setCell_faultCause (s : State) (c : Nat) (k : Cell) : (s.setCell c k).faultCause = s.faultCause := rfl
@[simp] theorem State.setCell_faultCmd (s : State) (c : Nat) (k : Cell) : (s.setCell c k).faultCmd = s.faultCmd := rfl
@[simp] theorem State.setCell_faultInfo (s : State) (c : Nat) (k : Cell) : (s.setCell c k).faultInfo = s.faultInfo := rfl
@[simp] theorem State.setCell_cells (s : State) (c : Nat) (k : Cell) : (s.setCell c k).cells = s.cells.set c k := rfl
@[simp] theorem State.setCell_extq (s : State) (c : Nat) (k : Cell) : (s.setCell c k).extq = s.extq := rfl
@[simp] theorem State.setCell_port (s : State) (c : Nat) (k : Cell) : (s.setCell c k).port = s.port := rfl
@[simp] theorem State.setCell_operand (s : State) (c : Nat) (k : Cell) : (s.setCell c k).operand = s.operand := rfl
@[simp] theorem State.setCell_rsp (s : State) (c : Nat) (k : Cell) : (s.setCell c k).rsp = s.rsp := rfl

/-! ### State.setQueue -/

@[simp] theorem State.setQueue_cfg (s : State) (r c : Nat) (q : List Sample) : (s.setQueue r c q).cfg = s.cfg := rfl
@[simp] theorem State.setQueue_phase (s : State) (r c : Nat) (q : List Sample) : (s.setQueue r c q).phase = s.phase := rfl
@[simp] theorem State.setQueue_roundKind (s : State) (r c : Nat) (q : List Sample) : (s.setQueue r c q).roundKind = s.roundKind := rfl
@[simp] theorem State.setQueue_retired0 (s : State) (r c : Nat) (q : List Sample) : (s.setQueue r c q).retired0 = s.retired0 := rfl
@[simp] theorem State.setQueue_iter (s : State) (r c : Nat) (q : List Sample) : (s.setQueue r c q).iter = s.iter := rfl
@[simp] theorem State.setQueue_active (s : State) (r c : Nat) (q : List Sample) : (s.setQueue r c q).active = s.active := rfl
@[simp] theorem State.setQueue_cyc (s : State) (r c : Nat) (q : List Sample) : (s.setQueue r c q).cyc = s.cyc := rfl
@[simp] theorem State.setQueue_resultCount (s : State) (r c : Nat) (q : List Sample) : (s.setQueue r c q).resultCount = s.resultCount := rfl
@[simp] theorem State.setQueue_result (s : State) (r c : Nat) (q : List Sample) : (s.setQueue r c q).result = s.result := rfl
@[simp] theorem State.setQueue_faultCause (s : State) (r c : Nat) (q : List Sample) : (s.setQueue r c q).faultCause = s.faultCause := rfl
@[simp] theorem State.setQueue_faultCmd (s : State) (r c : Nat) (q : List Sample) : (s.setQueue r c q).faultCmd = s.faultCmd := rfl
@[simp] theorem State.setQueue_faultInfo (s : State) (r c : Nat) (q : List Sample) : (s.setQueue r c q).faultInfo = s.faultInfo := rfl
@[simp] theorem State.setQueue_cells (s : State) (r c : Nat) (q : List Sample) : (s.setQueue r c q).cells = s.cells := rfl
@[simp] theorem State.setQueue_extq (s : State) (r c : Nat) (q : List Sample) : (s.setQueue r c q).extq = s.extq.set r ((s.extq.getD r []).set c q) := rfl
@[simp] theorem State.setQueue_port (s : State) (r c : Nat) (q : List Sample) : (s.setQueue r c q).port = s.port := rfl
@[simp] theorem State.setQueue_operand (s : State) (r c : Nat) (q : List Sample) : (s.setQueue r c q).operand = s.operand := rfl
@[simp] theorem State.setQueue_rsp (s : State) (r c : Nat) (q : List Sample) : (s.setQueue r c q).rsp = s.rsp := rfl

/-! ### State.respondOk -/

@[simp] theorem State.respondOk_cfg (s : State) : (s.respondOk).cfg = s.cfg := rfl
@[simp] theorem State.respondOk_phase (s : State) : (s.respondOk).phase = s.phase := rfl
@[simp] theorem State.respondOk_roundKind (s : State) : (s.respondOk).roundKind = s.roundKind := rfl
@[simp] theorem State.respondOk_retired0 (s : State) : (s.respondOk).retired0 = s.retired0 := rfl
@[simp] theorem State.respondOk_iter (s : State) : (s.respondOk).iter = s.iter := rfl
@[simp] theorem State.respondOk_active (s : State) : (s.respondOk).active = s.active := rfl
@[simp] theorem State.respondOk_cyc (s : State) : (s.respondOk).cyc = s.cyc := rfl
@[simp] theorem State.respondOk_resultCount (s : State) : (s.respondOk).resultCount = s.resultCount := rfl
@[simp] theorem State.respondOk_result (s : State) : (s.respondOk).result = s.result := rfl
@[simp] theorem State.respondOk_faultCause (s : State) : (s.respondOk).faultCause = s.faultCause := rfl
@[simp] theorem State.respondOk_faultCmd (s : State) : (s.respondOk).faultCmd = s.faultCmd := rfl
@[simp] theorem State.respondOk_faultInfo (s : State) : (s.respondOk).faultInfo = s.faultInfo := rfl
@[simp] theorem State.respondOk_cells (s : State) : (s.respondOk).cells = s.cells := rfl
@[simp] theorem State.respondOk_extq (s : State) : (s.respondOk).extq = s.extq := rfl
@[simp] theorem State.respondOk_port (s : State) : (s.respondOk).port = s.port := rfl
@[simp] theorem State.respondOk_operand (s : State) : (s.respondOk).operand = s.operand := rfl
@[simp] theorem State.respondOk_rsp (s : State) : (s.respondOk).rsp = ⟨0, 0, sampleZero s.cfg.numerics⟩ := rfl

/-! ### State.respondWord -/

@[simp] theorem State.respondWord_cfg (s : State) (v : Word) : (s.respondWord v).cfg = s.cfg := rfl
@[simp] theorem State.respondWord_phase (s : State) (v : Word) : (s.respondWord v).phase = s.phase := rfl
@[simp] theorem State.respondWord_roundKind (s : State) (v : Word) : (s.respondWord v).roundKind = s.roundKind := rfl
@[simp] theorem State.respondWord_retired0 (s : State) (v : Word) : (s.respondWord v).retired0 = s.retired0 := rfl
@[simp] theorem State.respondWord_iter (s : State) (v : Word) : (s.respondWord v).iter = s.iter := rfl
@[simp] theorem State.respondWord_active (s : State) (v : Word) : (s.respondWord v).active = s.active := rfl
@[simp] theorem State.respondWord_cyc (s : State) (v : Word) : (s.respondWord v).cyc = s.cyc := rfl
@[simp] theorem State.respondWord_resultCount (s : State) (v : Word) : (s.respondWord v).resultCount = s.resultCount := rfl
@[simp] theorem State.respondWord_result (s : State) (v : Word) : (s.respondWord v).result = s.result := rfl
@[simp] theorem State.respondWord_faultCause (s : State) (v : Word) : (s.respondWord v).faultCause = s.faultCause := rfl
@[simp] theorem State.respondWord_faultCmd (s : State) (v : Word) : (s.respondWord v).faultCmd = s.faultCmd := rfl
@[simp] theorem State.respondWord_faultInfo (s : State) (v : Word) : (s.respondWord v).faultInfo = s.faultInfo := rfl
@[simp] theorem State.respondWord_cells (s : State) (v : Word) : (s.respondWord v).cells = s.cells := rfl
@[simp] theorem State.respondWord_extq (s : State) (v : Word) : (s.respondWord v).extq = s.extq := rfl
@[simp] theorem State.respondWord_port (s : State) (v : Word) : (s.respondWord v).port = s.port := rfl
@[simp] theorem State.respondWord_operand (s : State) (v : Word) : (s.respondWord v).operand = s.operand := rfl
@[simp] theorem State.respondWord_rsp (s : State) (v : Word) : (s.respondWord v).rsp = ⟨0, v, sampleZero s.cfg.numerics⟩ := rfl

/-! ### State.respondVal -/

@[simp] theorem State.respondVal_cfg (s : State) (z : Sample) : (s.respondVal z).cfg = s.cfg := rfl
@[simp] theorem State.respondVal_phase (s : State) (z : Sample) : (s.respondVal z).phase = s.phase := rfl
@[simp] theorem State.respondVal_roundKind (s : State) (z : Sample) : (s.respondVal z).roundKind = s.roundKind := rfl
@[simp] theorem State.respondVal_retired0 (s : State) (z : Sample) : (s.respondVal z).retired0 = s.retired0 := rfl
@[simp] theorem State.respondVal_iter (s : State) (z : Sample) : (s.respondVal z).iter = s.iter := rfl
@[simp] theorem State.respondVal_active (s : State) (z : Sample) : (s.respondVal z).active = s.active := rfl
@[simp] theorem State.respondVal_cyc (s : State) (z : Sample) : (s.respondVal z).cyc = s.cyc := rfl
@[simp] theorem State.respondVal_resultCount (s : State) (z : Sample) : (s.respondVal z).resultCount = s.resultCount := rfl
@[simp] theorem State.respondVal_result (s : State) (z : Sample) : (s.respondVal z).result = s.result := rfl
@[simp] theorem State.respondVal_faultCause (s : State) (z : Sample) : (s.respondVal z).faultCause = s.faultCause := rfl
@[simp] theorem State.respondVal_faultCmd (s : State) (z : Sample) : (s.respondVal z).faultCmd = s.faultCmd := rfl
@[simp] theorem State.respondVal_faultInfo (s : State) (z : Sample) : (s.respondVal z).faultInfo = s.faultInfo := rfl
@[simp] theorem State.respondVal_cells (s : State) (z : Sample) : (s.respondVal z).cells = s.cells := rfl
@[simp] theorem State.respondVal_extq (s : State) (z : Sample) : (s.respondVal z).extq = s.extq := rfl
@[simp] theorem State.respondVal_port (s : State) (z : Sample) : (s.respondVal z).port = s.port := rfl
@[simp] theorem State.respondVal_operand (s : State) (z : Sample) : (s.respondVal z).operand = s.operand := rfl
@[simp] theorem State.respondVal_rsp (s : State) (z : Sample) : (s.respondVal z).rsp = ⟨0, 0, z⟩ := rfl

/-! ### State.respondScalar -/

@[simp] theorem State.respondScalar_cfg (s : State) (x : Scalar) : (s.respondScalar x).cfg = s.cfg := rfl
@[simp] theorem State.respondScalar_phase (s : State) (x : Scalar) : (s.respondScalar x).phase = s.phase := rfl
@[simp] theorem State.respondScalar_roundKind (s : State) (x : Scalar) : (s.respondScalar x).roundKind = s.roundKind := rfl
@[simp] theorem State.respondScalar_retired0 (s : State) (x : Scalar) : (s.respondScalar x).retired0 = s.retired0 := rfl
@[simp] theorem State.respondScalar_iter (s : State) (x : Scalar) : (s.respondScalar x).iter = s.iter := rfl
@[simp] theorem State.respondScalar_active (s : State) (x : Scalar) : (s.respondScalar x).active = s.active := rfl
@[simp] theorem State.respondScalar_cyc (s : State) (x : Scalar) : (s.respondScalar x).cyc = s.cyc := rfl
@[simp] theorem State.respondScalar_resultCount (s : State) (x : Scalar) : (s.respondScalar x).resultCount = s.resultCount := rfl
@[simp] theorem State.respondScalar_result (s : State) (x : Scalar) : (s.respondScalar x).result = s.result := rfl
@[simp] theorem State.respondScalar_faultCause (s : State) (x : Scalar) : (s.respondScalar x).faultCause = s.faultCause := rfl
@[simp] theorem State.respondScalar_faultCmd (s : State) (x : Scalar) : (s.respondScalar x).faultCmd = s.faultCmd := rfl
@[simp] theorem State.respondScalar_faultInfo (s : State) (x : Scalar) : (s.respondScalar x).faultInfo = s.faultInfo := rfl
@[simp] theorem State.respondScalar_cells (s : State) (x : Scalar) : (s.respondScalar x).cells = s.cells := rfl
@[simp] theorem State.respondScalar_extq (s : State) (x : Scalar) : (s.respondScalar x).extq = s.extq := rfl
@[simp] theorem State.respondScalar_port (s : State) (x : Scalar) : (s.respondScalar x).port = s.port := rfl
@[simp] theorem State.respondScalar_operand (s : State) (x : Scalar) : (s.respondScalar x).operand = s.operand := rfl
@[simp] theorem State.respondScalar_rsp (s : State) (x : Scalar) : (s.respondScalar x).rsp = ⟨0, 0, ⟨x, scalarZero s.cfg.numerics⟩⟩ := rfl

/-! ### State.refuseFaulted -/

@[simp] theorem State.refuseFaulted_cfg (s : State) : (s.refuseFaulted).cfg = s.cfg := rfl
@[simp] theorem State.refuseFaulted_phase (s : State) : (s.refuseFaulted).phase = s.phase := rfl
@[simp] theorem State.refuseFaulted_roundKind (s : State) : (s.refuseFaulted).roundKind = s.roundKind := rfl
@[simp] theorem State.refuseFaulted_retired0 (s : State) : (s.refuseFaulted).retired0 = s.retired0 := rfl
@[simp] theorem State.refuseFaulted_iter (s : State) : (s.refuseFaulted).iter = s.iter := rfl
@[simp] theorem State.refuseFaulted_active (s : State) : (s.refuseFaulted).active = s.active := rfl
@[simp] theorem State.refuseFaulted_cyc (s : State) : (s.refuseFaulted).cyc = s.cyc := rfl
@[simp] theorem State.refuseFaulted_resultCount (s : State) : (s.refuseFaulted).resultCount = s.resultCount := rfl
@[simp] theorem State.refuseFaulted_result (s : State) : (s.refuseFaulted).result = s.result := rfl
@[simp] theorem State.refuseFaulted_faultCause (s : State) : (s.refuseFaulted).faultCause = s.faultCause := rfl
@[simp] theorem State.refuseFaulted_faultCmd (s : State) : (s.refuseFaulted).faultCmd = s.faultCmd := rfl
@[simp] theorem State.refuseFaulted_faultInfo (s : State) : (s.refuseFaulted).faultInfo = s.faultInfo := rfl
@[simp] theorem State.refuseFaulted_cells (s : State) : (s.refuseFaulted).cells = s.cells := rfl
@[simp] theorem State.refuseFaulted_extq (s : State) : (s.refuseFaulted).extq = s.extq := rfl
@[simp] theorem State.refuseFaulted_port (s : State) : (s.refuseFaulted).port = s.port := rfl
@[simp] theorem State.refuseFaulted_operand (s : State) : (s.refuseFaulted).operand = s.operand := rfl
@[simp] theorem State.refuseFaulted_rsp (s : State) : (s.refuseFaulted).rsp = ⟨Cause.faulted.code, 0, sampleZero s.cfg.numerics⟩ := rfl

/-! ### State.presentWord -/

@[simp] theorem State.presentWord_cfg (s : State) (nbits w : Nat) : (s.presentWord nbits w).cfg = s.cfg := rfl
@[simp] theorem State.presentWord_phase (s : State) (nbits w : Nat) : (s.presentWord nbits w).phase = s.phase := rfl
@[simp] theorem State.presentWord_roundKind (s : State) (nbits w : Nat) : (s.presentWord nbits w).roundKind = s.roundKind := rfl
@[simp] theorem State.presentWord_retired0 (s : State) (nbits w : Nat) : (s.presentWord nbits w).retired0 = s.retired0 := rfl
@[simp] theorem State.presentWord_iter (s : State) (nbits w : Nat) : (s.presentWord nbits w).iter = s.iter := rfl
@[simp] theorem State.presentWord_active (s : State) (nbits w : Nat) : (s.presentWord nbits w).active = s.active := rfl
@[simp] theorem State.presentWord_cyc (s : State) (nbits w : Nat) : (s.presentWord nbits w).cyc = s.cyc := rfl
@[simp] theorem State.presentWord_resultCount (s : State) (nbits w : Nat) : (s.presentWord nbits w).resultCount = s.resultCount := rfl
@[simp] theorem State.presentWord_result (s : State) (nbits w : Nat) : (s.presentWord nbits w).result = s.result := rfl
@[simp] theorem State.presentWord_faultCause (s : State) (nbits w : Nat) : (s.presentWord nbits w).faultCause = s.faultCause := rfl
@[simp] theorem State.presentWord_faultCmd (s : State) (nbits w : Nat) : (s.presentWord nbits w).faultCmd = s.faultCmd := rfl
@[simp] theorem State.presentWord_faultInfo (s : State) (nbits w : Nat) : (s.presentWord nbits w).faultInfo = s.faultInfo := rfl
@[simp] theorem State.presentWord_cells (s : State) (nbits w : Nat) : (s.presentWord nbits w).cells = s.cells := rfl
@[simp] theorem State.presentWord_extq (s : State) (nbits w : Nat) : (s.presentWord nbits w).extq = s.extq := rfl
@[simp] theorem State.presentWord_port (s : State) (nbits w : Nat) : (s.presentWord nbits w).port = .command (BitVec.ofNat 32 (w % 2 ^ nbits)) (sampleZero s.cfg.numerics) :: s.port := rfl
@[simp] theorem State.presentWord_operand (s : State) (nbits w : Nat) : (s.presentWord nbits w).operand = s.operand := rfl
@[simp] theorem State.presentWord_rsp (s : State) (nbits w : Nat) : (s.presentWord nbits w).rsp = s.rsp := rfl

/-! ### The reset event and the reset state -/

@[simp] theorem State.resetWith_cfg (cfg : Config) : (State.resetWith cfg).cfg = cfg := rfl
@[simp] theorem State.resetWith_phase (cfg : Config) : (State.resetWith cfg).phase = .connect := rfl
@[simp] theorem State.resetWith_roundKind (cfg : Config) : (State.resetWith cfg).roundKind = false := rfl
@[simp] theorem State.resetWith_retired0 (cfg : Config) : (State.resetWith cfg).retired0 = false := rfl
@[simp] theorem State.resetWith_iter (cfg : Config) : (State.resetWith cfg).iter = 0 := rfl
@[simp] theorem State.resetWith_active (cfg : Config) : (State.resetWith cfg).active = BitVec.ofNat 32 cfg.arraySize := rfl
@[simp] theorem State.resetWith_cyc (cfg : Config) : (State.resetWith cfg).cyc = 0 := rfl
@[simp] theorem State.resetWith_resultCount (cfg : Config) : (State.resetWith cfg).resultCount = 0 := rfl
@[simp] theorem State.resetWith_result (cfg : Config) : (State.resetWith cfg).result = List.replicate cfg.arraySize (alphaZero cfg.numerics) := rfl
@[simp] theorem State.resetWith_faultCause (cfg : Config) : (State.resetWith cfg).faultCause = 0 := rfl
@[simp] theorem State.resetWith_faultCmd (cfg : Config) : (State.resetWith cfg).faultCmd = 0 := rfl
@[simp] theorem State.resetWith_faultInfo (cfg : Config) : (State.resetWith cfg).faultInfo = 0 := rfl
@[simp] theorem State.resetWith_cells (cfg : Config) : (State.resetWith cfg).cells = List.replicate cfg.arraySize (Cell.reset cfg.numerics) := rfl
@[simp] theorem State.resetWith_extq (cfg : Config) : (State.resetWith cfg).extq = List.replicate cfg.numSignals (List.replicate cfg.arraySize []) := rfl
@[simp] theorem State.resetWith_port (cfg : Config) : (State.resetWith cfg).port = [] := rfl
@[simp] theorem State.resetWith_operand (cfg : Config) : (State.resetWith cfg).operand = sampleZero cfg.numerics := rfl
@[simp] theorem State.resetWith_rsp (cfg : Config) : (State.resetWith cfg).rsp = ⟨0, 0, sampleZero cfg.numerics⟩ := rfl

@[simp] theorem State.hostReset_port (s : State) : s.hostReset.port = s.port := rfl
@[simp] theorem State.hostReset_cfg (s : State) : s.hostReset.cfg = (State.resetWith s.cfg).cfg := rfl
@[simp] theorem State.hostReset_phase (s : State) : s.hostReset.phase = (State.resetWith s.cfg).phase := rfl
@[simp] theorem State.hostReset_roundKind (s : State) : s.hostReset.roundKind = (State.resetWith s.cfg).roundKind := rfl
@[simp] theorem State.hostReset_retired0 (s : State) : s.hostReset.retired0 = (State.resetWith s.cfg).retired0 := rfl
@[simp] theorem State.hostReset_iter (s : State) : s.hostReset.iter = (State.resetWith s.cfg).iter := rfl
@[simp] theorem State.hostReset_active (s : State) : s.hostReset.active = (State.resetWith s.cfg).active := rfl
@[simp] theorem State.hostReset_cyc (s : State) : s.hostReset.cyc = (State.resetWith s.cfg).cyc := rfl
@[simp] theorem State.hostReset_resultCount (s : State) : s.hostReset.resultCount = (State.resetWith s.cfg).resultCount := rfl
@[simp] theorem State.hostReset_result (s : State) : s.hostReset.result = (State.resetWith s.cfg).result := rfl
@[simp] theorem State.hostReset_faultCause (s : State) : s.hostReset.faultCause = (State.resetWith s.cfg).faultCause := rfl
@[simp] theorem State.hostReset_faultCmd (s : State) : s.hostReset.faultCmd = (State.resetWith s.cfg).faultCmd := rfl
@[simp] theorem State.hostReset_faultInfo (s : State) : s.hostReset.faultInfo = (State.resetWith s.cfg).faultInfo := rfl
@[simp] theorem State.hostReset_cells (s : State) : s.hostReset.cells = (State.resetWith s.cfg).cells := rfl
@[simp] theorem State.hostReset_extq (s : State) : s.hostReset.extq = (State.resetWith s.cfg).extq := rfl
@[simp] theorem State.hostReset_operand (s : State) : s.hostReset.operand = (State.resetWith s.cfg).operand := rfl
@[simp] theorem State.hostReset_rsp (s : State) : s.hostReset.rsp = (State.resetWith s.cfg).rsp := rfl

/-! ### State.raise: only the FAULT registers, PHASE and the response can change -/

@[simp] theorem State.raise_cfg (s : State) (w : Word) (f : Raised) : (s.raise w f).cfg = s.cfg := by
  unfold State.raise; split <;> rfl
@[simp] theorem State.raise_roundKind (s : State) (w : Word) (f : Raised) : (s.raise w f).roundKind = s.roundKind := by
  unfold State.raise; split <;> rfl
@[simp] theorem State.raise_retired0 (s : State) (w : Word) (f : Raised) : (s.raise w f).retired0 = s.retired0 := by
  unfold State.raise; split <;> rfl
@[simp] theorem State.raise_iter (s : State) (w : Word) (f : Raised) : (s.raise w f).iter = s.iter := by
  unfold State.raise; split <;> rfl
@[simp] theorem State.raise_active (s : State) (w : Word) (f : Raised) : (s.raise w f).active = s.active := by
  unfold State.raise; split <;> rfl
@[simp] theorem State.raise_cyc (s : State) (w : Word) (f : Raised) : (s.raise w f).cyc = s.cyc := by
  unfold State.raise; split <;> rfl
@[simp] theorem State.raise_resultCount (s : State) (w : Word) (f : Raised) : (s.raise w f).resultCount = s.resultCount := by
  unfold State.raise; split <;> rfl
@[simp] theorem State.raise_result (s : State) (w : Word) (f : Raised) : (s.raise w f).result = s.result := by
  unfold State.raise; split <;> rfl
@[simp] theorem State.raise_cells (s : State) (w : Word) (f : Raised) : (s.raise w f).cells = s.cells := by
  unfold State.raise; split <;> rfl
@[simp] theorem State.raise_extq (s : State) (w : Word) (f : Raised) : (s.raise w f).extq = s.extq := by
  unfold State.raise; split <;> rfl
@[simp] theorem State.raise_port (s : State) (w : Word) (f : Raised) : (s.raise w f).port = s.port := by
  unfold State.raise; split <;> rfl
@[simp] theorem State.raise_operand (s : State) (w : Word) (f : Raised) : (s.raise w f).operand = s.operand := by
  unfold State.raise; split <;> rfl
@[simp] theorem State.raise_phase (s : State) (w : Word) (f : Raised) : (s.raise w f).phase = .fault := by
  unfold State.raise; split <;> simp_all
@[simp] theorem State.raise_rsp (s : State) (w : Word) (f : Raised) :
    (s.raise w f).rsp = ⟨f.cause.code, 0, sampleZero s.cfg.numerics⟩ := rfl

/-- A fault outside P_FAULT writes the FAULT registers (`60_exceptions.md` R249). -/
theorem State.raise_of_running (s : State) (w : Word) (f : Raised) (h : s.phase ≠ .fault) :
    s.raise w f = { s with faultCause := f.cause.code, faultCmd := w, faultInfo := f.info, phase := .fault,
                           rsp := ⟨f.cause.code, 0, sampleZero s.cfg.numerics⟩ } := by
  unfold State.raise; rw [if_neg h]

/-- A fault in P_FAULT changes the response only (`60_exceptions.md` R249). -/
theorem State.raise_of_faulted (s : State) (w : Word) (f : Raised) (h : s.phase = .fault) :
    s.raise w f = { s with rsp := ⟨f.cause.code, 0, sampleZero s.cfg.numerics⟩ } := by
  unfold State.raise; rw [if_pos h]

end Sys2Proof.Machine
end

