-- ==== Sys2Proof/Laws/Ops.lean ====
section
/-! SUPPORT. For each shared operation, once, everything it can do. -/

namespace Sys2Proof.Machine

/-! ### FIFOs -/

theorem fifoPush_of_lt {cap : Nat} {f : List Sample} (v : Sample) (h : f.length < cap) : fifoPush cap f v = f ++ [v] := by
  unfold fifoPush; rw [if_neg (by omega)]

theorem fifoPush_of_full {cap : Nat} {f : List Sample} (v : Sample) (h : f.length = cap) :
    fifoPush cap f v = f.tail ++ [v] := by
  unfold fifoPush; rw [if_pos h]

/-- A push into a FIFO within its capacity leaves it within its capacity. -/
theorem length_fifoPush {cap : Nat} {f : List Sample} (v : Sample) (hc : 0 < cap) (h : f.length ≤ cap) :
    (fifoPush cap f v).length = min (f.length + 1) cap := by
  rcases Nat.lt_or_eq_of_le h with h | h
  · rw [fifoPush_of_lt v h]; simp; omega
  · rw [fifoPush_of_full v h]; simp; omega

/-- A push keeps the newest `cap` elements. -/
theorem fifoPush_eq_drop {cap : Nat} {f : List Sample} (v : Sample) (hc : 0 < cap) (h : f.length ≤ cap) :
    fifoPush cap f v = (f ++ [v]).drop (f.length + 1 - cap) := by
  rcases Nat.lt_or_eq_of_le h with h | h
  · rw [fifoPush_of_lt v h, Nat.sub_eq_zero_of_le (by omega), List.drop_zero]
  · rw [fifoPush_of_full v h]
    obtain _ | ⟨a, t⟩ := f
    · simp at h; omega
    · have : (a :: t).length + 1 - cap = 1 := by simp at h ⊢; omega
      rw [this]; simp

/-- Pushing a whole list, one element after the other, keeps the newest `cap` elements. -/
theorem foldl_fifoPush {cap : Nat} (hc : 0 < cap) (vs : List Sample) :
    ∀ f : List Sample, f.length ≤ cap →
      vs.foldl (fifoPush cap) f = (f ++ vs).drop (f.length + vs.length - cap) := by
  induction vs with
  | nil => intro f h; simp [Nat.sub_eq_zero_of_le h]
  | cons v vs ih =>
    intro f h
    have hl := length_fifoPush v hc h
    rw [List.foldl_cons, ih _ (by omega), fifoPush_eq_drop v hc h]
    simp only [List.length_drop, List.length_append, List.length_cons, List.length_nil]
    rw [← List.drop_append_of_le_length (by simp), List.drop_drop]
    simp only [List.append_assoc, List.singleton_append]
    congr 1
    omega

/-- Pushing as many elements as the capacity replaces the whole contents (`41_cell_ops.md` R163). -/
theorem foldl_fifoPush_full {cap : Nat} (hc : 0 < cap) {vs f : List Sample} (hf : f.length ≤ cap)
    (hv : vs.length = cap) : vs.foldl (fifoPush cap) f = vs := by
  rw [foldl_fifoPush hc vs f hf, hv]
  have : f.length + cap - cap = f.length := by omega
  rw [this, List.drop_left]

/-! ### The stores -/

theorem State.cell_eq_getElem {s : State} {c : Nat} (h : c < s.cells.length) : s.cell c = s.cells[c] := by
  simp [State.cell, List.getD, List.getElem?_eq_getElem h]

theorem State.cell_mem {s : State} {c : Nat} (h : c < s.cells.length) : s.cell c ∈ s.cells := by
  rw [State.cell_eq_getElem h]; exact List.getElem_mem h

/-- The cells a state reads are those of its list. -/
theorem State.cell_congr {s t : State} (hc : t.cells = s.cells) (hg : t.cfg = s.cfg) (c : Nat) : t.cell c = s.cell c := by
  simp [State.cell, hc, hg]

@[simp] theorem State.length_setCell (s : State) (c : Nat) (k : Cell) :
    (s.setCell c k).cells.length = s.cells.length := by simp

theorem State.cell_setCell_self {s : State} {c : Nat} (k : Cell) (h : c < s.cells.length) : (s.setCell c k).cell c = k := by
  simp [State.cell, List.getD, h]

theorem State.cell_setCell_ne {s : State} {c d : Nat} (k : Cell) (h : c ≠ d) : (s.setCell c k).cell d = s.cell d := by
  simp [State.cell, List.getD, List.getElem?_set_ne h]

theorem State.setCell_cell (s : State) (c : Nat) : s.setCell c (s.cell c) = s := by
  by_cases h : c < s.cells.length
  · simp [State.setCell, State.cell_eq_getElem h]
  · simp [State.setCell, List.set_eq_of_length_le (Nat.le_of_not_lt h)]

theorem State.queue_congr {s t : State} (h : t.extq = s.extq) (r c : Nat) : t.queue r c = s.queue r c := by
  simp [State.queue, h]

theorem State.queue_setQueue_self {s : State} {r c : Nat} (q : List Sample) (hr : r < s.extq.length)
    (hc : c < (s.extq.getD r []).length) : (s.setQueue r c q).queue r c = q := by
  simp only [State.queue, State.setQueue_extq, List.getD] at *
  simp [hr] at *
  simp [hc]

theorem State.queue_setQueue_ne {s : State} {r c r' c' : Nat} (q : List Sample) (h : (r, c) ≠ (r', c')) :
    (s.setQueue r c q).queue r' c' = s.queue r' c' := by
  by_cases hr : r = r'
  · subst hr
    have hc : c ≠ c' := fun e => h (by rw [e])
    by_cases hl : r < s.extq.length
    · simp [State.queue, List.getD, hl, List.getElem?_set_ne hc]
    · simp [State.queue, List.set_eq_of_length_le (Nat.le_of_not_lt hl)]
  · simp [State.queue, List.getD, List.getElem?_set_ne hr]

@[simp] theorem State.cell_setQueue (s : State) (r c d : Nat) (q : List Sample) :
    (s.setQueue r c q).cell d = s.cell d := rfl

@[simp] theorem State.queue_setCell (s : State) (c : Nat) (k : Cell) (r d : Nat) :
    (s.setCell c k).queue r d = s.queue r d := rfl

/-! ### Loops over the cells -/

/-- A property every iteration keeps is kept by the loop. -/
theorem forCells_induct {P : State → Prop} {f : Nat → State → State} {s : State}
    (hs : P s) (hf : ∀ c t, c < s.cfg.arraySize → P t → P (f c t)) : P (forCells f s) := by
  unfold forCells
  have : ∀ (l : List Nat) (t : State), (∀ c ∈ l, c < s.cfg.arraySize) → P t →
      P (l.foldl (fun t c => f c t) t) := by
    intro l
    induction l with
    | nil => intro t _ ht; exact ht
    | cons a l ih =>
      intro t hl ht
      exact ih _ (fun c hc => hl c (List.mem_cons_of_mem _ hc)) (hf a t (hl a List.mem_cons_self) ht)
  exact this _ s (fun c hc => List.mem_range.mp hc) hs

/-- A property of the number of iterations done, kept by the next iteration, holds of all of them when the loop ends. -/
theorem forCells_upto {P : Nat → State → Prop} {f : Nat → State → State} {s : State}
    (hs : P 0 s) (hf : ∀ c t, c < s.cfg.arraySize → P c t → P (c + 1) (f c t)) : P s.cfg.arraySize (forCells f s) := by
  unfold forCells
  have : ∀ m, m ≤ s.cfg.arraySize → P m ((List.range m).foldl (fun t c => f c t) s) := by
    intro m
    induction m with
    | zero => intro _; simpa using hs
    | succ m ih =>
      intro hm
      rw [List.range_succ, List.foldl_append]
      exact hf m _ (by omega) (ih (by omega))
  exact this _ (Nat.le_refl _)

/-- The lowest cell with a failing check, when there is one. -/
theorem firstCell_eq_some {s : State} {bad : Nat → Bool} {c : Nat} :
    firstCell s bad = some c ↔ c < s.cfg.arraySize ∧ bad c = true ∧ ∀ d < c, bad d = false := by
  unfold firstCell
  rw [List.find?_range_eq_some]
  simp only [Bool.not_eq_eq_eq_not, Bool.not_true, List.mem_range]
  constructor
  · rintro ⟨a, b, c⟩; exact ⟨b, a, c⟩
  · rintro ⟨a, b, c⟩; exact ⟨b, a, c⟩

/-- No cell fails the check. -/
theorem firstCell_eq_none {s : State} {bad : Nat → Bool} :
    firstCell s bad = none ↔ ∀ c < s.cfg.arraySize, bad c = false := by
  simp [firstCell, List.find?_eq_none]

/-! ### Stage-type commands -/

theorem stageCommand_of_faulted {w : Word} {body : State → StageResult} {s : State} (h : s.phase = .fault) :
    stageCommand w body s = s.refuseFaulted := by
  unfold stageCommand; rw [if_pos h]

theorem stageCommand_of_ok {w : Word} {body : State → StageResult} {s t : State} (h : s.phase ≠ .fault)
    (hb : body s = .ok t) : stageCommand w body s = t.respondOk := by
  unfold stageCommand; rw [if_neg h, hb]; rfl

theorem stageCommand_of_error {w : Word} {body : State → StageResult} {s t : State} {f : Raised} (h : s.phase ≠ .fault)
    (hb : body s = .error (t, f)) : stageCommand w body s = t.raise w f := by
  unfold stageCommand; rw [if_neg h, hb]; rfl

/-- A stage-type command refuses, completes its body, or takes the fault its body raised. -/
theorem stageCommand_cases (w : Word) (body : State → StageResult) (s : State) :
    (s.phase = .fault ∧ stageCommand w body s = s.refuseFaulted) ∨
    (s.phase ≠ .fault ∧ ∃ t, body s = .ok t ∧ stageCommand w body s = t.respondOk) ∨
    (s.phase ≠ .fault ∧ ∃ t f, body s = .error (t, f) ∧ stageCommand w body s = t.raise w f) := by
  by_cases h : s.phase = .fault
  · exact .inl ⟨h, stageCommand_of_faulted h⟩
  · rcases hb : body s with ⟨t, f⟩ | t
    · exact .inr (.inr ⟨h, t, f, rfl, stageCommand_of_error h hb⟩)
    · exact .inr (.inl ⟨h, t, rfl, stageCommand_of_ok h hb⟩)

/-! ### The command port -/

/-- Taking the next input off the port, case by case. -/
theorem State.accept_cases (s : State) :
    (s.port = [] ∧ s.accept = (.nothing, s)) ∨
    (∃ rest, s.port = .reset :: rest ∧ s.accept = (.reset, { s with port := rest })) ∨
    (∃ w d rest, s.port = .command w d :: rest ∧ d.inDomain s.cfg.numerics = true ∧
      s.accept = (.command w, { s with port := rest, operand := d })) ∨
    (∃ w d rest, s.port = .command w d :: rest ∧ d.inDomain s.cfg.numerics = false ∧
      s.accept = (.foreignOperand, s)) := by
  unfold State.accept
  rcases h : s.port with _ | ⟨_ | _, rest⟩
  · exact .inl ⟨rfl, rfl⟩
  · rename_i w d
    cases hd : d.inDomain s.cfg.numerics
    · exact .inr (.inr (.inr ⟨w, d, rest, rfl, hd, by simp [hd]⟩))
    · exact .inr (.inr (.inl ⟨w, d, rest, rfl, hd, by simp [hd]⟩))
  · exact .inr (.inl ⟨rest, rfl, rfl⟩)

end Sys2Proof.Machine
end

