-- ==== Sys2Proof/Laws/CellOps.lean ====
section
/-! SUPPORT. What each cell operation does, once. -/

namespace Sys2Proof.Machine

open Sys2Proof.Safety (zeroFilled)

theorem length_zeroFilled (num : Numerics) (j : Nat) (q : List Sample) : (zeroFilled num j q).length = j := by
  simp [zeroFilled]; omega

theorem zeroFilled_succ (num : Numerics) (j : Nat) (q : List Sample) :
    zeroFilled num (j + 1) q = q.headD (sampleZero num) :: zeroFilled num j q.tail := by
  cases q with
  | nil => simp [zeroFilled, List.replicate_succ]
  | cons a q => simp [zeroFilled]

/-- What `j` slots of an external read do. -/
theorem readSlots_eq (num : Numerics) (n : Nat) (j : Nat) :
    ∀ p : ReadPort, readSlots num n j p =
      { queue := p.queue.drop j
        raw := (zeroFilled num j p.queue).foldl (fifoPush n) p.raw
        conj := ((zeroFilled num j p.queue).map conj).foldl (fifoPush n) p.conj
        cyc := p.cyc + BitVec.ofNat 64 j } := by
  induction j with
  | zero => intro p; simp [readSlots, zeroFilled]
  | succ j ih =>
    intro p
    rw [readSlots, ih, zeroFilled_succ]
    simp only [readSlot, List.map_cons, List.foldl_cons, List.drop_tail, cyc_add_succ]

/-- What `j` slots of a predecessor read do when the predecessor holds enough samples. -/
theorem moveSlots_eq (n : Nat) (j : Nat) :
    ∀ (sh raw : List Sample), j ≤ sh.length →
      moveSlots n j sh raw = (sh.drop j, (sh.take j).foldl (fifoPush n) raw) := by
  induction j with
  | zero => intro sh raw _; simp [moveSlots]
  | succ j ih =>
    intro sh raw h
    cases sh with
    | nil => simp at h
    | cons v sh => rw [moveSlots, ih _ _ (by simpa using h)]; simp

/-- What draining RAW does. -/
theorem drainRaw_eq (n : Nat) (raw : List Sample) :
    ∀ (sh : List Sample) (cyc : BitVec 64),
      drainRaw n raw sh cyc = (raw.foldl (fifoPush n) sh, cyc + BitVec.ofNat 64 raw.length) := by
  induction raw with
  | nil => intro sh cyc; simp [drainRaw]
  | cons v raw ih =>
    intro sh cyc
    rw [drainRaw, ih]
    simp only [List.foldl_cons, List.length_cons, cyc_add_succ]

/-- A loop whose iteration c rewrites cell c alone, from that cell's contents, rewrites every cell. -/
theorem forCells_setCell {f : Nat → State → State} {g : Nat → Cell → Cell} {s : State}
    (hlen : s.cells.length = s.cfg.arraySize)
    (hf : ∀ c t, t.cfg = s.cfg → c < t.cells.length → f c t = t.setCell c (g c (t.cell c))) :
    forCells f s = { s with cells := s.cells.mapIdx g } := by
  have key : ∀ m, m ≤ s.cfg.arraySize → (List.range m).foldl (fun t c => f c t) s =
      { s with cells := s.cells.mapIdx fun c k => if c < m then g c k else k } := by
    intro m
    induction m with
    | zero =>
      intro _
      have : (s.cells.mapIdx fun c k => if c < 0 then g c k else k) = s.cells := by
        apply List.ext_getElem <;> simp
      rw [this]; rfl
    | succ m ih =>
      intro hm
      have hlm : m < s.cells.length := by omega
      rw [List.range_succ, List.foldl_append, ih (by omega), List.foldl_cons, List.foldl_nil,
        hf m { s with cells := s.cells.mapIdx fun c k => if c < m then g c k else k } rfl (by simpa using hlm)]
      simp only [State.setCell]
      congr 1
      apply List.ext_getElem
      · simp
      · intro i h1 h2
        rcases Nat.lt_trichotomy i m with hi | hi | hi
        · rw [List.getElem_set_ne (by omega)]; simp [hi]; omega
        · subst hi; simp [State.cell, List.getD, hlm]
        · rw [List.getElem_set_ne (by omega)]
          simp [show ¬ i < m by omega]; omega
  unfold forCells
  rw [key _ (Nat.le_refl _)]
  congr 1
  apply List.ext_getElem
  · simp
  · intro i h1 h2
    have : i < s.cfg.arraySize := by simp at h1; omega
    simp [this]

/-- connect on one cell, load branch or shift branch (`41_cell_ops.md` R142, R143). -/
def connectedCell (cfg : Config) (load : Bool) (c : Nat) (k : Cell) : Cell :=
  if load then connectLoad cfg.cellSize k else if c = 0 then k else { k with src := .pred }

theorem connectCell_eq (load : Bool) (c : Nat) (s : State) :
    connectCell load c s = s.setCell c (connectedCell s.cfg load c (s.cell c)) := by
  unfold connectCell connectedCell
  split
  · rfl
  · split
    · exact (State.setCell_cell s c).symm
    · rfl

/-- CONNECT's loop over the cells. -/
theorem forCells_connect (load : Bool) (s : State) (hlen : s.cells.length = s.cfg.arraySize) :
    forCells (connectCell load) s = { s with cells := s.cells.mapIdx (connectedCell s.cfg load) } :=
  forCells_setCell hlen fun c t ht _ => by rw [connectCell_eq, ht]

end Sys2Proof.Machine
end

