-- ==== Sys2Proof/Laws/PerInstr.lean ====
section
/-! SUPPORT. Laws of the commands as syntax, one lemma per constructor of Instr. -/

namespace Sys2Proof.Laws.EncodeRow

/-- The word of a command is selected by the row of the opcode map that bears the command's mnemonic (`30_encoding.md`
R94). -/
def Statement (i : Instr) : Prop := ∃ r ∈ opcodeMap, r.mnemonic = i.mnemonic ∧ r.selects (encode i) = true

theorem nop : Statement .nop := by unfold Statement; decide
theorem connect : Statement .connect := by unfold Statement; decide
theorem read : Statement .read := by unfold Statement; decide
theorem compute : Statement .compute := by unfold Statement; decide
theorem shift : Statement .shift := by unfold Statement; decide
theorem round : Statement .round := by unfold Statement; decide
theorem finalize : Statement .finalize := by unfold Statement; decide

/-- A row selects a word when they agree at every bit position that the mask names. -/
theorem selects_of_bits {r : OpcodeRow} {w : Word}
    (h : ∀ i : Fin 32, (w.getLsbD i && r.mask.getLsbD i) = r.pattern.getLsbD i) : r.selects w = true := by
  unfold OpcodeRow.selects
  rw [beq_iff_eq]
  apply BitVec.eq_of_getLsbD_eq
  intro i hi
  rw [BitVec.getLsbD_and]
  exact h ⟨i, hi⟩

theorem qpush (s c : BitVec 8) : Statement (.qpush s c) :=
  ⟨⟨"QPUSH", 0x01000000#32, 0xFF0000FF#32⟩, by decide, rfl, selects_of_bits (by
    intro b
    show ((0x01#8 ++ (s ++ (c ++ 0#8))).getLsbD b && _) = _
    simp only [BitVec.getLsbD_append]
    fin_cases b <;> simp)⟩

theorem run (t : BitVec 16) : Statement (.run t) :=
  ⟨⟨"RUN", 0x07000000#32, 0xFFFF0000#32⟩, by decide, rfl, selects_of_bits (by
    intro b
    show ((0x07#8 ++ (0#8 ++ t)).getLsbD b && _) = _
    simp only [BitVec.getLsbD_append]
    fin_cases b <;> simp)⟩

theorem rdreg (r : BitVec 8) : Statement (.rdreg r) :=
  ⟨⟨"RDREG", 0x09000000#32, 0xFFFFFF00#32⟩, by decide, rfl, selects_of_bits (by
    intro b
    show ((0x09#8 ++ (0#16 ++ r)).getLsbD b && _) = _
    simp only [BitVec.getLsbD_append]
    fin_cases b <;> simp)⟩

theorem rdres (k : BitVec 8) (j : BitVec 3) : Statement (.rdres k j) :=
  ⟨⟨"RDRES", 0x0A000000#32, 0xFF00FFF8#32⟩, by decide, rfl, selects_of_bits (by
    intro b
    show ((0x0A#8 ++ (k ++ (0#13 ++ j))).getLsbD b && _) = _
    simp only [BitVec.getLsbD_append]
    fin_cases b <;> simp)⟩

theorem rdalpha (c : BitVec 8) (sel : BitVec 1) (j : BitVec 3) : Statement (.rdalpha c sel j) :=
  ⟨⟨"RDALPHA", 0x0B000000#32, 0xFF00FEF8#32⟩, by decide, rfl, selects_of_bits (by
    intro b
    show ((0x0B#8 ++ (c ++ (0#7 ++ (sel ++ (0#5 ++ j))))).getLsbD b && _) = _
    simp only [BitVec.getLsbD_append]
    fin_cases b <;> simp)⟩

theorem rdcell (c sel : BitVec 8) : Statement (.rdcell c sel) :=
  ⟨⟨"RDCELL", 0x0C000000#32, 0xFF00FF00#32⟩, by decide, rfl, selects_of_bits (by
    intro b
    show ((0x0C#8 ++ (c ++ (0#8 ++ sel))).getLsbD b && _) = _
    simp only [BitVec.getLsbD_append]
    fin_cases b <;> simp)⟩

theorem rdqlen (s c : BitVec 8) : Statement (.rdqlen s c) :=
  ⟨⟨"RDQLEN", 0x0D000000#32, 0xFF0000FF#32⟩, by decide, rfl, selects_of_bits (by
    intro b
    show ((0x0D#8 ++ (s ++ (c ++ 0#8))).getLsbD b && _) = _
    simp only [BitVec.getLsbD_append]
    fin_cases b <;> simp)⟩

theorem rdraw (c : BitVec 8) (i : BitVec 16) : Statement (.rdraw c i) :=
  ⟨⟨"RDRAW", 0x10000000#32, 0xFF000000#32⟩, by decide, rfl, selects_of_bits (by
    intro b
    show ((0x10#8 ++ (c ++ i)).getLsbD b && _) = _
    simp only [BitVec.getLsbD_append]
    fin_cases b <;> simp)⟩

theorem rdconj (c : BitVec 8) (i : BitVec 16) : Statement (.rdconj c i) :=
  ⟨⟨"RDCONJ", 0x11000000#32, 0xFF000000#32⟩, by decide, rfl, selects_of_bits (by
    intro b
    show ((0x11#8 ++ (c ++ i)).getLsbD b && _) = _
    simp only [BitVec.getLsbD_append]
    fin_cases b <;> simp)⟩

theorem rdshift (c : BitVec 8) (i : BitVec 16) : Statement (.rdshift c i) :=
  ⟨⟨"RDSHIFT", 0x12000000#32, 0xFF000000#32⟩, by decide, rfl, selects_of_bits (by
    intro b
    show ((0x12#8 ++ (c ++ i)).getLsbD b && _) = _
    simp only [BitVec.getLsbD_append]
    fin_cases b <;> simp)⟩

end Sys2Proof.Laws.EncodeRow
end

