-- ==== Sys2Proof/Laws/Stages.lean ====
section
/-! SUPPORT. What the loops of the stage commands do to every cell, once, and what a stage body can answer. -/

namespace Sys2Proof.Machine

open Sys2Proof.Safety (zeroFilled readBlock)

theorem cellSize_pos (cfg : Config) : 0 < cfg.cellSize := Nat.two_pow_pos _

/-- No FIFO of a cell holds more than its capacity. -/
abbrev CellBounds (s : State) : Prop :=
  ∀ k ∈ s.cells, k.raw.length ≤ s.cfg.cellSize ∧ k.conj.length ≤ s.cfg.cellSize ∧ k.shift.length ≤ s.cfg.cellSize

/-! ### READ -/

/-- An external read within the capacities: the block replaces RAW, its conjugates replace CONJ. -/
theorem readExternal_eq {r c : Nat} {s : State} (hraw : (s.cell c).raw.length ≤ s.cfg.cellSize)
    (hconj : (s.cell c).conj.length ≤ s.cfg.cellSize) :
    readExternal r c s =
      { (s.setQueue r c ((s.queue r c).drop s.cfg.cellSize)).setCell c
          { s.cell c with
            raw := zeroFilled s.cfg.numerics s.cfg.cellSize (s.queue r c)
            conj := (zeroFilled s.cfg.numerics s.cfg.cellSize (s.queue r c)).map conj } with
        cyc := s.cyc + BitVec.ofNat 64 s.cfg.cellSize } := by
  have hn := cellSize_pos s.cfg
  unfold readExternal
  simp only [readSlots_eq]
  rw [foldl_fifoPush_full hn hraw (length_zeroFilled _ _ _),
    foldl_fifoPush_full hn hconj (by rw [List.length_map, length_zeroFilled])]

/-- A predecessor read within the capacities: the predecessor's whole SHIFT becomes RAW. -/
theorem readPredecessor_eq {c : Nat} {s : State} (hraw : (s.cell c).raw.length ≤ s.cfg.cellSize)
    (hshift : (s.cell (c - 1)).shift.length = s.cfg.cellSize) :
    readPredecessor c s =
      (s.setCell (c - 1) { s.cell (c - 1) with shift := [] }).setCell c
        { s.cell c with raw := (s.cell (c - 1)).shift } := by
  have hn := cellSize_pos s.cfg
  unfold readPredecessor
  rw [moveSlots_eq _ _ _ _ (Nat.le_of_eq hshift.symm)]
  simp only
  rw [List.take_of_length_le (Nat.le_of_eq hshift), List.drop_eq_nil_of_le (Nat.le_of_eq hshift),
    foldl_fifoPush_full hn hraw hshift]

/-- The cells below `m` that read externally. -/
def externalReads (s : State) (m : Nat) : Nat := ((List.range m).filter fun c => (s.cell c).src != .pred).length

theorem externalReads_succ (s : State) (m : Nat) :
    externalReads s (m + 1) = externalReads s m + if (s.cell m).src = .pred then 0 else 1 := by
  unfold externalReads
  rw [List.range_succ, List.filter_append, List.length_append]
  by_cases h : (s.cell m).src = .pred <;> simp [h]

/-- A state that differs from another in the cells, the queues and CYC at most. -/
def StoresOf (s t : State) : Prop := t = { s with cells := t.cells, extq := t.extq, cyc := t.cyc }

theorem StoresOf.refl (s : State) : StoresOf s s := rfl

theorem StoresOf.trans {s t u : State} (h1 : StoresOf s t) (h2 : StoresOf t u) : StoresOf s u := by
  cases s; cases t; cases u
  simp only [StoresOf, State.mk.injEq, true_and] at *
  obtain ⟨a1, a2, a3, a4, a5, a6, a7, a8, a9, a10, a11, a12, a13, a14⟩ := h1
  subst_vars
  exact h2

theorem StoresOf.cfg {s t : State} (h : StoresOf s t) : t.cfg = s.cfg := by rw [h]

/-- What holds after the first `m` iterations of READ. -/
structure ReadDone (s : State) (m : Nat) (t : State) : Prop where
  rest : StoresOf s t
  shape : Safety.Shape t
  cyc : t.cyc = s.cyc + BitVec.ofNat 64 (s.cfg.cellSize * externalReads s m)
  cell : ∀ c < s.cfg.arraySize, t.cell c = { s.cell c with
    raw := if c < m then readBlock s c else (s.cell c).raw
    conj := if c < m ∧ (s.cell c).src ≠ .pred then (readBlock s c).map conj else (s.cell c).conj
    shift := if c + 1 < m ∧ (s.cell (c + 1)).src = .pred then [] else (s.cell c).shift }
  queue : ∀ r < s.cfg.numSignals, ∀ c < s.cfg.arraySize,
    t.queue r c = if c < m ∧ (s.cell c).src = .ext r then (s.queue r c).drop s.cfg.cellSize else s.queue r c

/-- Updating one cell keeps the shape. -/
theorem shape_setCell {s : State} (c : Nat) (k : Cell) (h : Safety.Shape s) : Safety.Shape (s.setCell c k) := by
  obtain ⟨h1, h2, h3, h4⟩ := h
  exact ⟨by simpa using h1, h2, h3, h4⟩

/-- Updating one queue keeps the shape. -/
theorem shape_setQueue {s : State} (r c : Nat) (q : List Sample) (h : Safety.Shape s) :
    Safety.Shape (s.setQueue r c q) := by
  obtain ⟨h1, h2, h3, h4⟩ := h
  refine ⟨h1, h2, by simpa using h3, ?_⟩
  intro row hrow
  by_cases hr : r < s.extq.length
  · rcases List.mem_or_eq_of_mem_set (by simpa using hrow) with h | h
    · exact h4 _ h
    · subst h
      simpa [List.getD, hr] using h4 _ (List.getElem_mem hr)
  · rw [State.setQueue_extq, List.set_eq_of_length_le (by omega)] at hrow
    exact h4 _ hrow

/-- The row of a queue that exists has a queue per cell. -/
theorem Safety.Shape.row {s : State} (h : Safety.Shape s) {r : Nat} (hr : r < s.cfg.numSignals) :
    r < s.extq.length ∧ (s.extq.getD r []).length = s.cfg.arraySize := by
  obtain ⟨h1, h2, h3, h4⟩ := h
  have hr' : r < s.extq.length := by omega
  exact ⟨hr', by simpa [List.getD, hr'] using h4 _ (List.getElem_mem hr')⟩

/-- The loop of READ, when every cell has a source and every predecessor source holds its block. -/
theorem forCells_read {s : State} (hs : Safety.Shape s) (hb : CellBounds s)
    (hsrc : ∀ c < s.cfg.arraySize, (∃ r < s.cfg.numSignals, (s.cell c).src = .ext r) ∨
      (c ≠ 0 ∧ (s.cell c).src = .pred ∧ s.cfg.cellSize ≤ (s.cell (c - 1)).shift.length)) :
    ReadDone s s.cfg.arraySize (forCells readCell s) := by
  apply forCells_upto (P := ReadDone s)
  · refine ⟨StoresOf.refl s, hs, by simp [externalReads], fun c _ => by simp, fun r _ c _ => by simp⟩
  · intro m t hm ht
    have hcl := hs.1
    have hcfg := ht.rest.cfg
    obtain ⟨b1, b2, b3⟩ := hb _ (State.cell_mem (s := s) (c := m) (by omega))
    have htm := ht.cell m hm
    simp only [Nat.lt_irrefl, false_and, if_false, show ¬ m + 1 < m by omega] at htm
    have htlen : t.cells.length = s.cfg.arraySize := by rw [ht.shape.1, hcfg]
    unfold readCell
    rcases hsrc m hm with ⟨r, hr, he⟩ | ⟨h0, hp, hl⟩
    · rw [htm, he]
      simp only
      have hq : t.queue r m = s.queue r m := by rw [ht.queue r hr m hm]; simp
      rw [readExternal_eq (by rw [htm, hcfg]; exact b1) (by rw [htm, hcfg]; exact b2), htm, hcfg, hq]
      have hblock : readBlock s m = zeroFilled s.cfg.numerics s.cfg.cellSize (s.queue r m) := by
        simp [readBlock, he]
      rw [← hblock]
      refine ⟨ht.rest.trans rfl, shape_setCell _ _ (shape_setQueue _ _ _ ht.shape), ?_, ?_, ?_⟩
      · simp only [ht.cyc, externalReads_succ, he]
        rw [BitVec.add_assoc, ← BitVec.ofNat_add]
        simp [Nat.mul_add]
      · intro c hc
        show (State.setCell _ m _).cell c = _
        by_cases hcm : c = m
        · subst hcm
          rw [State.cell_setCell_self _ (by simpa [htlen] using hc)]
          simp [he]
        · rw [State.cell_setCell_ne _ (Ne.symm hcm), State.cell_setQueue, ht.cell c hc]
          have h1 : (c < m + 1) = (c < m) := by simp; omega
          have h2 : (c + 1 < m + 1 ∧ (s.cell (c + 1)).src = .pred) = (c + 1 < m ∧ (s.cell (c + 1)).src = .pred) := by
            simp only [eq_iff_iff]
            constructor
            · rintro ⟨a, b⟩
              refine ⟨?_, b⟩
              rcases Nat.lt_or_ge (c + 1) m with h | h
              · exact h
              · have : c + 1 = m := by omega
                rw [this, he] at b; exact absurd b (by simp)
            · rintro ⟨a, b⟩; exact ⟨by omega, b⟩
          simp only [h1, h2]
      · intro r' hr' c hc
        show (State.setQueue t r m _).queue r' c = _
        have hrow := Safety.Shape.row ht.shape (by rw [hcfg]; exact hr)
        by_cases hrc : (r, m) = (r', c)
        · injection hrc with e1 e2
          subst e1 e2
          rw [State.queue_setQueue_self _ hrow.1 (by rw [hrow.2, hcfg]; exact hc)]
          simp [he]
        · rw [State.queue_setQueue_ne _ hrc, ht.queue r' hr' c hc]
          have : (c < m + 1 ∧ (s.cell c).src = .ext r') = (c < m ∧ (s.cell c).src = .ext r') := by
            simp only [eq_iff_iff]
            constructor
            · rintro ⟨a, b⟩
              refine ⟨?_, b⟩
              rcases Nat.lt_or_ge c m with h | h
              · exact h
              · have : c = m := by omega
                subst this
                rw [he] at b; injection b with b; exact absurd (by rw [b]) hrc
            · rintro ⟨a, b⟩; exact ⟨by omega, b⟩
          simp only [this]
    · rw [htm, hp]
      simp only [if_neg h0]
      obtain ⟨k, rfl⟩ : ∃ k, m = k + 1 := ⟨m - 1, by omega⟩
      simp only [Nat.add_sub_cancel] at hl ⊢
      have hk : k < s.cfg.arraySize := by omega
      have htk := ht.cell k hk
      simp only [show k < k + 1 by omega, show ¬ k + 1 < k + 1 by omega, false_and, if_false, true_and, if_true] at htk
      obtain ⟨-, -, b6⟩ := hb _ (State.cell_mem (s := s) (c := k) (by omega))
      have hsh : (s.cell k).shift.length = s.cfg.cellSize := by omega
      rw [readPredecessor_eq (by rw [htm, hcfg]; exact b1) (by simp only [Nat.add_sub_cancel, htk, hcfg]; exact hsh)]
      simp only [Nat.add_sub_cancel]
      have hblock : readBlock s (k + 1) = (s.cell k).shift := by
        simp [readBlock, hp, List.take_of_length_le (Nat.le_of_eq hsh)]
      rw [htm, htk]
      simp only
      rw [← hblock]
      refine ⟨ht.rest.trans rfl, shape_setCell _ _ (shape_setCell _ _ ht.shape), ?_, ?_, ?_⟩
      · simp [ht.cyc, externalReads_succ, hp]
      · intro c hc
        by_cases hcm : c = k + 1
        · subst hcm
          rw [State.cell_setCell_self _ (by simpa [htlen] using hc)]
          simp [hp]
        · rw [State.cell_setCell_ne _ (Ne.symm hcm)]
          by_cases hck : c = k
          · subst hck
            rw [State.cell_setCell_self _ (by simpa [htlen] using hc)]
            simp [hp]
          · rw [State.cell_setCell_ne _ (Ne.symm hck), ht.cell c hc]
            have h1 : (c < k + 1 + 1) = (c < k + 1) := by simp; omega
            have h2 : (c + 1 < k + 1 + 1) = (c + 1 < k + 1) := by simp; omega
            simp only [h1, h2]
      · intro r' hr' c hc
        rw [State.queue_setCell, State.queue_setCell, ht.queue r' hr' c hc]
        have : (c < k + 1 + 1 ∧ (s.cell c).src = .ext r') = (c < k + 1 ∧ (s.cell c).src = .ext r') := by
          simp only [eq_iff_iff]
          constructor
          · rintro ⟨a, b⟩
            refine ⟨?_, b⟩
            rcases Nat.lt_or_ge c (k + 1) with h | h
            · exact h
            · have : c = k + 1 := by omega
              rw [this, hp] at b; exact absurd b (by simp)
          · rintro ⟨a, b⟩; exact ⟨by omega, b⟩
        simp only [this]

/-! ### COMPUTE -/

/-- The values a transform gives do not depend on the cycle counter. -/
theorem pfft_fst (num : Numerics) (l : Nat) :
    ∀ (x : List Sample) (cyc cyc' : BitVec 64), (pfft num l x cyc).1 = (pfft num l x cyc').1 := by
  induction l with
  | zero => intro x cyc cyc'; rfl
  | succ l ih =>
    intro x cyc cyc'
    simp only [pfft, combine, mapCounted_eq]
    rw [ih (evens x) cyc cyc', ih (odds x) _ 0, ih (odds x) (pfft num l (evens x) cyc').2 0]

/-- The spectrum of a cell does not depend on the cycle counter. -/
theorem cellSpectrum_fst (cfg : Config) (k : Cell) (cyc cyc' : BitVec 64) :
    (cellSpectrum cfg k cyc).1 = (cellSpectrum cfg k cyc').1 := by
  simp only [cellSpectrum, spectrum, corr_eq]
  rw [pfft_fst _ _ _ _ (cyc' + BitVec.ofNat 64 (min k.raw.length k.conj.length))]

/-- The spectrum of a cell is that of the transform of CORR(RAW, CONJ). -/
theorem cellSpectrum_eq (cfg : Config) (k : Cell) (cyc : BitVec 64) :
    (cellSpectrum cfg k cyc).1 =
      (spectrum cfg.numerics (pfft cfg.numerics cfg.log2CellSize (corr k.raw k.conj 0).1 0).1 0).1 := by
  rw [cellSpectrum_fst cfg k cyc 0]
  simp only [cellSpectrum, spectrum]
  rw [pfft_fst _ _ _ _ 0]

/-- The even-indexed half of a vector of even length. -/
theorem everySecond_zero (num : Numerics) {m : Nat} {x : List Sample} (h : x.length = 2 * m) :
    Safety.everySecond num m 0 x = evens x := by
  apply List.ext_getElem?
  intro i
  rw [getElem?_evens]
  simp only [Safety.everySecond, List.getElem?_map]
  by_cases hi : i < m
  · have : 2 * i < x.length := by omega
    simp [List.getElem?_range hi, List.getD, List.getElem?_eq_getElem this]
  · rw [List.getElem?_eq_none (by simpa using hi), List.getElem?_eq_none (l := x) (by omega)]; rfl

/-- The odd-indexed half of a vector of even length. -/
theorem everySecond_one (num : Numerics) {m : Nat} {x : List Sample} (h : x.length = 2 * m) :
    Safety.everySecond num m 1 x = odds x := by
  apply List.ext_getElem?
  intro i
  rw [getElem?_odds]
  simp only [Safety.everySecond, List.getElem?_map]
  by_cases hi : i < m
  · have : 2 * i + 1 < x.length := by omega
    simp [List.getElem?_range hi, List.getD, List.getElem?_eq_getElem this]
  · rw [List.getElem?_eq_none (by simpa using hi), List.getElem?_eq_none (l := x) (by omega)]; rfl

/-- The cell a merge step leaves does not depend on the cycle counter. -/
theorem mergeStep_fst (first last : Bool) (sp : Spectrum) (pred : Alpha) (k : Cell) (cyc cyc' : BitVec 64) :
    (mergeStep first last sp pred k cyc).1 = (mergeStep first last sp pred k cyc').1 := by
  unfold mergeStep
  split
  · rfl
  · split <;> rfl

/-- Cell c after its compute in state s with the predecessor alpha `pred`. -/
def computedCell (s : State) (c : Nat) (pred : Alpha) : Cell :=
  (mergeStep (s.iter == 0) (isLast s c) (cellSpectrum s.cfg (s.cell c) 0).1 pred (s.cell c) 0).1

/-- compute writes the alpha registers of its cell and nothing else of it. -/
theorem computedCell_eq (s : State) (c : Nat) (pred : Alpha) :
    computedCell s c pred = { s.cell c with
      alpha := (computedCell s c pred).alpha, alphaTop := (computedCell s c pred).alphaTop } := by
  unfold computedCell mergeStep
  split
  · rfl
  · split <;> rfl

theorem computeCell_eq (c : Nat) (s : State) :
    computeCell c s =
      { s.setCell c (computedCell s c (predAlpha s c)) with cyc := (computeCell c s).cyc } := by
  unfold computeCell computedCell
  simp only [State.mk.injEq, true_and, and_true, State.setCell]
  congr 1
  rw [cellSpectrum_fst _ _ _ 0]
  exact mergeStep_fst _ _ _ _ _ _ _

/-- What holds after the first `m` iterations of COMPUTE. -/
structure ComputeDone (s : State) (m : Nat) (t : State) : Prop where
  rest : StoresOf s t
  shape : Safety.Shape t
  extq : t.extq = s.extq
  cell : ∀ c < s.cfg.arraySize, t.cell c = if c < m then computedCell s c (predAlpha t c) else s.cell c

/-- The loop of COMPUTE. -/
theorem forCells_compute {s : State} (hs : Safety.Shape s) :
    ComputeDone s s.cfg.arraySize (forCells computeCell s) := by
  apply forCells_upto (P := ComputeDone s)
  · exact ⟨StoresOf.refl s, hs, rfl, fun c _ => by simp⟩
  · intro m t hm ht
    have hcfg := ht.rest.cfg
    have htm : t.cell m = s.cell m := by rw [ht.cell m hm]; simp
    have htlen : t.cells.length = s.cfg.arraySize := by rw [ht.shape.1, hcfg]
    have hcomp : ∀ pred, computedCell t m pred = computedCell s m pred := by
      intro pred
      have hi : t.iter = s.iter := by rw [ht.rest]
      have ha : t.active = s.active := by rw [ht.rest]
      simp only [computedCell, isLast, htm, hcfg, hi, ha]
    rw [computeCell_eq, hcomp]
    refine ⟨ht.rest.trans rfl, shape_setCell _ _ ht.shape, ht.extq, ?_⟩
    intro c hc
    show (State.setCell t m _).cell c = if c < m + 1 then computedCell s c (predAlpha (State.setCell t m _) c) else _
    have hpred : c ≤ m → ∀ k, predAlpha (State.setCell t m k) c = predAlpha t c := by
      intro hcm k
      unfold predAlpha
      split
      · rfl
      · rw [State.cell_setCell_ne _ (by omega)]
    rcases Nat.lt_trichotomy c m with h | h | h
    · rw [hpred (by omega), State.cell_setCell_ne _ (by omega), ht.cell c hc, if_pos h, if_pos (by omega)]
    · subst h
      rw [hpred (by omega), State.cell_setCell_self _ (by omega), if_pos (by omega)]
    · rw [State.cell_setCell_ne _ (by omega), ht.cell c hc, if_neg (by omega), if_neg (by omega)]

/-! ### SHIFT -/

/-- What holds after the first `m` iterations of SHIFT. -/
structure ShiftDone (s : State) (m : Nat) (t : State) : Prop where
  rest : StoresOf s t
  shape : Safety.Shape t
  extq : t.extq = s.extq
  cyc : t.cyc = s.cyc + BitVec.ofNat 64 (s.cfg.cellSize * m)
  cell : ∀ c < s.cfg.arraySize, t.cell c =
    if c < m then { s.cell c with raw := [], shift := (s.cell c).raw } else s.cell c

/-- The loop of SHIFT, when every RAW holds a block. -/
theorem forCells_shift {s : State} (hs : Safety.Shape s) (hb : CellBounds s)
    (hraw : ∀ k ∈ s.cells, s.cfg.cellSize ≤ k.raw.length) :
    ShiftDone s s.cfg.arraySize (forCells shiftCell s) := by
  apply forCells_upto (P := ShiftDone s)
  · exact ⟨StoresOf.refl s, hs, rfl, by simp, fun c _ => by simp⟩
  · intro m t hm ht
    have hcfg := ht.rest.cfg
    have hmem := State.cell_mem (s := s) (c := m) (by rw [hs.1]; exact hm)
    have htm : t.cell m = s.cell m := by rw [ht.cell m hm]; simp
    have htlen : t.cells.length = s.cfg.arraySize := by rw [ht.shape.1, hcfg]
    obtain ⟨b1, b2, b3⟩ := hb _ hmem
    have hr : (s.cell m).raw.length = s.cfg.cellSize := Nat.le_antisymm b1 (hraw _ hmem)
    unfold shiftCell
    simp only [drainRaw_eq, htm, hcfg]
    rw [foldl_fifoPush_full (cellSize_pos _) b3 hr, hr]
    refine ⟨ht.rest.trans rfl, shape_setCell _ _ ht.shape, ht.extq, ?_, ?_⟩
    · simp only [ht.cyc]
      rw [BitVec.add_assoc, ← BitVec.ofNat_add, Nat.mul_succ]
    · intro c hc
      show (State.setCell t m _).cell c = _
      rcases Nat.lt_trichotomy c m with h | h | h
      · rw [State.cell_setCell_ne _ (by omega), ht.cell c hc, if_pos h, if_pos (by omega)]
      · subst h
        rw [State.cell_setCell_self _ (by omega), if_pos (by omega)]
      · rw [State.cell_setCell_ne _ (by omega), ht.cell c hc, if_neg (by omega), if_neg (by omega)]

/-! ### What a stage body can answer -/

/-- What the body of CONNECT can answer. -/
theorem connectBody_cases (s : State) :
    (s.phase ≠ .connect ∧ connectBody s = .error (s, sequenceFault 1)) ∨
    (s.phase = .connect ∧ ∃ f, (if s.isLoadRound then loadFault s else none) = some f ∧ connectBody s = .error (s, f)) ∨
    (s.phase = .connect ∧ (if s.isLoadRound then loadFault s else none) = none ∧ connectBody s = .ok { forCells (connectCell s.isLoadRound) { s with active := s.nextActive } with
        roundKind := s.isLoadRound, phase := .read }) := by
  by_cases h : s.phase = .connect
  · right
    cases hf : (if s.isLoadRound then loadFault s else none) with
    | some f => exact .inl ⟨h, f, rfl, by unfold connectBody; rw [if_neg (not_not_intro h)]; simp only [hf]⟩
    | none => exact .inr ⟨h, rfl, by unfold connectBody; rw [if_neg (not_not_intro h)]; simp only [hf]⟩
  · exact .inl ⟨h, by unfold connectBody; rw [if_pos h]⟩

/-- What the body of READ can answer. -/
theorem readBody_cases (s : State) :
    (s.phase ≠ .read ∧ readBody s = .error (s, sequenceFault 2)) ∨
    (s.phase = .read ∧ ∃ f, readFault s = some f ∧ readBody s = .error (s, f)) ∨
    (s.phase = .read ∧ readFault s = none ∧ readBody s = .ok { forCells readCell s with phase := .compute }) := by
  by_cases h : s.phase = .read
  · right
    cases hf : readFault s with
    | some f => exact .inl ⟨h, f, rfl, by unfold readBody; rw [if_neg (not_not_intro h)]; simp only [hf]⟩
    | none => exact .inr ⟨h, rfl, by unfold readBody; rw [if_neg (not_not_intro h)]; simp only [hf]⟩
  · exact .inl ⟨h, by unfold readBody; rw [if_pos h]⟩

/-- What the body of COMPUTE can answer. -/
theorem computeBody_cases (s : State) :
    (s.phase ≠ .compute ∧ computeBody s = .error (s, sequenceFault 3)) ∨
    (s.phase = .compute ∧ ∃ c, firstCell s (computeUnderflow s) = some c ∧ computeBody s = .error (s, ⟨.underflow, cellIndex c, 0, 3⟩)) ∨
    (s.phase = .compute ∧ firstCell s (computeUnderflow s) = none ∧ computeBody s = .ok { forCells computeCell s with phase := .shift }) := by
  by_cases h : s.phase = .compute
  · right
    cases hf : firstCell s (computeUnderflow s) with
    | some c => exact .inl ⟨h, c, rfl, by unfold computeBody; rw [if_neg (not_not_intro h)]; simp only [hf]⟩
    | none => exact .inr ⟨h, rfl, by unfold computeBody; rw [if_neg (not_not_intro h)]; simp only [hf]⟩
  · exact .inl ⟨h, by unfold computeBody; rw [if_pos h]⟩

/-- What the body of SHIFT can answer. -/
theorem shiftBody_cases (s : State) :
    (s.phase ≠ .shift ∧ shiftBody s = .error (s, sequenceFault 4)) ∨
    (s.phase = .shift ∧ ∃ c, firstCell s (shiftUnderflow s) = some c ∧ shiftBody s = .error (s, ⟨.underflow, cellIndex c, 0, 4⟩)) ∨
    (s.phase = .shift ∧ firstCell s (shiftUnderflow s) = none ∧ shiftBody s = .ok 
        { forCells shiftCell s with iter := s.iter + 1, phase := .connect }) := by
  by_cases h : s.phase = .shift
  · right
    cases hf : firstCell s (shiftUnderflow s) with
    | some c => exact .inl ⟨h, c, rfl, by unfold shiftBody; rw [if_neg (not_not_intro h)]; simp only [hf]⟩
    | none => exact .inr ⟨h, rfl, by unfold shiftBody; rw [if_neg (not_not_intro h)]; simp only [hf]⟩
  · exact .inl ⟨h, by unfold shiftBody; rw [if_pos h]⟩

/-- The checks of a load round pass. -/
theorem loadFault_eq_none {s : State} : loadFault s = none ↔
    ∀ c < s.cfg.arraySize, noSignal s c = false ∧ clearUnderflow s c = false := by
  unfold loadFault
  cases h : firstCell s (noSignal s) with
  | some c =>
    obtain ⟨h1, h2, -⟩ := firstCell_eq_some.mp h
    simp only [reduceCtorEq, false_iff]
    intro hall
    rw [(hall c h1).1] at h2
    exact absurd h2 (by simp)
  | none =>
    rw [firstCell_eq_none] at h
    simp only [Option.map_eq_none_iff, firstCell_eq_none]
    exact ⟨fun h2 c hc => ⟨h c hc, h2 c hc⟩, fun h2 c hc => (h2 c hc).2⟩

/-- The checks of READ pass. -/
theorem readFault_eq_none {s : State} : readFault s = none ↔
    ∀ c < s.cfg.arraySize, noSource s c = false ∧ readUnderflow s c = false := by
  unfold readFault
  cases h : firstCell s (noSource s) with
  | some c =>
    obtain ⟨h1, h2, -⟩ := firstCell_eq_some.mp h
    simp only [reduceCtorEq, false_iff]
    intro hall
    rw [(hall c h1).1] at h2
    exact absurd h2 (by simp)
  | none =>
    rw [firstCell_eq_none] at h
    simp only [Option.map_eq_none_iff, firstCell_eq_none]
    exact ⟨fun h2 c hc => ⟨h c hc, h2 c hc⟩, fun h2 c hc => (h2 c hc).2⟩

/-- Four stage bodies that answer one after the other are a round. -/
theorem roundStages_of_ok {s s1 s2 s3 : State} (h1 : connectBody s = .ok s1) (h2 : readBody s1 = .ok s2)
    (h3 : computeBody s2 = .ok s3) : roundStages s = shiftBody s3 := by
  simp only [roundStages, h1, h2, h3]

end Sys2Proof.Machine
end

