-- ==== Sys2Proof/Laws/Rounds.lean ====
section
/-! SUPPORT. Laws of ROUND and RUN: the stage bodies leave the response alone, and a RUN's rounds compose. -/

namespace Sys2Proof.Machine

/-- A state with another response. -/
def State.withRsp (s : State) (r : Response) : State := { s with rsp := r }

/-- A stage body's answer with another response in the state. -/
def StageResult.withRsp (r : Response) : StageResult → StageResult
  | .ok t => .ok (t.withRsp r)
  | .error (t, f) => .error (t.withRsp r, f)

/-- A loop over the cells whose body leaves the response alone does too. -/
theorem forCells_withRsp {f : Nat → State → State} (r : Response)
    (hf : ∀ c t, f c (t.withRsp r) = (f c t).withRsp r) (s : State) :
    forCells f (s.withRsp r) = (forCells f s).withRsp r := by
  unfold forCells
  show List.foldl _ _ (List.range s.cfg.arraySize) = _
  generalize List.range s.cfg.arraySize = l
  induction l generalizing s with
  | nil => rfl
  | cons a l ih => simp only [List.foldl_cons, hf]; exact ih _

theorem connectCell_withRsp (r : Response) (load : Bool) (c : Nat) (t : State) :
    connectCell load c (t.withRsp r) = (connectCell load c t).withRsp r := by
  unfold connectCell
  cases load with
  | true => rfl
  | false => by_cases h : c = 0 <;> simp only [h, if_true, if_false] <;> rfl

/-- The body of CONNECT neither reads nor writes the response; likewise the other bodies below. -/
theorem connectBody_withRsp (r : Response) (s : State) : connectBody (s.withRsp r) = (connectBody s).withRsp r := by
  have hf := forCells_withRsp r (connectCell_withRsp r s.isLoadRound) { s with active := s.nextActive }
  unfold connectBody
  rw [show (s.withRsp r).isLoadRound = s.isLoadRound from rfl, show loadFault (s.withRsp r) = loadFault s from rfl,
    show (s.withRsp r).phase = s.phase from rfl]
  by_cases h : s.phase ≠ .connect
  · rw [if_pos h, if_pos h]; rfl
  · rw [if_neg h, if_neg h]
    cases (if s.isLoadRound then loadFault s else none) with
    | some f => rfl
    | none =>
      exact congrArg (fun u : State => (Except.ok { u with roundKind := s.isLoadRound, phase := .read } : StageResult)) hf

theorem readCell_withRsp (r : Response) (c : Nat) (t : State) : readCell c (t.withRsp r) = (readCell c t).withRsp r := by
  unfold readCell
  rw [show (t.withRsp r).cell c = t.cell c from rfl]
  cases (t.cell c).src with
  | none => rfl
  | ext q => rfl
  | pred =>
    simp only
    split <;> rfl

theorem readBody_withRsp (r : Response) (s : State) : readBody (s.withRsp r) = (readBody s).withRsp r := by
  unfold readBody
  rw [show readFault (s.withRsp r) = readFault s from rfl, show (s.withRsp r).phase = s.phase from rfl,
    forCells_withRsp r (readCell_withRsp r)]
  by_cases h : s.phase ≠ .read
  · rw [if_pos h, if_pos h]; rfl
  · rw [if_neg h, if_neg h]
    cases readFault s <;> rfl

theorem computeBody_withRsp (r : Response) (s : State) : computeBody (s.withRsp r) = (computeBody s).withRsp r := by
  unfold computeBody
  rw [show firstCell (s.withRsp r) (computeUnderflow (s.withRsp r)) = firstCell s (computeUnderflow s) from rfl,
    show (s.withRsp r).phase = s.phase from rfl, forCells_withRsp r (fun _ _ => rfl)]
  by_cases h : s.phase ≠ .compute
  · rw [if_pos h, if_pos h]; rfl
  · rw [if_neg h, if_neg h]
    cases firstCell s (computeUnderflow s) <;> rfl

theorem shiftBody_withRsp (r : Response) (s : State) : shiftBody (s.withRsp r) = (shiftBody s).withRsp r := by
  unfold shiftBody
  rw [show firstCell (s.withRsp r) (shiftUnderflow (s.withRsp r)) = firstCell s (shiftUnderflow s) from rfl,
    show (s.withRsp r).phase = s.phase from rfl, forCells_withRsp r (fun _ _ => rfl)]
  by_cases h : s.phase ≠ .shift
  · rw [if_pos h, if_pos h]; rfl
  · rw [if_neg h, if_neg h]
    cases firstCell s (shiftUnderflow s) <;> rfl

/-- A round neither reads nor writes the response, so the ROUNDs of a sequence, which respond, do what the rounds of a RUN do. -/
theorem roundStages_withRsp (r : Response) (s : State) : roundStages (s.withRsp r) = (roundStages s).withRsp r := by
  unfold roundStages
  rw [connectBody_withRsp]
  rcases connectBody s with e | s1
  · rfl
  · simp only [StageResult.withRsp]
    rw [readBody_withRsp]
    rcases readBody s1 with e | s2
    · rfl
    · simp only [StageResult.withRsp]
      rw [computeBody_withRsp]
      rcases computeBody s2 with e | s3
      · rfl
      · simp only [StageResult.withRsp]
        rw [shiftBody_withRsp]; rfl

theorem runRounds_withRsp (r : Response) (n : Nat) (s : State) : runRounds n (s.withRsp r) = (runRounds n s).withRsp r := by
  induction n generalizing s with
  | zero => rfl
  | succ n ih =>
    unfold runRounds
    rw [roundStages_withRsp]
    rcases roundStages s with e | s1
    · rfl
    · exact ih s1

/-- k + l rounds are k rounds and then l. -/
theorem runRounds_add (k l : Nat) (s : State) : runRounds (k + l) s =
    match runRounds k s with | .error e => .error e | .ok t => runRounds l t := by
  induction k generalizing s with
  | zero => simp [runRounds]
  | succ k ih =>
    rw [Nat.succ_add]
    simp only [runRounds]
    cases roundStages s with
    | error e => rfl
    | ok s1 => exact ih s1

/-- One sequence of commands after another. -/
theorem execSeq_append (a b : List Instr) (s : State) :
    Safety.execSeq (a ++ b) s =
      match Safety.execSeq a s with
      | .next t => Safety.execSeq b t
      | .fault r => .fault r
      | .refused r => .refused r := by
  induction a generalizing s with
  | nil => rfl
  | cons i a ih =>
    simp only [List.cons_append, Safety.execSeq]
    cases exec i s <;> simp [ih]

end Sys2Proof.Machine
end

