-- ==== Sys2Proof/Machine/Pseudo.lean ====
section
/-! DEFINITION. The host's side of the command stream: pseudo-commands (`30_encoding.md` R98) and the boot sequence
(`70_reset_and_hazards.md` R273), each the list of inputs it puts on the command port. -/

namespace Sys2Proof.Machine

/-- The pseudo-commands of `30_encoding.md` R98. -/
inductive Pseudo where
  | loadq (s c : BitVec 8) (zs : List Sample)
  | rounds (t : Nat)
  | runx (t : Nat)
  | stages
  | rdcyc
  | rdvec (k : BitVec 8)
  deriving DecidableEq, Repr

/-- A command that reads no data operand: the operand is ZERO. -/
def plainInput (num : Numerics) (i : Instr) : HostInput := .command (encode i) (sampleZero num)

/-- The expansion of a pseudo-command (`30_encoding.md` R98). -/
def Pseudo.expand (num : Numerics) : Pseudo → List HostInput
  | .loadq s c zs => zs.map fun z => .command (encode (.qpush s c)) z
  | .rounds t => List.replicate t (plainInput num .round)
  | .runx t => List.replicate t (plainInput num .round) ++ [plainInput num .finalize]
  | .stages => [plainInput num .connect, plainInput num .read, plainInput num .compute, plainInput num .shift]
  | .rdcyc => [plainInput num (.rdreg 0x06), plainInput num (.rdreg 0x07)]
  | .rdvec k => (List.range 8).map fun j => plainInput num (.rdres k (BitVec.ofNat 3 j))

/-- LOADQ for every queue of the external input matrix, rows first (`70_reset_and_hazards.md` R273). -/
def loadMatrix (cfg : Config) (fifoInput : List (List (List Sample))) : List HostInput :=
  (List.range cfg.numSignals).flatMap fun s =>
    (List.range cfg.arraySize).flatMap fun c =>
      (Pseudo.loadq (BitVec.ofNat 8 s) (BitVec.ofNat 8 c) ((fifoInput.getD s []).getD c [])).expand cfg.numerics

/-- The boot sequence that reproduces the source's constructor and run (`70_reset_and_hazards.md` R273). -/
def bootSequence (cfg : Config) (fifoInput : List (List (List Sample))) (t : Nat) : List HostInput :=
  [.reset] ++ loadMatrix cfg fifoInput ++
  (if t ≤ 65535 then [plainInput cfg.numerics (.run (BitVec.ofNat 16 t))] else (Pseudo.runx t).expand cfg.numerics) ++
  [plainInput cfg.numerics (.rdreg 0x00)] ++
  ((List.range cfg.arraySize).flatMap fun k => (Pseudo.rdvec (BitVec.ofNat 8 k)).expand cfg.numerics) ++
  Pseudo.rdcyc.expand cfg.numerics

end Sys2Proof.Machine
end

