-- ==== Sys2Proof/Machine/Assembler.lean ====
section
/-! DEFINITION. The assembler syntax (`30_encoding.md` R97, and R98 for the pseudo-commands): one command per line,
operands in decimal or `0x` hexadecimal, a comment after a semicolon. It turns a line into inputs for the command port;
the machine itself never uses it (log entry 15). -/

namespace Sys2Proof.Machine

/-- A token of a line. -/
inductive Token where
  | word (cs : List Char)
  | comma
  | lparen
  | rparen
  deriving DecidableEq, Repr

/-- Put the characters read so far (newest first) in front as a word, when there are any. -/
def flushWord (acc : List Char) (rest : List Token) : List Token :=
  if acc.isEmpty then rest else .word acc.reverse :: rest

/-- The tokens of a line; a semicolon ends it. -/
def tokenize : List Char → List Char → List Token
  | [], acc => flushWord acc []
  | ch :: cs, acc =>
    if ch = ';' then flushWord acc []
    else if ch = ' ' || ch = '\t' then flushWord acc (tokenize cs [])
    else if ch = ',' then flushWord acc (.comma :: tokenize cs [])
    else if ch = '(' then flushWord acc (.lparen :: tokenize cs [])
    else if ch = ')' then flushWord acc (.rparen :: tokenize cs [])
    else tokenize cs (ch :: acc)

/-- The value of a digit in the given base. -/
def digitValue (base : Nat) (ch : Char) : Option Nat :=
  let v :=
    if '0' ≤ ch ∧ ch ≤ '9' then ch.toNat - '0'.toNat
    else if 'a' ≤ ch ∧ ch ≤ 'f' then ch.toNat - 'a'.toNat + 10
    else if 'A' ≤ ch ∧ ch ≤ 'F' then ch.toNat - 'A'.toNat + 10
    else base
  if v < base then some v else none

/-- The number a list of digits stands for, after the digits read so far. -/
def digits (base : Nat) : List Char → Nat → Option Nat
  | [], v => some v
  | ch :: cs, v =>
    match digitValue base ch with
    | some d => digits base cs (v * base + d)
    | none => none

/-- A decimal or `0x` hexadecimal number. -/
def parseNat : List Char → Option Nat
  | [] => none
  | '0' :: 'x' :: c :: cs => digits 16 (c :: cs) 0
  | cs => digits 10 cs 0

/-- An operand of a field of `w` bits. -/
def parseField (w : Nat) (cs : List Char) : Option (BitVec w) :=
  match parseNat cs with
  | some v => if v < 2 ^ w then some (BitVec.ofNat w v) else none
  | none => none

/-- An integer as a Scalar of the configured domain; in BINARY64 the nearest binary64 number. -/
def scalarOfInt (num : Numerics) (neg : Bool) (v : Nat) : Scalar :=
  match num with
  | .ideal => .exact (.lit (if neg then -(v : Int) else (v : Int)))
  | .binary64 => .binary64 (b64Round neg (v * 2 ^ 2148))

/-- A component of a data operand: a number, with a minus sign in front when it is negative. -/
def parseScalar (num : Numerics) : List Char → Option Scalar
  | '-' :: cs => (parseNat cs).map (scalarOfInt num true)
  | cs => (parseNat cs).map (scalarOfInt num false)

/-- A register operand: its number or its name (`10_state.md` R51). -/
def parseReg (cs : List Char) : Option (BitVec 8) :=
  match registerNames.findIdx? (fun name => name.toList == cs) with
  | some r => some (BitVec.ofNat 8 r)
  | none => parseField 8 cs

/-- The SEL1 operand of RDALPHA: ALPHA or TOP. -/
def parseAlphaSel (cs : List Char) : Option (BitVec 1) :=
  if cs = "ALPHA".toList then some 0 else if cs = "TOP".toList then some 1 else none

/-- The samples of a LOADQ: each after a comma, a pair in parentheses. -/
def parseSamples (num : Numerics) : List Token → Option (List Sample)
  | [] => some []
  | .comma :: .lparen :: .word re :: .comma :: .word im :: .rparen :: rest =>
    match parseScalar num re, parseScalar num im, parseSamples num rest with
    | some x, some y, some zs => some (⟨x, y⟩ :: zs)
    | _, _, _ => none
  | _ => none

/-- Commands with no operand. -/
def parseNoOperand (num : Numerics) (m : List Char) : Option (List HostInput) :=
  if m = "NOP".toList then some [plainInput num .nop]
  else if m = "CONNECT".toList then some [plainInput num .connect]
  else if m = "READ".toList then some [plainInput num .read]
  else if m = "COMPUTE".toList then some [plainInput num .compute]
  else if m = "SHIFT".toList then some [plainInput num .shift]
  else if m = "ROUND".toList then some [plainInput num .round]
  else if m = "FINALIZE".toList then some [plainInput num .finalize]
  else if m = "STAGES".toList then some (Pseudo.stages.expand num)
  else if m = "RDCYC".toList then some (Pseudo.rdcyc.expand num)
  else none

/-- Commands with one operand. -/
def parseOneOperand (num : Numerics) (m a : List Char) : Option (List HostInput) :=
  if m = "RUN".toList then (parseField 16 a).map fun t => [plainInput num (.run t)]
  else if m = "RDREG".toList then (parseReg a).map fun r => [plainInput num (.rdreg r)]
  else if m = "ROUNDS".toList then (parseNat a).map fun t => (Pseudo.rounds t).expand num
  else if m = "RUNX".toList then (parseNat a).map fun t => (Pseudo.runx t).expand num
  else if m = "RDVEC".toList then (parseField 8 a).map fun k => (Pseudo.rdvec k).expand num
  else none

/-- Commands with two operands. -/
def parseTwoOperands (num : Numerics) (m a b : List Char) : Option (List HostInput) :=
  if m = "RDRES".toList then
    (parseField 8 a).bind fun k => (parseField 3 b).map fun j => [plainInput num (.rdres k j)]
  else if m = "RDCELL".toList then
    (parseField 8 a).bind fun c => (parseField 8 b).map fun sel => [plainInput num (.rdcell c sel)]
  else if m = "RDQLEN".toList then
    (parseField 8 a).bind fun s => (parseField 8 b).map fun c => [plainInput num (.rdqlen s c)]
  else if m = "RDRAW".toList then
    (parseField 8 a).bind fun c => (parseField 16 b).map fun i => [plainInput num (.rdraw c i)]
  else if m = "RDCONJ".toList then
    (parseField 8 a).bind fun c => (parseField 16 b).map fun i => [plainInput num (.rdconj c i)]
  else if m = "RDSHIFT".toList then
    (parseField 8 a).bind fun c => (parseField 16 b).map fun i => [plainInput num (.rdshift c i)]
  else none

/-- RDALPHA c, ALPHA or TOP, j. -/
def parseRdalpha (num : Numerics) (a b d : List Char) : Option (List HostInput) :=
  (parseField 8 a).bind fun c => (parseAlphaSel b).bind fun sel => (parseField 3 d).map fun j =>
    [plainInput num (.rdalpha c sel j)]

/-- QPUSH s, c, (re, im), and LOADQ with any number of samples from one on. -/
def parsePushes (num : Numerics) (m a b : List Char) (rest : List Token) : Option (List HostInput) :=
  match parseField 8 a, parseField 8 b, parseSamples num rest with
  | some s, some c, some zs =>
    if (m = "QPUSH".toList ∧ zs.length = 1) ∨ (m = "LOADQ".toList ∧ 1 ≤ zs.length) then
      some ((Pseudo.loadq s c zs).expand num)
    else none
  | _, _, _ => none

/-- The inputs of the command port that the tokens of a line stand for; a line with no token stands for none. -/
def parseLine (num : Numerics) : List Token → Option (List HostInput)
  | [] => some []
  | [.word m] => parseNoOperand num m
  | [.word m, .word a] => parseOneOperand num m a
  | [.word m, .word a, .comma, .word b] => parseTwoOperands num m a b
  | [.word m, .word a, .comma, .word b, .comma, .word d] =>
    if m = "RDALPHA".toList then parseRdalpha num a b d else none
  | .word m :: .word a :: .comma :: .word b :: rest => parsePushes num m a b rest
  | _ => none

/-- Assemble one line (`30_encoding.md` R97). -/
def assembleLine (num : Numerics) (line : List Char) : Option (List HostInput) := parseLine num (tokenize line [])

end Sys2Proof.Machine
end

