-- ==== Sys2Proof/Tests/Slice0.lean ====
section
/-! SUPPORT. The model's own tests. Expected values come from `95_test_vectors.md` (its section in each comment) or from a
rule of `spec/` by hand. After the tests, a witness for every obligation that has hypotheses. -/

namespace Sys2Proof.Tests

-- One theorem after the other: each waits for the kernel, and a thread per waiting theorem would run out of memory.
set_option Elab.async false

open Sys2Proof Sys2Proof.Machine Sys2Proof.Safety

/-! ### Helpers -/

def lit (q : ℚ) : Scalar := .exact (.lit q)
def z (a b : ℚ) : Sample := ⟨lit a, lit b⟩
def full (v : Sample) : List Sample := List.replicate 16 v
def alphaOf (a b : ℚ) : Alpha := Vector.ofFn fun i => if i.val = 0 then lit a else lit b

/-- The reset state of N cells, n = 16, S signal rows, QDEPTH = 2, IDEAL, in the given phase. -/
def st (n s : Nat) (p : Phase) : State := { State.resetWith ⟨n, 4, s, 2, .ideal⟩ with phase := p }
def k0 : Cell := Cell.reset .ideal
def kFull : Cell := { k0 with raw := full (z 1 0), conj := full (z 1 0), shift := full (z 1 0) }
def holds (o : Host.Outcome State Fault Refusal) (p : State → Bool) : Bool :=
  match o with
  | .next t => p t
  | _ => false

theorem exists_next {o : Host.Outcome State Fault Refusal} {p : State → Bool} (h : holds o p = true) :
    ∃ t, o = .next t ∧ p t = true := by
  cases o with
  | next t => exact ⟨t, rfl, h⟩
  | fault _ => simp [holds] at h
  | refused _ => simp [holds] at h

/-! ### WellFormed: an ill-formed term for each check (`00_scope.md` R9 to R12, R17) -/

theorem test_legal_default : defaultConfig.legal = true := by decide
theorem test_legal_bounds : (Config.mk 256 16 256 4294967295 .binary64).legal = true := by decide
theorem test_refuses_no_cell : { defaultConfig with arraySize := 0 }.legal = false := by decide
theorem test_refuses_257_cells : { defaultConfig with arraySize := 257 }.legal = false := by decide
theorem test_refuses_cell_size_8 : { defaultConfig with log2CellSize := 3 }.legal = false := by decide
theorem test_refuses_cell_size_131072 : { defaultConfig with log2CellSize := 17 }.legal = false := by decide
theorem test_refuses_no_signal : { defaultConfig with numSignals := 0 }.legal = false := by decide
theorem test_refuses_257_signals : { defaultConfig with numSignals := 257 }.legal = false := by decide
theorem test_refuses_qdepth_0 : { defaultConfig with qdepth := 0 }.legal = false := by decide
theorem test_refuses_qdepth_2_32 : { defaultConfig with qdepth := 4294967296 }.legal = false := by decide
theorem test_refuses_foreign_re : (Sample.mk (.binary64 0) (lit 0)).inDomain .ideal = false := by decide
theorem test_refuses_foreign_im : (Sample.mk (.binary64 0) (lit 0)).inDomain .binary64 = false := by decide

/-! ### Decode: words written out (section 2.1) -/

theorem test_decode_nop : decode 0x00000000#32 = .ok .nop := by decide
theorem test_decode_qpush : decode 0x01FFFF00#32 = .ok (.qpush 255 255) := by decide
theorem test_decode_qpush_fields : decode 0x01020300#32 = .ok (.qpush 2 3) := by decide
theorem test_decode_connect : decode 0x02000000#32 = .ok .connect := by decide
theorem test_decode_read : decode 0x03000000#32 = .ok .read := by decide
theorem test_decode_compute : decode 0x04000000#32 = .ok .compute := by decide
theorem test_decode_shift : decode 0x05000000#32 = .ok .shift := by decide
theorem test_decode_round : decode 0x06000000#32 = .ok .round := by decide
theorem test_decode_run : decode 0x0700FFFF#32 = .ok (.run 65535) := by decide
theorem test_decode_finalize : decode 0x08000000#32 = .ok .finalize := by decide
theorem test_decode_rdreg : decode 0x0900000D#32 = .ok (.rdreg 0x0D) := by decide
theorem test_decode_rdres : decode 0x0AFF0007#32 = .ok (.rdres 255 7) := by decide
theorem test_decode_rdalpha_top : decode 0x0B000100#32 = .ok (.rdalpha 0 1 0) := by decide
theorem test_decode_rdalpha : decode 0x0B050007#32 = .ok (.rdalpha 5 0 7) := by decide
theorem test_decode_rdcell : decode 0x0C0100FF#32 = .ok (.rdcell 1 255) := by decide
theorem test_decode_rdqlen : decode 0x0D000100#32 = .ok (.rdqlen 0 1) := by decide
theorem test_decode_rdraw : decode 0x10FFFFFF#32 = .ok (.rdraw 255 65535) := by decide
theorem test_decode_rdconj : decode 0x1101000F#32 = .ok (.rdconj 1 15) := by decide
theorem test_decode_rdshift : decode 0x1201000F#32 = .ok (.rdshift 1 15) := by decide
theorem test_illegal_words :
    [0x00000001#32, 0x01000001#32, 0x02000001#32, 0x07010000#32, 0x09000100#32, 0x0A000008#32, 0x0B000200#32,
     0x0B000008#32, 0x0C000100#32, 0x0E000000#32, 0x0F000000#32, 0x13000000#32, 0xFF000000#32].all
      (fun w => (decode w).toOption == none) = true := by decide
theorem test_decodeTableWord : decodeTableWord 32 0x0A010003 = some (.rdres 1 3) := by decide

/-! ### Datapath units (section 2.2) -/

theorem test_cmul : cmul (z 1 2) (z 3 (-1)) = z 5 5 := by decide +kernel
theorem test_conj_negates_zero :
    conj ⟨.binary64 0x4014000000000000#64, .binary64 0#64⟩ =
      ⟨.binary64 0x4014000000000000#64, .binary64 0x8000000000000000#64⟩ := by decide +kernel
theorem test_cmul_binary64 :
    cmul ⟨.binary64 0x4008000000000000#64, .binary64 0x4010000000000000#64⟩
      ⟨.binary64 0x4008000000000000#64, .binary64 0xC010000000000000#64⟩ =
      ⟨.binary64 0x4039000000000000#64, .binary64 0#64⟩ := by decide +kernel
theorem test_twiddle_quarter :
    twiddle .binary64 16 4 = ⟨.binary64 0#64, .binary64 0xBFF0000000000000#64⟩ ∧
    twiddle .binary64 16 12 = ⟨.binary64 0#64, .binary64 0x3FF0000000000000#64⟩ := by decide +kernel
theorem test_pfft : pfft .ideal 2 [z 1 0, z 2 0, z 3 0, z 4 0] 0 = ([z 10 0, z (-2) 2, z (-2) 0, z (-2) (-2)], 8) := by
  decide +kernel
theorem test_pfft_two_point : pfft .ideal 1 [z 1 0, z 0 1] 0 = ([z 1 1, z 1 (-1)], 2) := by decide +kernel
theorem test_spectrum :
    Machine.spectrum .ideal (List.replicate 8 (z 0 0) ++ z 16 0 :: List.replicate 7 (z 0 0)) 0 =
      (⟨alphaOf 16 0, alphaOf 0 0⟩, 16) := by decide +kernel
theorem test_mag : mag (z 3 4) = lit 5 := by decide +kernel
theorem test_max2_zeros :
    max2 (.binary64 0#64) (.binary64 0x8000000000000000#64) = .binary64 0#64 ∧
    max2 (.binary64 0x8000000000000000#64) (.binary64 0#64) = .binary64 0x8000000000000000#64 := by decide +kernel
theorem test_max3 : max3 (lit 400) (lit 10) (lit 24) = lit 400 := by decide +kernel
theorem test_mergeInner : mergeInner (alphaOf 400 0) (alphaOf 10 10) (alphaOf 24 8) 0 = (alphaOf 400 10, 16) := by
  decide +kernel

/-! ### One step of each command (sections 2.3 to 2.6 and 4) -/

theorem test_nop_in_fault : holds (exec .nop (st 2 1 .fault)) (fun t => t.rsp.status == 0) = true := by decide +kernel
theorem test_qpush :
    holds (exec (.qpush 0 1) { st 2 1 .connect with operand := z 5 0 })
      (fun t => t.queue 0 1 == [z 5 0] && t.queue 0 0 == [] && t.cyc == 0) = true := by decide +kernel
theorem test_qpush_range :
    holds (exec (.qpush 1 0) (st 2 1 .connect)) (fun t => t.rsp.status == 4 && t.faultInfo == 0x00000100#32) = true := by
  decide +kernel
theorem test_connect_clears :
    holds (exec .connect { st 2 2 .connect with
        iter := 2, cells := List.replicate 2 { kFull with sigIdx := 1, raw := [] } })
      (fun t => t.statusWord == 0x09#32 && (t.cell 1).shift == [] && (t.cell 1).conj == [] &&
        (t.cell 1).src == .ext 1 && (t.cell 1).sigIdx == 2) = true := by decide +kernel
theorem test_connect_shift_round :
    holds (exec .connect { st 3 1 .connect with iter := 1, cells := List.replicate 3 { k0 with src := .ext 0 } })
      (fun t => t.statusWord == 0x01#32 && t.active == 2 && t.cells.map (·.src) == [.ext 0, .pred, .pred]) = true := by
  decide +kernel
theorem test_read_zero_fills :
    holds (exec .read { st 1 1 .read with
        cells := [{ k0 with src := .ext 0 }], extq := [[[z 1 2, z 3 4, z 5 6]]] })
      (fun t => (t.cell 0).raw == [z 1 2, z 3 4, z 5 6] ++ List.replicate 13 (z 0 0) &&
        (t.cell 0).conj == [z 1 (-2), z 3 (-4), z 5 (-6)] ++ List.replicate 13 (z 0 0) &&
        t.queue 0 0 == [] && t.cyc == 16) = true := by decide +kernel
theorem test_read_predecessor :
    holds (exec .read { st 2 1 .read with
        cells := [{ k0 with src := .ext 0, shift := full (z 7 0) }, { k0 with src := .pred, conj := full (z 9 0) }] })
      (fun t => (t.cell 1).raw == full (z 7 0) && (t.cell 0).shift == [] && (t.cell 1).conj == full (z 9 0) &&
        t.cyc == 16) = true := by decide +kernel
theorem test_compute_first_round :
    holds (exec .compute { st 1 1 .compute with
        cells := [{ k0 with
          raw := z 3 0 :: List.replicate 15 (z 1 0), conj := z 3 0 :: List.replicate 15 (z 1 0) }] })
      (fun t => (t.cell 0).alphaTop == alphaOf 24 8 && (t.cell 0).alpha == alphaOf 0 0 && t.cyc == 96) = true := by
  decide +kernel
theorem test_compute_last_then_inner :
    holds (exec .compute { st 2 1 .compute with
        iter := 1, active := 1
        cells := [{ k0 with raw := full (z 0 0), conj := full (z 0 0), alphaTop := alphaOf 24 8 },
                  { k0 with raw := z 3 0 :: List.replicate 15 (z 1 0), conj := full (z 5 0), alphaTop := alphaOf 400 0 }] })
      (fun t => (t.cell 0).alpha == alphaOf 24 8 && (t.cell 0).alphaTop == alphaOf 24 8 &&
        (t.cell 1).alpha == alphaOf 400 10 && (t.cell 1).alphaTop == alphaOf 90 10 && t.cyc == 216) = true := by
  decide +kernel
theorem test_shift_evicts :
    holds (exec .shift { st 1 1 .shift with cells := [{ k0 with raw := full (z 1 0), shift := full (z 2 0) }] })
      (fun t => (t.cell 0).shift == full (z 1 0) && (t.cell 0).raw == [] && t.cyc == 16 && t.iter == 1) = true := by
  decide +kernel
theorem test_round_cost :
    holds (exec .round (st 1 1 .connect)) (fun t => t.cyc == 128 && t.iter == 1 && t.statusWord == 0x08#32) = true := by
  decide +kernel
theorem test_run_two_rounds :
    holds (step (State.reset.withFetchWord 32 0x07000002))
      (fun t => t.cyc == 520 && t.statusWord == 0x14#32 && t.active == 1 && t.resultCount == 2) = true := by decide +kernel
/-- F2, and the largest RUN: round 2's CONNECT faults, the two rounds before it are kept. -/
theorem test_run_past_the_signal_rows :
    holds (step (State.reset.withFetchWord 32 0x0700FFFF))
      (fun t => t.rsp.status == 6 && t.faultCmd == 0x0700FFFF#32 && t.faultInfo == 0x00010100#32 && t.cyc == 520 &&
        t.iter == 2 && t.resultCount == 0) = true := by decide +kernel
theorem test_finalize :
    holds (exec .finalize { st 2 1 .connect with
        cells := [{ k0 with alphaTop := alphaOf 24 8 }, { k0 with alphaTop := alphaOf 400 0, alpha := alphaOf 9 9 }] })
      (fun t => t.result == [alphaOf 24 8, alphaOf 9 9] && t.phase == .done) = true := by decide +kernel
theorem test_finalize_in_read :
    holds (exec .finalize (st 2 1 .read)) (fun t => t.faultInfo == 0x00050000#32) = true := by decide +kernel
/-- F1, steps 1 and 2. -/
theorem test_rdreg_status_after_fault :
    holds (execSeq [.read, .rdreg 0] State.reset) (fun t => t.rsp.word == 0x27#32) = true := by decide +kernel
theorem test_rdreg_reserved :
    holds (exec (.rdreg 0x0E) State.reset) (fun t => t.rsp.status == 4 && t.faultInfo == 0x00000E00#32) = true := by
  decide +kernel
theorem test_rdres :
    holds (exec (.rdres 1 3) { st 2 1 .done with resultCount := 2, result := [alphaOf 24 8, alphaOf 400 10] })
      (fun t => t.rsp.val == z 10 0 && t.rsp.status == 0) = true := by decide +kernel
theorem test_rdalpha_top :
    holds (exec (.rdalpha 1 1 0) { st 2 1 .done with cells := [k0, { k0 with alphaTop := alphaOf 90 10 }] })
      (fun t => t.rsp.val == z 90 0) = true := by decide +kernel
theorem test_rdalpha_range :
    holds (exec (.rdalpha 2 0 0) State.reset) (fun t => t.faultInfo == 0x00000002#32) = true := by decide +kernel
theorem test_rdcell_source :
    holds (exec (.rdcell 0 1) { st 1 2 .done with cells := [{ k0 with src := .ext 1 }] })
      (fun t => t.rsp.word == 0x00000101#32) = true := by decide +kernel
theorem test_rdcell_range :
    holds (exec (.rdcell 1 5) State.reset) (fun t => t.faultInfo == 0x00000501#32) = true := by decide +kernel
theorem test_rdqlen :
    holds (exec (.rdqlen 0 1) { st 2 1 .connect with extq := [[[], [z 1 0]]] }) (fun t => t.rsp.word == 1) = true := by
  decide +kernel
theorem test_rdraw :
    holds (exec (.rdraw 0 1) { st 1 1 .connect with cells := [{ k0 with raw := [z 1 2, z 3 4] }] })
      (fun t => t.rsp.val == z 3 4) = true := by decide +kernel
theorem test_rdconj :
    holds (exec (.rdconj 0 0) { st 1 1 .connect with cells := [{ k0 with conj := [z 1 (-2)] }] })
      (fun t => t.rsp.val == z 1 (-2)) = true := by decide +kernel
theorem test_rdshift_empty :
    holds (exec (.rdshift 0 0) State.reset) (fun t => t.rsp.status == 4 && t.faultInfo == 0) = true := by decide +kernel
/-- F1, step 6: an illegal word in P_FAULT keeps the first fault. -/
theorem test_illegal_in_fault :
    holds (step ({ st 2 1 .fault with faultCause := 2 }.withFetchWord 32 0xFF000000))
      (fun t => t.rsp.status == 1 && t.faultCause == 2) = true := by decide +kernel
theorem test_assemble :
    assembleLine .ideal "QPUSH 0, 1, (5, -2) ; one sample".toList = some [.command 0x01000100#32 (z 5 (-2))] := by
  decide +kernel

/-! ### Witnesses: states and operands that meet the hypotheses of each obligation, clause by clause -/

/-- A hypothesis of the form "the step answers a next state". -/
theorem steps {o : Host.Outcome State Fault Refusal} (h : holds o (fun _ => true) = true) : ∃ t, o = .next t :=
  let ⟨t, ht, _⟩ := exists_next h
  ⟨t, ht⟩

def oneCell (p : Phase) (k : Cell) : State := { st 1 1 p with cells := [k] }
def twoCells (p : Phase) (k1 k2 : Cell) : State := { st 2 1 p with cells := [k1, k2] }
def presenting (s : State) (w : Word) : State := { s with port := [.command w (z 1 0)] }

/-- For IllegalWordFaults and the second clause of FaultedBlockRefusesCommands, at both ends of the unassigned opcodes. -/
theorem witness_illegal_word :
    (presenting (st 2 1 .fault) 0x0E000000#32).cfg.legal = true ∧ (z 1 0).inDomain .ideal = true ∧
    (∀ r ∈ opcodeMap, r.selects 0x0E000000#32 = false) ∧ (∀ r ∈ opcodeMap, r.selects 0xFFFFFFFF#32 = false) ∧
    (∀ r ∈ opcodeMap, r.selects 0x02000001#32 = false) := by decide
theorem witness_EncodeOfDecode : decode 0x12FFFFFF#32 = .ok (.rdshift 255 65535) := by decide
theorem witness_StepRunsDecodedCommand :
    (presenting State.reset 0#32).cfg.legal = true ∧ (presenting State.reset 0#32).port = [.command 0#32 (z 1 0)] ∧
    decode 0#32 = .ok .nop ∧ 0x12FFFFFF < 2 ^ 32 := by decide
theorem witness_IdleStepHoldsState : State.reset.cfg.legal = true ∧ State.reset.port = [] := by decide
theorem witness_ResetEventSetsResetValues :
    State.reset.cfg.legal = true ∧ { State.reset with port := [.reset] }.port = .reset :: [] := by decide
theorem witness_StepStopsOnlyWhereNamed :
    (st 0 1 .connect).cfg.arraySize = 0 ∧ 256 < (st 257 1 .connect).cfg.arraySize ∧
    256 < (st 1 257 .connect).cfg.numSignals ∧
    { State.reset with port := [.command 0#32 ⟨.binary64 0, .binary64 0⟩] }.port =
      .command 0#32 ⟨.binary64 0, .binary64 0⟩ :: [] ∧
    (Sample.mk (.binary64 0) (.binary64 0)).inDomain State.reset.cfg.numerics = false ∧
    (∀ w d rest, State.reset.port = .command w d :: rest → d.inDomain State.reset.cfg.numerics = true) :=
  ⟨by decide, by decide, by decide, by decide, by decide, fun _ _ _ h => by simp [State.reset, State.resetWith] at h⟩
theorem witness_phases : (st 2 1 .connect).phase ≠ .fault ∧ (st 2 1 .fault).phase = .fault := by decide
theorem witness_FaultedBlockRefusesCommands :
    (st 2 1 .fault).phase = .fault ∧ (Instr.qpush 0 0).isRead = false ∧ Instr.qpush 0 0 ≠ .nop := by decide
theorem witness_FaultedBlockKeepsState :
    (st 2 1 .fault).phase = .fault ∧ (∀ rest, (presenting (st 2 1 .fault) 0#32).port ≠ .reset :: rest) ∧
    ∃ t, step (presenting (st 2 1 .fault) 0#32) = .next t :=
  ⟨by decide, fun _ h => by simp [presenting] at h, steps (by decide +kernel)⟩
theorem witness_OnlyResetLeavesFault :
    ∃ t, step { st 2 1 .fault with port := [.reset] } = .next t ∧ decide (t.phase ≠ .fault) = true :=
  exists_next (by decide +kernel)
/-- For every clause of WrongPhaseFaultsSequence outside P_FAULT. -/
theorem witness_WrongPhaseFaultsSequence :
    (st 2 1 .done).phase ≠ .fault ∧ (st 2 1 .done).phase ≠ .connect ∧ (st 2 1 .done).phase ≠ .read ∧
    (st 2 1 .done).phase ≠ .compute ∧ (st 2 1 .done).phase ≠ .shift ∧ (Instr.run 65535).isStageType = true := by decide
theorem witness_FaultsArePrecise :
    Instr.read ≠ .round ∧ (∀ n, Instr.read ≠ .run n) ∧
    ∃ t, exec .read State.reset = .next t ∧ decide (t.rsp.status ≠ 0) = true :=
  ⟨by decide, fun _ h => by simp at h, exists_next (by decide +kernel)⟩
/-- The last queue of the matrix, one sample below QDEPTH = 2. -/
theorem witness_QpushAppendsOperand :
    Shape { st 2 1 .connect with extq := [[[], [z 1 0]]] } ∧ (0#8).toNat < 1 ∧ (1#8).toNat < 2 ∧
    ({ st 2 1 .connect with extq := [[[], [z 1 0]]] }.queue 0 1).length ≠ 2 := by decide
theorem witness_QpushFaults :
    (st 2 1 .connect).cfg.numSignals ≤ (1#8).toNat ∧ (st 2 1 .connect).cfg.arraySize ≤ (2#8).toNat ∧
    ({ st 2 1 .connect with extq := [[[], [z 1 0, z 1 0]]] }.queue 0 1).length = (st 2 1 .connect).cfg.qdepth := by decide
theorem witness_RdregReturnsRegister : 0x0D < (0x0E#8).toNat ∧ 0x0D < (0xFF#8).toNat := by decide
theorem witness_RdresReturnsResultBin :
    (1#8).toNat < { st 2 1 .done with resultCount := 2 }.resultCount.toNat ∧
    (st 2 1 .done).result[(1#8).toNat]? = some (alphaZero .ideal) ∧
    { st 2 1 .done with resultCount := 2 }.resultCount.toNat ≤ (2#8).toNat := by decide +kernel
theorem witness_cell_index :
    (1#8).toNat < (st 2 1 .done).cfg.arraySize ∧ (st 2 1 .done).cfg.arraySize ≤ (2#8).toNat := by decide
theorem witness_RdcellReturnsSelected :
    (twoCells .read { k0 with src := .pred } { k0 with src := .ext 255 }).phase = .read ∧
    (1#8).toNat < 2 ∧ ((twoCells .read k0 { k0 with src := .ext 255 }).cell (1#8).toNat).src = .ext 255 ∧
    ((twoCells .read k0 { k0 with src := .pred }).cell (1#8).toNat).src = .pred ∧
    ((twoCells .read k0 k0).cell (1#8).toNat).src = .none ∧ 4 < (5#8).toNat := by decide
theorem witness_RdqlenReturnsCount :
    (0#8).toNat < (st 2 1 .done).cfg.numSignals ∧ (st 2 1 .done).cfg.numSignals ≤ (1#8).toNat := by decide
/-- The newest element, and the first index past it, of each FIFO. -/
theorem witness_FifoReadsReturnElement :
    (0#8).toNat < (oneCell .done kFull).cfg.arraySize ∧
    ((oneCell .done kFull).cell (0#8).toNat).raw[(15#16).toNat]? = some (z 1 0) ∧
    ((oneCell .done kFull).cell (0#8).toNat).conj[(15#16).toNat]? = some (z 1 0) ∧
    ((oneCell .done kFull).cell (0#8).toNat).shift[(15#16).toNat]? = some (z 1 0) ∧
    ((oneCell .done kFull).cell (0#8).toNat).raw.length ≤ (16#16).toNat ∧
    ((oneCell .done kFull).cell (0#8).toNat).conj.length ≤ (16#16).toNat ∧
    ((oneCell .done kFull).cell (0#8).toNat).shift.length ≤ (16#16).toNat := by decide +kernel
theorem witness_ReadCommandsRepeat :
    (Instr.rdreg 0).isRead = true ∧
    (∃ t, exec (.rdreg 0) State.reset = .next t ∧ decide (t.rsp.status = 0) = true) ∧
    ∃ t, exec (.rdreg 0xFF) State.reset = .next t ∧ decide (t.rsp.status ≠ 0) = true :=
  ⟨by decide, exists_next (by decide +kernel), exists_next (by decide +kernel)⟩
theorem witness_IdealPrimitivesAreExact :
    (z 1 2).inDomain .ideal = true ∧ (Sample.mk (.exact (.atom 0)) (.exact (.atom 1))).inDomain .ideal = true ∧ 0 < 1 ∧
    65535 < 65536 := by decide
theorem witness_QuarterTurnsAreExact : 0 < 1 := by decide
/-- A two-point transform, and a twiddle factor off the quarter turns. -/
theorem witness_PfftCycleCost :
    [z 1 0, z 0 1].length = 2 ^ (0 + 1) ∧ 1 < 2 ^ (0 + 1) ∧ 7 < 8 ∧ 4 * 7 % 8 ≠ 0 := by decide
theorem witness_TwiddleSymmetries : 0 < 2 ^ 0 ∧ 7 < 2 ^ 3 := by decide
theorem witness_PfftIsFourierTransform :
    [z 1 0].length = 2 ^ 0 ∧ (full (z 1 2)).length = 2 ^ 4 ∧ (∀ y ∈ full (z 1 2), y.inDomain .ideal = true) ∧
    15 < 2 ^ 4 := by decide
/-- A shifted block and a stale conjugate block; a block and its own conjugates. -/
theorem witness_CorrelationWithOwnConjugate :
    (full (z 3 4)).length = (full (z 1 (-2))).length ∧ (full (z 1 (-2)))[15]? = some (z 1 (-2)) ∧
    (∀ y ∈ full (z 3 4), y.inDomain .ideal = true) ∧ (full (z 3 4))[15]? = some (z 3 4) ∧
    [Sample.mk (.binary64 0x3FF0000000000000#64) (.binary64 0x4000000000000000#64)][0]? =
      some ⟨.binary64 0x3FF0000000000000#64, .binary64 0x4000000000000000#64⟩ ∧
    b64IsFinite 0x3FF0000000000000#64 = true ∧ b64IsFinite 0x4000000000000000#64 = true ∧
    b64IsFinite (b64Mul 0x3FF0000000000000#64 0x4000000000000000#64) = true := by decide +kernel
theorem witness_SpectrumBins : 4 ≤ 4 ∧ (full (z 1 0)).length = 2 ^ 4 ∧ 7 < 8 := by decide
theorem witness_RealSpectrumIsMirrored (ρ : Nat → ℝ) :
    4 ≤ 4 ∧ (full (z 1 0)).length = 2 ^ 4 ∧
    (∀ y ∈ full (z 1 0), y.inDomain .ideal = true ∧ scalarEval ρ y.im = 0) ∧ 1 ≤ 15 ∧ 15 < 2 ^ 4 := by
  refine ⟨by decide, by decide, fun y hy => ?_, by decide, by decide⟩
  rw [List.eq_of_mem_replicate hy]
  exact ⟨by decide, by simp [z, lit, scalarEval, exactEval]⟩
theorem witness_MaxOrderAndNaN :
    b64IsNaN 0x7FF0000000000001#64 = true ∧ b64IsFinite 0x7FEFFFFFFFFFFFFF#64 = true ∧
    b64Int 0x8000000000000001#64 < b64Int 0#64 := by decide +kernel
theorem witness_MergesAreMaxima : AlphaInDomain .ideal (alphaOf 1 2) := by decide
theorem witness_MagnitudeLaws :
    (z 3 4).inDomain .ideal = true ∧ b64IsNaN 0x7FF0000000000000#64 = false ∧ b64IsZero 0x8000000000000000#64 = true := by
  decide
/-- An exact tie (1 + 2^-53 lies between 1 and its successor); a sum half a unit beyond the largest finite number, and one
just below that; an exact zero sum; a NaN, an infinity beside a number and beside a zero, and both pairs of infinities. -/
theorem witness_Binary64RoundsToNearestEven :
    (b64IsFinite 0x3FF0000000000000#64 = true ∧ b64IsFinite 0x3CA0000000000000#64 = true ∧
      |b64Int 0x3FF0000000000000#64 + b64Int 0x3CA0000000000000#64 - b64Int 0x3FF0000000000000#64| =
        |b64Int 0x3FF0000000000000#64 + b64Int 0x3CA0000000000000#64 - b64Int 0x3FF0000000000001#64|) ∧
    (2 ^ 54 - 1) * 2 ^ 2044 ≤ |b64Int 0x7FEFFFFFFFFFFFFF#64 + b64Int 0x7C90000000000000#64| ∧
    |b64Int 0x7FEFFFFFFFFFFFFF#64 + b64Int 0x7C8FFFFFFFFFFFFF#64| < (2 ^ 54 - 1) * 2 ^ 2044 ∧
    b64Int 0x3FF0000000000000#64 + b64Int 0xBFF0000000000000#64 = 0 ∧ b64IsNaN 0x7FF0000000000001#64 = true ∧
    b64Int 0x3FF0000000000000#64 ≠ 0 ∧ b64IsFinite 0x8000000000000000#64 = true ∧ b64Int 0x8000000000000000#64 = 0 ∧
    true ≠ false := by decide +kernel
/-- The sums at both sides of that boundary. -/
theorem test_overflow_boundary :
    b64Add 0x7FEFFFFFFFFFFFFF#64 0x7C90000000000000#64 = 0x7FF0000000000000#64 ∧
    b64Add 0x7FEFFFFFFFFFFFFF#64 0x7C8FFFFFFFFFFFFF#64 = 0x7FEFFFFFFFFFFFFF#64 := by decide +kernel
/-- The first load round, and a later one with the last signal row. -/
theorem witness_ConnectLoadRound :
    Shape (st 2 2 .connect) ∧ (st 2 2 .connect).iter.toNat % 2 = 0 ∧
    (∀ k ∈ (st 2 2 .connect).cells, k.sigIdx.toNat < 2) ∧
    (let s : State := { st 2 2 .connect with iter := 2, cells := List.replicate 2 { kFull with sigIdx := 1 } }
     Shape s ∧ s.iter.toNat % s.cfg.arraySize = 0 ∧ (∀ k ∈ s.cells, k.sigIdx.toNat < s.cfg.numSignals) ∧
     ∀ k ∈ s.cells, k.sigIdx ≠ 0 ∧ s.cfg.cellSize ≤ k.shift.length ∧ s.cfg.cellSize ≤ k.conj.length) := by decide +kernel
theorem witness_ConnectShiftRound :
    Shape { st 2 1 .connect with iter := 1 } ∧ { st 2 1 .connect with iter := 1 }.iter.toNat % 2 ≠ 0 := by decide
theorem witness_ConnectFaults_noSignal :
    let s : State := { st 2 1 .connect with iter := 2, cells := [{ kFull with sigIdx := 0 }, { kFull with sigIdx := 1 }] }
    s.phase = .connect ∧ s.iter.toNat % s.cfg.arraySize = 0 ∧ 1 < s.cfg.arraySize ∧
    s.cfg.numSignals ≤ (s.cell 1).sigIdx.toNat ∧ ∀ d < 1, (s.cell d).sigIdx.toNat < s.cfg.numSignals := by decide
theorem witness_ConnectFaults_underflow :
    let s : State := { st 2 2 .connect with
      iter := 2, cells := [{ kFull with sigIdx := 1 }, { kFull with sigIdx := 1, conj := List.replicate 15 (z 1 0) }] }
    (∀ d < s.cfg.arraySize, (s.cell d).sigIdx.toNat < s.cfg.numSignals) ∧ (s.cell 1).sigIdx ≠ 0 ∧
    (s.cell 1).conj.length < s.cfg.cellSize ∧
    ∀ d < 1, s.cfg.cellSize ≤ (s.cell d).shift.length ∧ s.cfg.cellSize ≤ (s.cell d).conj.length := by decide +kernel
/-- An external and a predecessor source. -/
theorem witness_ReadBlocks :
    let s := twoCells .read { kFull with src := .ext 0 } { kFull with src := .pred }
    Shape s ∧ FifoBounds s ∧ s.phase = .read ∧
    (∀ c < s.cfg.arraySize, (∃ r < s.cfg.numSignals, (s.cell c).src = .ext r) ∨
      (c ≠ 0 ∧ (s.cell c).src = .pred ∧ s.cfg.cellSize ≤ (s.cell (c - 1)).shift.length)) := by decide +kernel
/-- The first round; a later round in which cell 0 is last and cell 1 is inner. -/
theorem witness_ComputeMerges :
    (let s := twoCells .compute kFull kFull
     Shape s ∧ FifoBounds s ∧ s.phase = .compute ∧ s.iter = 0 ∧
     ∀ k ∈ s.cells, s.cfg.cellSize ≤ k.raw.length ∧ s.cfg.cellSize ≤ k.conj.length) ∧
    (let s : State := { twoCells .compute kFull kFull with iter := 1, active := 1 }
     Shape s ∧ FifoBounds s ∧ s.iter ≠ 0 ∧ ((0 : Nat) : Int) = s.active.toInt - 1 ∧
     ((1 : Nat) : Int) ≠ s.active.toInt - 1) := by decide +kernel
theorem witness_ShiftMovesBlocks :
    let s := twoCells .shift kFull kFull
    Shape s ∧ FifoBounds s ∧ s.phase = .shift ∧ ∀ k ∈ s.cells, s.cfg.cellSize ≤ k.raw.length := by decide +kernel
theorem witness_StageUnderflowFaults_noSource :
    let s := twoCells .read { k0 with src := .ext 0 } k0
    1 < s.cfg.arraySize ∧ s.phase = .read ∧ (s.cell 1).src = .none ∧ ∀ d < 1, (s.cell d).src ≠ .none := by decide
theorem witness_StageUnderflowFaults_read :
    let s := twoCells .read { k0 with src := .ext 0, shift := List.replicate 15 (z 1 0) } { k0 with src := .pred }
    (∀ d < s.cfg.arraySize, (s.cell d).src ≠ .none) ∧ (s.cell 1).src = .pred ∧
    (s.cell (1 - 1)).shift.length < s.cfg.cellSize ∧ ∀ d < 1, d = 0 := by decide +kernel
theorem witness_StageUnderflowFaults_compute :
    let s := twoCells .compute kFull { kFull with conj := List.replicate 15 (z 1 0) }
    (s.cell 1).conj.length < s.cfg.cellSize ∧
    ∀ d < 1, s.cfg.cellSize ≤ (s.cell d).raw.length ∧ s.cfg.cellSize ≤ (s.cell d).conj.length := by decide +kernel
theorem witness_StageUnderflowFaults_shift :
    let s := twoCells .shift kFull { kFull with raw := List.replicate 15 (z 1 0) }
    (s.cell 1).raw.length < s.cfg.cellSize ∧ ∀ d < 1, s.cfg.cellSize ≤ (s.cell d).raw.length := by decide +kernel
theorem witness_FinalizeCollectsResults : (st 2 1 .connect).phase = .connect := by decide
/-- A round that completes, and one whose CONNECT faults. -/
theorem witness_RoundIsFourStages :
    (∃ t, execSeq [.connect, .read, .compute, .shift] (st 1 1 .connect) = .next t ∧ decide (t.rsp.status = 0) = true) ∧
    ∃ t, execSeq [.connect, .read, .compute, .shift] (oneCell .connect { k0 with sigIdx := 1 }) = .next t ∧
      decide (t.rsp.status ≠ 0) = true :=
  ⟨exists_next (by decide +kernel), exists_next (by decide +kernel)⟩
/-- A RUN of no round and of one, and a RUN of two whose second ROUND faults. -/
theorem witness_RunIsRoundsThenFinalize :
    (∃ t, execSeq (List.replicate (0#16).toNat .round ++ [.finalize]) (st 1 1 .connect) = .next t ∧
      decide (t.rsp.status = 0) = true) ∧
    (∃ t, execSeq (List.replicate (1#16).toNat .round ++ [.finalize]) (st 1 1 .connect) = .next t ∧
      decide (t.rsp.status = 0) = true) ∧
    1 < (2#16).toNat ∧
    ∃ s1, execSeq (List.replicate 1 .round) (st 1 1 .connect) = .next s1 ∧
      (decide (s1.phase = .connect) && holds (exec .round s1) fun t => decide (t.rsp.status ≠ 0)) = true :=
  ⟨exists_next (by decide +kernel), exists_next (by decide +kernel), by decide, exists_next (by decide +kernel)⟩

/-- Between the rounds of an accepted sequence of two cells and one signal row, after t rounds, t = 1 or t = 2. -/
def afterRounds (t : BitVec 32) : State :=
  { st 2 1 .connect with
    iter := t, active := 3 - t
    cells := [{ k0 with sigIdx := 1, src := .ext 0, conj := full (z 1 0), shift := full (z 1 0) },
              { k0 with sigIdx := 1, src := if t = 1 then .ext 0 else .pred, conj := full (z 1 0),
                        shift := full (z 1 0) }] }

theorem accepted_reset : AcceptedInv State.reset :=
  ⟨by decide, by decide, by show BetweenRounds State.reset; decide +kernel⟩
theorem accepted_afterRounds_1 : AcceptedInv (afterRounds 1) :=
  ⟨by decide, by decide, by show BetweenRounds (afterRounds 1); decide +kernel⟩
/-- The round S*N, in which CONNECT faults. -/
theorem accepted_afterRounds_2 : AcceptedInv (afterRounds 2) :=
  ⟨by decide, by decide, by show BetweenRounds (afterRounds 2); decide +kernel⟩
/-- Inside a load round, at READ. -/
def atRead : State := { oneCell .read { k0 with sigIdx := 1, src := .ext 0 } with roundKind := true }
theorem accepted_atRead : AcceptedInv atRead :=
  ⟨by decide, by decide, by show InRound atRead ∧ ReadCounts atRead; decide +kernel⟩

theorem witness_RoundCompletesInAcceptedSequence :
    AcceptedInv (afterRounds 1) ∧ (afterRounds 1).phase = .connect ∧ (afterRounds 1).iter.toNat < 1 * 2 :=
  ⟨accepted_afterRounds_1, by decide, by decide⟩
theorem witness_RunCompletesInAcceptedSequence :
    AcceptedInv State.reset ∧ State.reset.phase = .connect ∧ State.reset.iter.toNat + (2#16).toNat ≤ 1 * 2 ∧
    AcceptedInv (afterRounds 2) ∧ (afterRounds 2).iter.toNat + (0#16).toNat ≤ 1 * 2 :=
  ⟨accepted_reset, by decide, by decide, accepted_afterRounds_2, by decide⟩
theorem witness_ResetMeetsInvariants : (Config.mk 256 16 256 4294967295 .binary64).legal = true := by decide
theorem witness_StepKeepsBlockInvariant :
    BlockInv (presenting State.reset 0x06000000#32) ∧ ∃ t, step (presenting State.reset 0x06000000#32) = .next t :=
  ⟨by decide +kernel, steps (by decide +kernel)⟩
theorem witness_StepKeepsNumberDomain :
    DomainInv (presenting State.reset 0x06000000#32) ∧ ∃ t, step (presenting State.reset 0x06000000#32) = .next t :=
  ⟨by decide +kernel, steps (by decide +kernel)⟩
theorem witness_StepKeepsAlphaNonNegative :
    DomainInv (presenting (oneCell .compute kFull) 0x04000000#32) ∧
    NonNegInv (presenting (oneCell .compute kFull) 0x04000000#32) ∧
    ∃ t, step (presenting (oneCell .compute kFull) 0x04000000#32) = .next t := by
  refine ⟨by decide +kernel, ?_, steps (by decide +kernel)⟩
  have hz : AlphaNonNeg (alphaZero .ideal) := by
    intro x hx
    have : x = scalarZero .ideal := by
      simpa [alphaZero, Vector.toList_ofFn, List.ofFn_const, List.mem_replicate] using hx
    rw [this]
    show ∀ ρ : Nat → ℝ, 0 ≤ exactEval ρ (.lit 0)
    simp [exactEval]
  refine ⟨fun k hk => ?_, fun a ha => ?_⟩
  · rw [List.mem_singleton.mp hk]
    exact ⟨hz, hz⟩
  · rw [List.mem_singleton.mp ha]
    exact hz
theorem witness_StepKeepsAcceptedInvariant :
    AcceptedInv (presenting State.reset 0x02000000#32) ∧ ∃ t, step (presenting State.reset 0x02000000#32) = .next t :=
  ⟨accepted_reset, steps (by decide +kernel)⟩
theorem witness_AcceptedSequenceNeverUnderflows :
    AcceptedInv atRead ∧ atRead.phase = .read ∧ ∃ t, exec .read atRead = .next t :=
  ⟨accepted_atRead, by decide, steps (by decide +kernel)⟩
theorem witness_NoSignalExactlyAfterLastRow :
    AcceptedInv (afterRounds 1) ∧ (afterRounds 1).iter.toNat < 1 * 2 ∧
    AcceptedInv (afterRounds 2) ∧ (afterRounds 2).iter.toNat = 1 * 2 :=
  ⟨accepted_afterRounds_1, by decide, accepted_afterRounds_2, by decide⟩
/-- Two states that differ in the data alone. -/
theorem witness_ControlIndependentOfData :
    oneCell .compute kFull ≠ oneCell .compute { kFull with raw := full (z 3 4) } ∧
    erase (oneCell .compute kFull) = erase (oneCell .compute { kFull with raw := full (z 3 4) }) := by decide +kernel
theorem witness_ConfigurationNeverChanges : ∃ t, step State.reset = .next t := steps (by decide +kernel)
theorem witness_StoresWrittenOnlyByNamedCommands :
    ∃ t, exec .shift (oneCell .shift kFull) = .next t ∧ decide (t.iter ≠ (oneCell .shift kFull).iter) = true :=
  exists_next (by decide +kernel)

end Sys2Proof.Tests
end

/-! SUPPORT. The number domain (`00_scope.md` R12, R17), from the Scalar operations up to a step: each operation on data of
the configured domain gives data of that domain. -/

namespace Sys2Proof.NumberDomain

open Sys2Proof.Machine
open Sys2Proof.Safety (AlphaInDomain FifoInDomain DomainInv zeroFilled)

/-! ### Scalars -/

section Scalars

variable {num : Numerics} {x y z : Scalar}

/-- Two Scalars of one domain are two expressions or two patterns: no operation meets a mixed pair. -/
theorem inDomain_pair (hx : x.inDomain num = true) (hy : y.inDomain num = true) :
    (num = .ideal ∧ ∃ a b, x = .exact a ∧ y = .exact b) ∨
    (num = .binary64 ∧ ∃ a b, x = .binary64 a ∧ y = .binary64 b) := by
  cases x <;> cases y <;> cases num <;> simp_all [Scalar.inDomain]

@[simp] theorem scalarZero_inDomain (num : Numerics) : (scalarZero num).inDomain num = true := by
  cases num <;> rfl

@[simp] theorem scalarOne_inDomain (num : Numerics) : (scalarOne num).inDomain num = true := by
  cases num <;> rfl

@[simp] theorem scalarMinusOne_inDomain (num : Numerics) : (scalarMinusOne num).inDomain num = true := by
  cases num <;> rfl

theorem scalarAdd_inDomain (hx : x.inDomain num = true) (hy : y.inDomain num = true) :
    (scalarAdd x y).inDomain num = true := by
  obtain ⟨rfl, a, b, rfl, rfl⟩ | ⟨rfl, a, b, rfl, rfl⟩ := inDomain_pair hx hy <;> rfl

theorem scalarSub_inDomain (hx : x.inDomain num = true) (hy : y.inDomain num = true) :
    (scalarSub x y).inDomain num = true := by
  obtain ⟨rfl, a, b, rfl, rfl⟩ | ⟨rfl, a, b, rfl, rfl⟩ := inDomain_pair hx hy <;> rfl

theorem scalarMul_inDomain (hx : x.inDomain num = true) (hy : y.inDomain num = true) :
    (scalarMul x y).inDomain num = true := by
  obtain ⟨rfl, a, b, rfl, rfl⟩ | ⟨rfl, a, b, rfl, rfl⟩ := inDomain_pair hx hy <;> rfl

theorem scalarMag_inDomain (hx : x.inDomain num = true) (hy : y.inDomain num = true) :
    (scalarMag x y).inDomain num = true := by
  obtain ⟨rfl, a, b, rfl, rfl⟩ | ⟨rfl, a, b, rfl, rfl⟩ := inDomain_pair hx hy <;> rfl

theorem scalarNeg_inDomain (hx : x.inDomain num = true) : (scalarNeg x).inDomain num = true := by
  cases x <;> exact hx

theorem max2_inDomain (hx : x.inDomain num = true) (hy : y.inDomain num = true) :
    (max2 x y).inDomain num = true := by
  obtain ⟨rfl, a, b, rfl, rfl⟩ | ⟨rfl, a, b, rfl, rfl⟩ := inDomain_pair hx hy
  · rfl
  · simp only [max2]
    split <;> rfl

theorem max3_inDomain (hx : x.inDomain num = true) (hy : y.inDomain num = true) (hz : z.inDomain num = true) :
    (max3 x y z).inDomain num = true :=
  max2_inDomain (max2_inDomain hx hy) hz

end Scalars

/-! ### Samples -/

section Samples

variable {num : Numerics} {a b : Sample}

theorem sample_inDomain_iff : a.inDomain num = true ↔ a.re.inDomain num = true ∧ a.im.inDomain num = true :=
  Bool.and_eq_true_iff

@[simp] theorem sampleZero_inDomain (num : Numerics) : (sampleZero num).inDomain num = true :=
  sample_inDomain_iff.mpr ⟨scalarZero_inDomain num, scalarZero_inDomain num⟩

theorem cadd_inDomain (ha : a.inDomain num = true) (hb : b.inDomain num = true) : (cadd a b).inDomain num = true := by
  rw [sample_inDomain_iff] at *
  exact ⟨scalarAdd_inDomain ha.1 hb.1, scalarAdd_inDomain ha.2 hb.2⟩

theorem cmul_inDomain (ha : a.inDomain num = true) (hb : b.inDomain num = true) : (cmul a b).inDomain num = true := by
  rw [sample_inDomain_iff] at *
  exact ⟨scalarSub_inDomain (scalarMul_inDomain ha.1 hb.1) (scalarMul_inDomain ha.2 hb.2),
    scalarAdd_inDomain (scalarMul_inDomain ha.1 hb.2) (scalarMul_inDomain ha.2 hb.1)⟩

theorem conj_inDomain (ha : a.inDomain num = true) : (conj a).inDomain num = true := by
  rw [sample_inDomain_iff] at *
  exact ⟨ha.1, scalarNeg_inDomain ha.2⟩

theorem mag_inDomain (ha : a.inDomain num = true) : (mag a).inDomain num = true := by
  rw [sample_inDomain_iff] at ha
  exact scalarMag_inDomain ha.1 ha.2

/-- The quarter turns and the open twiddle parameter are of the domain they are asked for. -/
theorem twiddle_inDomain (num : Numerics) (n k : Nat) : (twiddle num n k).inDomain num = true := by
  rw [sample_inDomain_iff]
  unfold twiddle
  split
  · split <;> simp
  · cases num <;> exact ⟨rfl, rfl⟩

end Samples

/-! ### FIFOs -/

section Fifos

variable {num : Numerics} {f g : List Sample}

theorem fifoInDomain_nil (num : Numerics) : FifoInDomain num [] := List.forall_mem_nil _

theorem fifoInDomain_cons {v : Sample} :
    FifoInDomain num (v :: f) ↔ v.inDomain num = true ∧ FifoInDomain num f := List.forall_mem_cons

theorem fifoInDomain_append : FifoInDomain num (f ++ g) ↔ FifoInDomain num f ∧ FifoInDomain num g :=
  List.forall_mem_append

/-- Every list of elements of `f` is in the domain with `f`. -/
theorem fifoInDomain_of_subset (h : FifoInDomain num f) (hg : g ⊆ f) : FifoInDomain num g := fun z hz => h z (hg hz)

theorem getD_inDomain (h : FifoInDomain num f) (i : Nat) : (f.getD i (sampleZero num)).inDomain num = true := by
  rcases Nat.lt_or_ge i f.length with hi | hi
  · rw [List.getD_eq_getElem _ _ hi]
    exact h _ (List.getElem_mem hi)
  · rw [List.getD_eq_default _ _ hi]
    exact sampleZero_inDomain num

theorem fifoInDomain_map {α : Type} {l : List α} {u : α → Sample} (h : ∀ a ∈ l, (u a).inDomain num = true) :
    FifoInDomain num (l.map u) := List.forall_mem_map.mpr h

theorem fifoInDomain_zeroFilled (h : FifoInDomain num f) (j : Nat) : FifoInDomain num (zeroFilled num j f) :=
  fifoInDomain_append.mpr ⟨fifoInDomain_of_subset h (List.take_subset j f), fun _ hz =>
    List.eq_of_mem_replicate hz ▸ sampleZero_inDomain num⟩

theorem fifoInDomain_fifoPush {cap : Nat} {v : Sample} (h : FifoInDomain num f) (hv : v.inDomain num = true) :
    FifoInDomain num (fifoPush cap f v) := by
  refine fifoInDomain_append.mpr ⟨?_, fifoInDomain_cons.mpr ⟨hv, fifoInDomain_nil num⟩⟩
  split
  · exact fifoInDomain_of_subset h (List.tail_subset f)
  · exact h

theorem fifoInDomain_foldl_fifoPush {cap : Nat} (hg : FifoInDomain num g) (hf : FifoInDomain num f) :
    FifoInDomain num (g.foldl (fifoPush cap) f) := by
  induction g generalizing f with
  | nil => exact hf
  | cons v g ih =>
    obtain ⟨hv, hg⟩ := fifoInDomain_cons.mp hg
    exact ih hg (fifoInDomain_fifoPush hf hv)

/-- A predecessor read moves samples from one FIFO to another. -/
theorem fifoInDomain_moveSlots (n j : Nat) (hf : FifoInDomain num f) (hg : FifoInDomain num g) :
    FifoInDomain num (moveSlots n j f g).1 ∧ FifoInDomain num (moveSlots n j f g).2 := by
  induction j generalizing f g with
  | zero => exact ⟨hf, hg⟩
  | succ j ih =>
    cases f with
    | nil => exact ⟨hf, hg⟩
    | cons v f =>
      obtain ⟨hv, hf⟩ := fifoInDomain_cons.mp hf
      exact ih hf (fifoInDomain_fifoPush hg hv)

end Fifos

/-! ### The units -/

section Units

variable {num : Numerics} {x y : List Sample}

theorem evens_subset {α : Type} (x : List α) : evens x ⊆ x := by
  intro a ha
  obtain ⟨i, hi⟩ := List.mem_iff_getElem?.mp ha
  exact List.mem_iff_getElem?.mpr ⟨2 * i, getElem?_evens x i ▸ hi⟩

theorem odds_subset {α : Type} (x : List α) : odds x ⊆ x :=
  List.Subset.trans (evens_subset x.tail) (List.tail_subset x)

theorem fifoInDomain_corr (hx : FifoInDomain num x) (hy : FifoInDomain num y) (cyc : BitVec 64) :
    FifoInDomain num (corr x y cyc).1 := by
  rw [corr_eq]
  refine fifoInDomain_map ?_
  rintro ⟨a, b⟩ hp
  obtain ⟨ha, hb⟩ := List.of_mem_zip hp
  exact cmul_inDomain (hx a ha) (hy b hb)

theorem fifoInDomain_combine (m : Nat) (hx : FifoInDomain num x) (hy : FifoInDomain num y) (cyc : BitVec 64) :
    FifoInDomain num (combine num m x y cyc).1 := by
  unfold combine
  rw [mapCounted_eq]
  exact fifoInDomain_map fun k _ =>
    cadd_inDomain (getD_inDomain hx _) (cmul_inDomain (twiddle_inDomain num _ _) (getD_inDomain hy _))

theorem fifoInDomain_pfft (l : Nat) (hx : FifoInDomain num x) (cyc : BitVec 64) :
    FifoInDomain num (pfft num l x cyc).1 := by
  induction l generalizing x cyc with
  | zero => exact hx
  | succ l ih =>
    exact fifoInDomain_combine _ (ih (fifoInDomain_of_subset hx (evens_subset x)) _)
      (ih (fifoInDomain_of_subset hx (odds_subset x)) _) _

theorem fifoInDomain_cropCentral_fftShift (hx : FifoInDomain num x) :
    FifoInDomain num (cropCentral num (fftShift num x)) :=
  fifoInDomain_map fun _ _ => getD_inDomain (fifoInDomain_map fun _ _ => getD_inDomain hx _) _

end Units

/-! ### Alpha vectors -/

section Alphas

variable {num : Numerics} {a b c : Alpha}

theorem alphaInDomain_ofFn {f : Fin 8 → Scalar} (h : ∀ i, (f i).inDomain num = true) :
    AlphaInDomain num (Vector.ofFn f) := by
  intro x hx
  rw [Vector.mem_toList_iff, Vector.mem_ofFn] at hx
  obtain ⟨i, rfl⟩ := hx
  exact h i

theorem bin_inDomain (h : AlphaInDomain num a) (i : Fin 8) : a[i].inDomain num = true :=
  h _ (Vector.mem_toList_iff.mpr (Vector.getElem_mem _))

theorem alphaZero_inDomain (num : Numerics) : AlphaInDomain num (alphaZero num) :=
  alphaInDomain_ofFn fun _ => scalarZero_inDomain num

theorem mergeInner_inDomain (ha : AlphaInDomain num a) (hb : AlphaInDomain num b) (hc : AlphaInDomain num c)
    (cyc : BitVec 64) : AlphaInDomain num (mergeInner a b c cyc).1 :=
  alphaInDomain_ofFn fun i => max3_inDomain (bin_inDomain ha i) (bin_inDomain hb i) (bin_inDomain hc i)

theorem mergeLast_inDomain (ha : AlphaInDomain num a) (hb : AlphaInDomain num b) (cyc : BitVec 64) :
    AlphaInDomain num (mergeLast a b cyc).1 :=
  alphaInDomain_ofFn fun i => max2_inDomain (bin_inDomain ha i) (bin_inDomain hb i)

/-- Bin i of a list of magnitudes, +0 beyond its end. -/
theorem getD_mag_inDomain {x : List Sample} (hx : FifoInDomain num x) (i : Nat) :
    ((x.map mag).getD i (scalarZero num)).inDomain num = true := by
  rw [List.getD_eq_getElem?_getD, List.getElem?_map]
  cases hi : x[i]? with
  | none => exact scalarZero_inDomain num
  | some z => exact mag_inDomain (hx z (List.mem_of_getElem? hi))

theorem spectrum_inDomain {x : List Sample} (hx : FifoInDomain num x) (cyc : BitVec 64) :
    AlphaInDomain num (spectrum num x cyc).1.lower ∧ AlphaInDomain num (spectrum num x cyc).1.upper :=
  have hcrop := fifoInDomain_cropCentral_fftShift hx
  ⟨alphaInDomain_ofFn fun _ => getD_mag_inDomain hcrop _, alphaInDomain_ofFn fun _ => getD_mag_inDomain hcrop _⟩

end Alphas

/-! ### Cells -/

/-- Every Scalar a cell holds is of the domain: the cell's part of `DomainInv`. -/
structure CellInDomain (num : Numerics) (k : Cell) : Prop where
  raw : FifoInDomain num k.raw
  conj : FifoInDomain num k.conj
  shift : FifoInDomain num k.shift
  alpha : AlphaInDomain num k.alpha
  alphaTop : AlphaInDomain num k.alphaTop

section Cells

variable {num : Numerics} {k : Cell}

theorem cellInDomain_reset (num : Numerics) : CellInDomain num (Cell.reset num) :=
  ⟨fifoInDomain_nil num, fifoInDomain_nil num, fifoInDomain_nil num, alphaZero_inDomain num, alphaZero_inDomain num⟩

/-- connect discards samples and selects a source: it writes none. -/
theorem connectedCell_inDomain (cfg : Config) (load : Bool) (c : Nat) (h : CellInDomain num k) :
    CellInDomain num (connectedCell cfg load c k) := by
  have hclear : CellInDomain num (clearShift cfg.cellSize k) :=
    { h with
      shift := fifoInDomain_of_subset h.shift (List.drop_subset _ _)
      conj := fifoInDomain_of_subset h.conj (List.drop_subset _ _) }
  unfold connectedCell connectLoad
  split
  · split
    · exact { h with }
    · exact { hclear with }
  · split
    · exact h
    · exact { h with }

theorem cellSpectrum_inDomain {cfg : Config} (h : CellInDomain cfg.numerics k) (cyc : BitVec 64) :
    AlphaInDomain cfg.numerics (cellSpectrum cfg k cyc).1.lower ∧
    AlphaInDomain cfg.numerics (cellSpectrum cfg k cyc).1.upper :=
  spectrum_inDomain (fifoInDomain_pfft _ (fifoInDomain_corr h.raw h.conj _) _) _

theorem mergeStep_inDomain {sp : Spectrum} {pred : Alpha} (first last : Bool) (h : CellInDomain num k)
    (hlower : AlphaInDomain num sp.lower) (hupper : AlphaInDomain num sp.upper) (hpred : AlphaInDomain num pred)
    (cyc : BitVec 64) : CellInDomain num (mergeStep first last sp pred k cyc).1 := by
  have hinner := mergeInner_inDomain h.alphaTop hlower hpred cyc
  have hlast := mergeLast_inDomain h.alphaTop hpred cyc
  unfold mergeStep
  split
  · exact { h with alphaTop := hupper }
  · split
    · exact { h with alpha := hlast, alphaTop := hlast }
    · exact { h with alpha := hinner, alphaTop := hupper }

end Cells

/-! ### The state -/

/-- `DomainInv` with the number domain named, so that a loop over the cells keeps one and the same property. -/
structure StateInDomain (num : Numerics) (s : State) : Prop where
  numerics : s.cfg.numerics = num
  cells : ∀ k ∈ s.cells, CellInDomain num k
  extq : ∀ row ∈ s.extq, ∀ q ∈ row, FifoInDomain num q
  result : ∀ a ∈ s.result, AlphaInDomain num a
  operand : s.operand.inDomain num = true
  rsp : s.rsp.val.inDomain num = true

theorem domainInv_iff {s : State} : DomainInv s ↔ StateInDomain s.cfg.numerics s := by
  constructor
  · rintro ⟨hcells, hextq, hresult, hoperand, hrsp⟩
    refine ⟨rfl, fun k hk => ?_, hextq, hresult, hoperand, hrsp⟩
    obtain ⟨hraw, hconj, hshift, halpha, htop⟩ := hcells k hk
    exact ⟨hraw, hconj, hshift, halpha, htop⟩
  · intro h
    exact ⟨fun k hk => ⟨(h.cells k hk).raw, (h.cells k hk).conj, (h.cells k hk).shift, (h.cells k hk).alpha,
      (h.cells k hk).alphaTop⟩, h.extq, h.result, h.operand, h.rsp⟩

section States

variable {num : Numerics} {s : State}

/-! #### What a command reads -/

theorem StateInDomain.cell (h : StateInDomain num s) (c : Nat) : CellInDomain num (s.cell c) := by
  rcases Nat.lt_or_ge c s.cells.length with hc | hc
  · exact h.cells _ (State.cell_mem hc)
  · rw [State.cell, List.getD_eq_default _ _ hc, h.numerics]
    exact cellInDomain_reset num

/-- The queues of row r, none when the row does not exist. -/
theorem StateInDomain.row (h : StateInDomain num s) (r : Nat) : ∀ q ∈ s.extq.getD r [], FifoInDomain num q := by
  rcases Nat.lt_or_ge r s.extq.length with hr | hr
  · rw [List.getD_eq_getElem _ _ hr]
    exact h.extq _ (List.getElem_mem hr)
  · rw [List.getD_eq_default _ _ hr]
    simp

theorem StateInDomain.queue (h : StateInDomain num s) (r c : Nat) : FifoInDomain num (s.queue r c) := by
  unfold State.queue
  rcases Nat.lt_or_ge c (s.extq.getD r []).length with hc | hc
  · rw [List.getD_eq_getElem _ _ hc]
    exact h.row r _ (List.getElem_mem hc)
  · rw [List.getD_eq_default _ _ hc]
    exact fifoInDomain_nil num

theorem StateInDomain.resultAt (h : StateInDomain num s) (k : Nat) : AlphaInDomain num (s.resultAt k) := by
  unfold State.resultAt
  rcases Nat.lt_or_ge k s.result.length with hk | hk
  · rw [List.getD_eq_getElem _ _ hk]
    exact h.result _ (List.getElem_mem hk)
  · rw [List.getD_eq_default _ _ hk, h.numerics]
    exact alphaZero_inDomain num

theorem StateInDomain.predAlpha (h : StateInDomain num s) (c : Nat) : AlphaInDomain num (predAlpha s c) := by
  unfold Machine.predAlpha
  split
  · rw [h.numerics]
    exact alphaZero_inDomain num
  · exact (h.cell (c - 1)).alpha

/-! #### What a command writes -/

theorem StateInDomain.setCell {k : Cell} (h : StateInDomain num s) (c : Nat) (hk : CellInDomain num k) :
    StateInDomain num (s.setCell c k) :=
  { h with
    cells := fun k' hk' => by
      rcases List.mem_or_eq_of_mem_set hk' with hk' | rfl
      · exact h.cells k' hk'
      · exact hk }

theorem StateInDomain.setQueue {q : List Sample} (h : StateInDomain num s) (r c : Nat) (hq : FifoInDomain num q) :
    StateInDomain num (s.setQueue r c q) :=
  { h with
    extq := fun row hrow p hp => by
      rcases List.mem_or_eq_of_mem_set hrow with hrow | rfl
      · exact h.extq row hrow p hp
      · rcases List.mem_or_eq_of_mem_set hp with hp | rfl
        · exact h.row r p hp
        · exact hq }

theorem StateInDomain.zeroResponse (h : StateInDomain num s) (status : BitVec 8) (w : Word) :
    StateInDomain num { s with rsp := ⟨status, w, sampleZero s.cfg.numerics⟩ } :=
  { h with rsp := h.numerics ▸ sampleZero_inDomain num }

theorem StateInDomain.respondVal {z : Sample} (h : StateInDomain num s) (hz : z.inDomain num = true) :
    StateInDomain num (s.respondVal z) :=
  { h with rsp := hz }

theorem StateInDomain.respondScalar {x : Scalar} (h : StateInDomain num s) (hx : x.inDomain num = true) :
    StateInDomain num (s.respondScalar x) :=
  h.respondVal (sample_inDomain_iff.mpr ⟨hx, h.numerics ▸ scalarZero_inDomain num⟩)

theorem StateInDomain.raise (h : StateInDomain num s) (w : Word) (f : Raised) : StateInDomain num (s.raise w f) := by
  by_cases hp : s.phase = .fault
  · rw [State.raise_of_faulted s w f hp]
    exact h.zeroResponse _ _
  · rw [State.raise_of_running s w f hp]
    exact { h.zeroResponse f.cause.code 0 with }

theorem StateInDomain.hostReset (h : StateInDomain num s) : StateInDomain num s.hostReset where
  numerics := h.numerics
  cells := fun k hk => List.eq_of_mem_replicate hk ▸ h.numerics ▸ cellInDomain_reset _
  extq := fun row hrow q hq => by
    rw [List.eq_of_mem_replicate hrow] at hq
    rw [List.eq_of_mem_replicate hq]
    exact fifoInDomain_nil num
  result := fun a ha => List.eq_of_mem_replicate ha ▸ h.numerics ▸ alphaZero_inDomain _
  operand := h.numerics ▸ sampleZero_inDomain _
  rsp := h.numerics ▸ sampleZero_inDomain _

/-! #### The cell operations -/

theorem StateInDomain.connectCell (h : StateInDomain num s) (load : Bool) (c : Nat) :
    StateInDomain num (connectCell load c s) := by
  rw [connectCell_eq]
  exact h.setCell c (connectedCell_inDomain _ load c (h.cell c))

theorem StateInDomain.readExternal (h : StateInDomain num s) (r c : Nat) : StateInDomain num (readExternal r c s) := by
  unfold Machine.readExternal
  simp only [readSlots_eq, h.numerics]
  have hblock := fifoInDomain_zeroFilled (h.queue r c) s.cfg.cellSize
  have hk : CellInDomain num { s.cell c with
      raw := (zeroFilled num s.cfg.cellSize (s.queue r c)).foldl (fifoPush s.cfg.cellSize) (s.cell c).raw
      conj := ((zeroFilled num s.cfg.cellSize (s.queue r c)).map Machine.conj).foldl (fifoPush s.cfg.cellSize)
        (s.cell c).conj } :=
    { h.cell c with
      raw := fifoInDomain_foldl_fifoPush hblock (h.cell c).raw
      conj := fifoInDomain_foldl_fifoPush (fifoInDomain_map fun z hz => conj_inDomain (hblock z hz)) (h.cell c).conj }
  exact { (h.setQueue r c (fifoInDomain_of_subset (h.queue r c) (List.drop_subset _ _))).setCell c hk with }

theorem StateInDomain.readPredecessor (h : StateInDomain num s) (c : Nat) : StateInDomain num (readPredecessor c s) := by
  obtain ⟨hshift, hraw⟩ := fifoInDomain_moveSlots s.cfg.cellSize s.cfg.cellSize (h.cell (c - 1)).shift (h.cell c).raw
  refine (h.setCell (c - 1) ?_).setCell c ?_
  · exact { h.cell (c - 1) with shift := hshift }
  · exact { h.cell c with raw := hraw }

theorem StateInDomain.readCell (h : StateInDomain num s) (c : Nat) : StateInDomain num (readCell c s) := by
  unfold Machine.readCell
  split
  · exact h
  · exact h.readExternal _ c
  · split
    · exact h
    · exact h.readPredecessor c

theorem StateInDomain.computeCell (h : StateInDomain num s) (c : Nat) : StateInDomain num (computeCell c s) := by
  obtain rfl := h.numerics
  obtain ⟨hlower, hupper⟩ := cellSpectrum_inDomain (h.cell c) s.cyc
  exact { h.setCell c (mergeStep_inDomain _ _ (h.cell c) hlower hupper (h.predAlpha c) _) with }

theorem StateInDomain.shiftCell (h : StateInDomain num s) (c : Nat) : StateInDomain num (shiftCell c s) := by
  unfold Machine.shiftCell
  simp only [drainRaw_eq]
  have hk : CellInDomain num { s.cell c with
      raw := [], shift := (s.cell c).raw.foldl (fifoPush s.cfg.cellSize) (s.cell c).shift } :=
    { h.cell c with
      raw := fifoInDomain_nil num
      shift := fifoInDomain_foldl_fifoPush (h.cell c).raw (h.cell c).shift }
  exact { h.setCell c hk with }

theorem StateInDomain.forCells {f : Nat → State → State} (h : StateInDomain num s)
    (hf : ∀ c t, StateInDomain num t → StateInDomain num (f c t)) : StateInDomain num (forCells f s) :=
  forCells_induct h fun c t _ ht => hf c t ht

theorem StateInDomain.runOutput (h : StateInDomain num s) : ∀ a ∈ s.runOutput, AlphaInDomain num a := by
  intro a ha
  obtain ⟨c, -, rfl⟩ := List.mem_map.mp ha
  split
  · exact (h.cell 0).alphaTop
  · exact (h.cell c).alpha

end States

/-! ### Stage bodies -/

/-- The state a stage body leaves, whether it completes or raises a fault, is in the domain. -/
def ResultInDomain (num : Numerics) : StageResult → Prop
  | .ok t => StateInDomain num t
  | .error (t, _) => StateInDomain num t

section Bodies

variable {num : Numerics} {s : State}

theorem StateInDomain.connectBody (h : StateInDomain num s) : ResultInDomain num (connectBody s) := by
  obtain ⟨-, hb⟩ | ⟨-, f, -, hb⟩ | ⟨-, -, hb⟩ := connectBody_cases s <;> rw [hb]
  · exact h
  · exact h
  · have hs : StateInDomain num { s with active := s.nextActive } := { h with }
    exact { hs.forCells fun c t ht => ht.connectCell s.isLoadRound c with }

theorem StateInDomain.readBody (h : StateInDomain num s) : ResultInDomain num (readBody s) := by
  obtain ⟨-, hb⟩ | ⟨-, f, -, hb⟩ | ⟨-, -, hb⟩ := readBody_cases s <;> rw [hb]
  · exact h
  · exact h
  · exact { h.forCells fun c t ht => ht.readCell c with }

theorem StateInDomain.computeBody (h : StateInDomain num s) : ResultInDomain num (computeBody s) := by
  obtain ⟨-, hb⟩ | ⟨-, c, -, hb⟩ | ⟨-, -, hb⟩ := computeBody_cases s <;> rw [hb]
  · exact h
  · exact h
  · exact { h.forCells fun c t ht => ht.computeCell c with }

theorem StateInDomain.shiftBody (h : StateInDomain num s) : ResultInDomain num (shiftBody s) := by
  obtain ⟨-, hb⟩ | ⟨-, c, -, hb⟩ | ⟨-, -, hb⟩ := shiftBody_cases s <;> rw [hb]
  · exact h
  · exact h
  · exact { h.forCells fun c t ht => ht.shiftCell c with }

theorem StateInDomain.finalizeBody (h : StateInDomain num s) : ResultInDomain num (finalizeBody s) := by
  unfold Machine.finalizeBody
  split
  · exact h
  · exact { h with result := h.runOutput }

/-- One body after another: the first fault ends the sequence. -/
theorem ResultInDomain.bind {r : StageResult} {body : State → StageResult} (hr : ResultInDomain num r)
    (hbody : ∀ t, StateInDomain num t → ResultInDomain num (body t)) : ResultInDomain num (r.bind body) := by
  cases r with
  | error e => exact hr
  | ok t => exact hbody t hr

theorem roundStages_eq_bind (s : State) : roundStages s =
    (connectBody s).bind fun s1 => (readBody s1).bind fun s2 => (computeBody s2).bind shiftBody := by
  unfold roundStages
  cases connectBody s with
  | error e => rfl
  | ok s1 =>
    simp only [Except.bind]
    cases readBody s1 with
    | error e => rfl
    | ok s2 =>
      simp only []
      cases computeBody s2 <;> rfl

theorem runRounds_succ_eq_bind (n : Nat) (s : State) :
    runRounds (n + 1) s = (roundStages s).bind (runRounds n) := by
  simp only [runRounds]
  cases roundStages s <;> rfl

theorem runBody_eq_bind (t : BitVec 16) (s : State) : runBody t s =
    if s.phase ≠ .connect then .error (s, sequenceFault 0) else (runRounds t.toNat s).bind finalizeBody := by
  unfold runBody
  cases runRounds t.toNat s <;> rfl

theorem StateInDomain.roundStages (h : StateInDomain num s) : ResultInDomain num (roundStages s) := by
  rw [roundStages_eq_bind]
  exact h.connectBody.bind fun _ h1 => h1.readBody.bind fun _ h2 => h2.computeBody.bind fun _ h3 => h3.shiftBody

theorem StateInDomain.roundBody (h : StateInDomain num s) : ResultInDomain num (roundBody s) := by
  unfold Machine.roundBody
  split
  · exact h
  · exact h.roundStages

theorem StateInDomain.runRounds (h : StateInDomain num s) (n : Nat) : ResultInDomain num (runRounds n s) := by
  induction n generalizing s with
  | zero => exact h
  | succ n ih =>
    rw [runRounds_succ_eq_bind]
    exact h.roundStages.bind fun _ h1 => ih h1

theorem StateInDomain.runBody (h : StateInDomain num s) (t : BitVec 16) : ResultInDomain num (runBody t s) := by
  rw [runBody_eq_bind]
  split
  · exact h
  · exact (h.runRounds t.toNat).bind fun _ h1 => h1.finalizeBody

/-- A stage-type command is in the domain when the state its body leaves is. -/
theorem StateInDomain.stageCommand {body : State → StageResult} (h : StateInDomain num s) (w : Word)
    (hbody : ResultInDomain num (body s)) : StateInDomain num (stageCommand w body s) := by
  obtain ⟨-, hs⟩ | ⟨-, t, hb, hs⟩ | ⟨-, t, f, hb, hs⟩ := stageCommand_cases w body s <;> rw [hs]
  · exact h.zeroResponse _ _
  · rw [hb] at hbody
    exact StateInDomain.zeroResponse hbody _ _
  · rw [hb] at hbody
    exact StateInDomain.raise hbody w f

end Bodies

/-! ### Commands -/

section Commands

variable {num : Numerics} {s t : State}

theorem StateInDomain.qpush (h : StateInDomain num s) (r c : BitVec 8) :
    ∃ t, execQpush r c s = .next t ∧ StateInDomain num t := by
  refine ⟨_, rfl, ?_⟩
  split
  · exact h.zeroResponse _ _
  · split
    · exact h.raise _ _
    · split
      · exact h.raise _ _
      · exact (h.setQueue _ _ (fifoInDomain_fifoPush (h.queue _ _) h.operand)).zeroResponse _ _

theorem StateInDomain.readElem (h : StateInDomain num s) (w : Word) (c : BitVec 8) (i : BitVec 16)
    {fifo : Cell → List Sample} (hfifo : FifoInDomain num (fifo (s.cell c.toNat))) :
    StateInDomain num (readElem w c i fifo s) := by
  unfold Machine.readElem
  split
  · rename_i z hz
    split at hz
    · exact h.respondVal (hfifo z (List.mem_of_getElem? hz))
    · cases hz
  · exact h.raise _ _

theorem Cell.selectAlpha_inDomain {k : Cell} (h : CellInDomain num k) (sel : BitVec 1) :
    AlphaInDomain num (k.selectAlpha sel) := by
  unfold Machine.Cell.selectAlpha
  split
  · exact h.alpha
  · exact h.alphaTop

/-- Every command keeps the domain. -/
theorem StateInDomain.exec (h : StateInDomain num s) (i : Instr) :
    ∃ t, exec i s = .next t ∧ StateInDomain num t := by
  cases i with
  | nop => exact ⟨_, rfl, h.zeroResponse _ _⟩
  | qpush r c => exact h.qpush r c
  | connect => exact ⟨_, rfl, h.stageCommand _ h.connectBody⟩
  | read => exact ⟨_, rfl, h.stageCommand _ h.readBody⟩
  | compute => exact ⟨_, rfl, h.stageCommand _ h.computeBody⟩
  | shift => exact ⟨_, rfl, h.stageCommand _ h.shiftBody⟩
  | round => exact ⟨_, rfl, h.stageCommand _ h.roundBody⟩
  | run n => exact ⟨_, rfl, h.stageCommand _ (h.runBody n)⟩
  | finalize => exact ⟨_, rfl, h.stageCommand _ h.finalizeBody⟩
  | rdreg r =>
    refine ⟨_, rfl, ?_⟩
    split
    · exact h.zeroResponse _ _
    · exact h.raise _ _
  | rdres k j =>
    refine ⟨_, rfl, ?_⟩
    split
    · exact h.respondScalar (bin_inDomain (h.resultAt _) _)
    · exact h.raise _ _
  | rdalpha c sel j =>
    refine ⟨_, rfl, ?_⟩
    split
    · exact h.respondScalar (bin_inDomain (Cell.selectAlpha_inDomain (h.cell _) sel) _)
    · exact h.raise _ _
  | rdcell c sel =>
    refine ⟨_, rfl, ?_⟩
    split
    · exact h.zeroResponse _ _
    · exact h.raise _ _
  | rdqlen r c =>
    refine ⟨_, rfl, ?_⟩
    split
    · exact h.zeroResponse _ _
    · exact h.raise _ _
  | rdraw c j => exact ⟨_, rfl, h.readElem _ c j (h.cell _).raw⟩
  | rdconj c j => exact ⟨_, rfl, h.readElem _ c j (h.cell _).conj⟩
  | rdshift c j => exact ⟨_, rfl, h.readElem _ c j (h.cell _).shift⟩

/-- Every step keeps the domain: the port admits operands of it only. -/
theorem StateInDomain.step (h : StateInDomain num s) (ht : step s = .next t) : StateInDomain num t := by
  unfold Machine.step at ht
  split at ht
  case isFalse => cases ht
  case isTrue =>
    obtain ⟨-, ha⟩ | ⟨rest, -, ha⟩ | ⟨w, d, rest, -, hd, ha⟩ | ⟨w, d, rest, -, -, ha⟩ := s.accept_cases <;>
      simp only [ha] at ht
    · injection ht with ht
      exact ht ▸ h
    · injection ht with ht
      exact ht ▸ StateInDomain.hostReset { h with }
    · have hs : StateInDomain num { s with port := rest, operand := d } := { h with operand := h.numerics ▸ hd }
      split at ht
      · rename_i i _
        obtain ⟨t', ht', h'⟩ := hs.exec i
        rw [ht'] at ht
        injection ht with ht
        exact ht ▸ h'
      · injection ht with ht
        exact ht ▸ hs.raise _ _
    · cases ht

end Commands

/-- Settles O53: every command writes samples and Scalars of the block's own domain, and the port admits no other. -/
theorem stepKeepsNumberDomain : Obligations.StepKeepsNumberDomain := by
  intro s t hs ht
  have h := (domainInv_iff.mp hs).step ht
  exact domainInv_iff.mpr (h.numerics.symm ▸ h)

end Sys2Proof.NumberDomain

/-! SUPPORT. Binary64 arithmetic rounds to nearest, ties to even (`00_scope.md` R12; log entry 10). A pattern is a sign and
the lower 63 bits, and the magnitude grows with those bits: successive patterns are successive numbers. Rounding thus
chooses between the two patterns around the exact magnitude, and no third number lies between them. -/

namespace Sys2Proof.Binary64Rounding

open Sys2Proof.Machine
open Sys2Proof.Safety (RoundsToNearestEven)

/-! ### Patterns as a sign and 63 bits -/

section Patterns

variable {bits : Nat}

theorem toNat_pack (sign : Bool) (h : bits < 2 ^ 63) :
    (b64Pack sign bits).toNat = (if sign then 2 ^ 63 else 0) + bits := by
  unfold b64Pack
  rw [BitVec.toNat_ofNat, Nat.mod_eq_of_lt]
  split <;> omega

/-- Every pattern is a sign and 63 bits. -/
theorem exists_eq_pack (v : Binary64) : ∃ sign bits, bits < 2 ^ 63 ∧ v = b64Pack sign bits := by
  have hv := v.isLt
  refine ⟨decide (2 ^ 63 ≤ v.toNat), v.toNat % 2 ^ 63, Nat.mod_lt _ (by decide), BitVec.eq_of_toNat_eq ?_⟩
  rw [toNat_pack _ (Nat.mod_lt _ (by decide))]
  by_cases h : 2 ^ 63 ≤ v.toNat
  · rw [decide_eq_true h, if_pos rfl]
    omega
  · rw [decide_eq_false h, if_neg Bool.false_ne_true]
    omega

theorem b64Sign_pack (sign : Bool) (h : bits < 2 ^ 63) : b64Sign (b64Pack sign bits) = sign := by
  unfold b64Sign
  rw [BitVec.getLsbD, toNat_pack sign h, Nat.testBit_eq_decide_div_mod_eq]
  cases sign <;> simp <;> omega

theorem b64Exp_pack (sign : Bool) (h : bits < 2 ^ 63) : b64Exp (b64Pack sign bits) = bits / 2 ^ 52 := by
  unfold b64Exp
  rw [BitVec.extractLsb'_toNat, toNat_pack sign h, Nat.shiftRight_eq_div_pow]
  cases sign <;> simp <;> omega

theorem b64Frac_pack (sign : Bool) (h : bits < 2 ^ 63) : b64Frac (b64Pack sign bits) = bits % 2 ^ 52 := by
  unfold b64Frac
  rw [BitVec.extractLsb'_toNat, toNat_pack sign h, Nat.shiftRight_zero]
  cases sign <;> simp
  omega

theorem b64Neg_pack (sign : Bool) (h : bits < 2 ^ 63) : b64Neg (b64Pack sign bits) = b64Pack (!sign) bits := by
  unfold b64Neg
  rw [show 0x8000000000000000#64 = BitVec.twoPow 64 63 from rfl]
  apply BitVec.eq_of_getLsbD_eq
  intro i hi
  have htop : bits.testBit 63 = false := Nat.testBit_lt_two_pow h
  have hset : (2 ^ 63 + bits).testBit 63 = true := by rw [Nat.testBit_two_pow_add_eq, htop]; rfl
  rw [BitVec.getLsbD_xor, BitVec.getLsbD_twoPow, BitVec.getLsbD, BitVec.getLsbD, toNat_pack _ h, toNat_pack _ h]
  rcases Nat.lt_or_eq_of_le (Nat.le_of_lt_succ hi) with hlt | rfl
  · cases sign <;> simp [Nat.testBit_two_pow_add_gt hlt, (Nat.ne_of_lt hlt).symm, -Nat.reducePow]
  · cases sign <;> simp [htop, hset, -Nat.reducePow]

theorem b64IsFinite_pack (sign : Bool) (h : bits < 2 ^ 63) :
    b64IsFinite (b64Pack sign bits) = true ↔ bits < 2047 * 2 ^ 52 := by
  simp only [b64IsFinite, b64Exp_pack sign h, bne_iff_ne]
  omega

theorem b64IsNaN_pack (sign : Bool) (h : bits < 2 ^ 63) :
    b64IsNaN (b64Pack sign bits) = true ↔ 2047 * 2 ^ 52 < bits := by
  simp only [b64IsNaN, b64Exp_pack sign h, b64Frac_pack sign h, Bool.and_eq_true, beq_iff_eq, bne_iff_ne]
  omega

theorem b64IsZero_pack (sign : Bool) (h : bits < 2 ^ 63) : b64IsZero (b64Pack sign bits) = true ↔ bits = 0 := by
  simp only [b64IsZero, b64Exp_pack sign h, b64Frac_pack sign h, Bool.and_eq_true, beq_iff_eq]
  omega

end Patterns

/-! ### The magnitude grows with the bits -/

/-- The magnitude of the pattern with the given lower 63 bits, in units of 2^-1074. -/
def patternMag (bits : Nat) : Nat :=
  if bits / 2 ^ 52 = 0 then bits % 2 ^ 52 else (2 ^ 52 + bits % 2 ^ 52) * 2 ^ (bits / 2 ^ 52 - 1)

theorem b64Mag_pack {bits : Nat} (sign : Bool) (h : bits < 2 ^ 63) : b64Mag (b64Pack sign bits) = patternMag bits := by
  unfold b64Mag patternMag
  rw [b64Exp_pack sign h, b64Frac_pack sign h]

/-- The significand q at exponent e, subnormal only at the lowest exponent; q = 2^53 carries into the exponent. -/
theorem patternMag_of_significand {e q : Nat} (hq : q ≤ 2 ^ 53) (hn : e = 0 ∨ 2 ^ 52 ≤ q) :
    patternMag (e * 2 ^ 52 + q) = q * 2 ^ e := by
  unfold patternMag
  rcases Nat.lt_or_ge q (2 ^ 52) with hlt | hge
  · obtain rfl : e = 0 := by omega
    rw [if_pos (by omega)]
    omega
  · rcases Nat.lt_or_eq_of_le hq with hlt | rfl
    · have hexp : (e * 2 ^ 52 + q) / 2 ^ 52 = e + 1 := by omega
      have hfrac : 2 ^ 52 + (e * 2 ^ 52 + q) % 2 ^ 52 = q := by omega
      rw [if_neg (by omega), hexp, hfrac, Nat.add_sub_cancel]
    · have hexp : (e * 2 ^ 52 + 2 ^ 53) / 2 ^ 52 = e + 2 := by omega
      have hfrac : (e * 2 ^ 52 + 2 ^ 53) % 2 ^ 52 = 0 := by omega
      rw [if_neg (by omega), hexp, hfrac, Nat.add_zero, show e + 2 - 1 = e + 1 from rfl, pow_succ 2 e]
      omega

/-- Every pattern has such a significand and exponent, below the carry. -/
theorem exists_significand (bits : Nat) : ∃ e q, bits = e * 2 ^ 52 + q ∧ q < 2 ^ 53 ∧ (e = 0 ∨ 2 ^ 52 ≤ q) := by
  rcases Nat.lt_or_ge bits (2 ^ 52) with h | h
  · exact ⟨0, bits, by omega, by omega, .inl rfl⟩
  · exact ⟨bits / 2 ^ 52 - 1, 2 ^ 52 + bits % 2 ^ 52, by omega, by omega, .inr (by omega)⟩

theorem patternMag_strictMono : StrictMono patternMag := by
  refine strictMono_nat_of_lt_succ fun bits => ?_
  obtain ⟨e, q, rfl, hq, hn⟩ := exists_significand bits
  rw [Nat.add_assoc, patternMag_of_significand (by omega) hn, patternMag_of_significand (by omega) (by omega)]
  exact Nat.mul_lt_mul_of_pos_right (Nat.lt_succ_self q) (Nat.two_pow_pos e)

/-! ### Signed values -/

/-- x with the given sign put before it. -/
def signed (sign : Bool) (x : Int) : Int := if sign then -x else x

theorem b64Int_eq_signed (v : Binary64) : b64Int v = signed (b64Sign v) (b64Mag v) := rfl

@[simp] theorem signed_signed (sign : Bool) (x : Int) : signed sign (signed sign x) = x := by
  cases sign <;> simp [signed]

@[simp] theorem abs_signed (sign : Bool) (x : Int) : |signed sign x| = |x| := by
  cases sign <;> simp [signed]

@[simp] theorem natAbs_signed (sign : Bool) (x : Int) : (signed sign x).natAbs = x.natAbs := by
  cases sign <;> simp [signed]

theorem signed_mul (sign : Bool) (x k : Int) : signed sign (x * k) = signed sign x * k := by
  cases sign <;> simp [signed]

/-- A common sign does not change a distance. -/
theorem abs_signed_sub (sign : Bool) (x y : Int) : |signed sign x - y| = |x - signed sign y| := by
  cases sign with
  | false => rfl
  | true =>
    rw [← abs_neg]
    simp [signed, add_comm]

theorem decide_signed_neg (sign : Bool) {x : Int} (h : 0 < x) : decide (signed sign x < 0) = sign := by
  cases sign <;> simp [signed, h, h.le]

/-- No number lies strictly between two successive magnitudes, whatever its sign. -/
theorem le_or_succ_le_of_natAbs {e q bits : Nat} {y : Int} (hq : q < 2 ^ 53) (hn : e = 0 ∨ 2 ^ 52 ≤ q)
    (hy : y.natAbs = patternMag bits) : y ≤ (q * 2 ^ e : Nat) ∨ ((q + 1) * 2 ^ e : Nat) ≤ y := by
  have hlo := patternMag_of_significand (by omega : q ≤ 2 ^ 53) hn
  have hhi := patternMag_of_significand (by omega : q + 1 ≤ 2 ^ 53) (by omega : e = 0 ∨ 2 ^ 52 ≤ q + 1)
  rcases Nat.lt_or_ge (e * 2 ^ 52 + q) bits with h | h
  · have hmono := patternMag_strictMono.monotone (show e * 2 ^ 52 + (q + 1) ≤ bits from h)
    omega
  · have hmono := patternMag_strictMono.monotone h
    omega

/-! ### Rounding -/

/-- m as `b64Round` cuts it: q units of 2^e (in units of 2^-1074, that is 2^(e + 1074) in units of 2^-2148) and a rest. -/
structure Cut (m e q r : Nat) : Prop where
  value : m = q * 2 ^ (e + 1074) + r
  rest : r < 2 ^ (e + 1074)
  significand : q < 2 ^ 53
  normal : e = 0 ∨ 2 ^ 52 ≤ q

/-- The significand after rounding: up beyond half a unit, and at exactly half a unit beside an odd significand. -/
def roundedSig (e q r : Nat) : Nat := if 2 ^ (e + 1073) < r ∨ (r = 2 ^ (e + 1073) ∧ q % 2 = 1) then q + 1 else q

theorem roundedSig_cases (e q r : Nat) :
    (roundedSig e q r = q ∧ r ≤ 2 ^ (e + 1073) ∧ (r = 2 ^ (e + 1073) → q % 2 = 0)) ∨
    (roundedSig e q r = q + 1 ∧ 2 ^ (e + 1073) ≤ r ∧ (r = 2 ^ (e + 1073) → q % 2 = 1)) := by
  unfold roundedSig
  generalize 2 ^ (e + 1073) = half
  split <;> omega

/-- The pattern of the rounded significand is that many units of 2^e, after a carry too. -/
theorem Cut.patternMag_rounded {m e q r : Nat} (h : Cut m e q r) :
    patternMag (e * 2 ^ 52 + roundedSig e q r) = roundedSig e q r * 2 ^ e := by
  have hq := h.significand
  have hn := h.normal
  have hcases := roundedSig_cases e q r
  exact patternMag_of_significand (by omega) (by omega)

/-- The exponent `b64Round` picks leaves a significand of 53 bits, or of fewer at the lowest exponent. -/
theorem cut_log2 (m : Nat) {e : Nat} (he : Nat.max (m.log2 - 52) 1074 = e + 1074) :
    Cut m e (m / 2 ^ (e + 1074)) (m % 2 ^ (e + 1074)) where
  value := (Nat.div_add_mod' m _).symm
  rest := Nat.mod_lt _ (Nat.two_pow_pos _)
  significand := by
    rw [Nat.div_lt_iff_lt_mul (Nat.two_pow_pos _), ← pow_add]
    have hlog : m.log2 - 52 ≤ e + 1074 := he ▸ Nat.le_max_left _ _
    exact Nat.lt_of_lt_of_le Nat.lt_log2_self (Nat.pow_le_pow_right (by decide) (by omega))
  normal := by
    rcases Nat.eq_zero_or_pos e with h0 | hpos
    · exact .inl h0
    · have hlog : m.log2 = 52 + (e + 1074) := by
        change max _ _ = _ at he
        omega
      have hm : m ≠ 0 := by
        rintro rfl
        simp at hlog
      refine .inr ?_
      rw [Nat.le_div_iff_mul_le (Nat.two_pow_pos _), ← pow_add, ← hlog]
      exact Nat.log2_self_le hm

/-- `b64Round` cuts the magnitude, rounds the significand, and answers infinity beyond the largest exponent. -/
theorem b64Round_cut (sign : Bool) (m : Nat) : ∃ e q r, Cut m e q r ∧
    b64Round sign m = if e * 2 ^ 52 + roundedSig e q r < 2047 * 2 ^ 52
      then b64Pack sign (e * 2 ^ 52 + roundedSig e q r) else b64Inf sign := by
  obtain ⟨e, he⟩ : ∃ e, Nat.max (m.log2 - 52) 1074 = e + 1074 :=
    ⟨_, (Nat.sub_add_cancel (Nat.le_max_right _ _)).symm⟩
  refine ⟨e, _, _, cut_log2 m he, ?_⟩
  have hbits : ∀ (p : Prop) [Decidable p] (q : Nat), e * 2 ^ 52 + q + (if p then 1 else 0) =
      e * 2 ^ 52 + if p then q + 1 else q := by
    intro p _ q
    split <;> omega
  unfold b64Round roundedSig
  simp only [he, Nat.add_sub_cancel, hbits, Bool.or_eq_true, Bool.and_eq_true, decide_eq_true_eq, beq_iff_eq]
  rfl

/-- The exact magnitude rounds to a finite number exactly below half a unit beyond the largest finite number. -/
theorem rounded_lt_iff {m e q r : Nat} (h : Cut m e q r) :
    e * 2 ^ 52 + roundedSig e q r < 2047 * 2 ^ 52 ↔ m < (2 ^ 54 - 1) * 2 ^ 3118 := by
  obtain ⟨rfl, hr, hq, hn⟩ := h
  have hsig := roundedSig_cases e q r
  rcases Nat.lt_trichotomy e 2045 with he | rfl | he
  · have hunit : (2 : Nat) ^ (e + 1074) ≤ 2 ^ 3118 := pow_le_pow_right₀ one_le_two (by omega)
    have hmul : (q + 1) * 2 ^ (e + 1074) ≤ 2 ^ 53 * 2 ^ 3118 := Nat.mul_le_mul hq hunit
    have hpos : 0 < 2 ^ 3118 := by positivity
    rw [Nat.add_one_mul] at hmul
    generalize (2 : Nat) ^ 3118 = u at *
    omega
  · have hunit : (2 : Nat) ^ (2045 + 1074) = 2 * 2 ^ 3118 := by rw [← pow_succ']
    rw [show 2045 + 1073 = 3118 from rfl] at hsig
    rw [hunit] at hr ⊢
    rw [Nat.mul_left_comm]
    generalize (2 : Nat) ^ 3118 = u at *
    rcases Nat.lt_or_eq_of_le (Nat.le_of_lt_succ hq) with hlt | rfl
    · have hle : (q + 1) * u ≤ (2 ^ 53 - 1) * u := Nat.mul_le_mul_right u hlt
      rw [Nat.add_one_mul] at hle
      omega
    · omega
  · have hunit : (2 : Nat) ^ 3120 ≤ 2 ^ (e + 1074) := pow_le_pow_right₀ one_le_two (by omega)
    have hmul : 2 ^ 52 * 2 ^ 3120 ≤ q * 2 ^ (e + 1074) := Nat.mul_le_mul (by omega) hunit
    have hpow : (2 : Nat) ^ 3120 = 2 * (2 * 2 ^ 3118) := by rw [← pow_succ', ← pow_succ']
    have hpos : 0 < 2 ^ 3118 := by positivity
    rw [hpow] at hmul
    generalize (2 : Nat) ^ 3118 = u at *
    omega

/-- Of two neighbours 2h apart, the one on the near side of the middle is nearest among all values not between them. -/
theorem abs_sub_le_of_gap {a h r v y : Int} (hy : y ≤ a ∨ a + 2 * h ≤ y) (h0 : 0 ≤ r) (hr : r < 2 * h)
    (hv : (v = a ∧ r ≤ h) ∨ (v = a + 2 * h ∧ h ≤ r)) :
    |a + r - v| ≤ |a + r - y| ∧ (|a + r - v| = |a + r - y| → y ≠ v → r = h) := by
  simp only [Int.abs_eq_natAbs]
  omega

theorem b64Int_pack {bits : Nat} (sign : Bool) (h : bits < 2 ^ 63) :
    b64Int (b64Pack sign bits) = signed sign (patternMag bits) := by
  rw [b64Int_eq_signed, b64Sign_pack sign h, b64Mag_pack sign h]

theorem exists_patternMag (c : Binary64) : ∃ bits, (b64Int c).natAbs = patternMag bits := by
  obtain ⟨sign, bits, hlt, rfl⟩ := exists_eq_pack c
  exact ⟨bits, by rw [b64Int_pack sign hlt, natAbs_signed, Int.natAbs_natCast]⟩

/-- k units of 2^e, counted in units of 2^-2148. -/
theorem units_mul (k e : Nat) : ((k * 2 ^ e : Nat) : Int) * (2 ^ 1074 : Nat) = k * (2 * (2 ^ (e + 1073) : Nat)) := by
  have h : k * 2 ^ e * 2 ^ 1074 = k * (2 * 2 ^ (e + 1073)) := by
    rw [Nat.mul_assoc, ← pow_add, ← pow_succ']
  rw [← Nat.cast_mul, h, Nat.cast_mul, Nat.cast_mul, Nat.cast_two]

/-- No number lies strictly between the two candidates, counted in units of 2^-2148. -/
theorem Cut.gap {m e q r : Nat} (h : Cut m e q r) {y : Int} {bits : Nat} (hy : y.natAbs = patternMag bits) :
    y * (2 ^ 1074 : Nat) ≤ q * (2 * (2 ^ (e + 1073) : Nat)) ∨
    (q * (2 * (2 ^ (e + 1073) : Nat)) + 2 * (2 ^ (e + 1073) : Nat) : Int) ≤ y * (2 ^ 1074 : Nat) := by
  rw [← add_one_mul, ← Nat.cast_add_one, ← units_mul, ← units_mul]
  exact (le_or_succ_le_of_natAbs h.significand h.normal hy).imp
    (fun hle => mul_le_mul_of_nonneg_right hle (Int.natCast_nonneg _))
    (fun hle => mul_le_mul_of_nonneg_right hle (Int.natCast_nonneg _))

/-- The rounded significand is nearest to the cut magnitude, in units of 2^-2148, among all signed magnitudes `y`, and the
even one of two that are as near. -/
theorem roundedSig_nearest {m e q r : Nat} (h : Cut m e q r) {y : Int} {bits : Nat} (hy : y.natAbs = patternMag bits) :
    |(m : Int) - (roundedSig e q r * 2 ^ e : Nat) * (2 ^ 1074 : Nat)| ≤ |(m : Int) - y * (2 ^ 1074 : Nat)| ∧
    (|(m : Int) - (roundedSig e q r * 2 ^ e : Nat) * (2 ^ 1074 : Nat)| = |(m : Int) - y * (2 ^ 1074 : Nat)| →
      y ≠ (roundedSig e q r * 2 ^ e : Nat) → roundedSig e q r % 2 = 0) := by
  have hgap := h.gap hy
  have hcases := roundedSig_cases e q r
  have hback := units_mul (roundedSig e q r) e
  have hpos : ((2 ^ 1074 : Nat) : Int) ≠ 0 := Nat.cast_ne_zero.mpr (by positivity)
  obtain ⟨rfl, hr, -, -⟩ := h
  rw [show (2 : Nat) ^ (e + 1074) = 2 * 2 ^ (e + 1073) from pow_succ' 2 (e + 1073)] at hr ⊢
  rw [hback]
  generalize roundedSig e q r = n at *
  generalize (2 : Nat) ^ (e + 1073) = half at *
  have hv : ((n : Int) * (2 * half) = q * (2 * half) ∧ (r : Int) ≤ half) ∨
      ((n : Int) * (2 * half) = q * (2 * half) + 2 * half ∧ (half : Int) ≤ r) := by
    rcases hcases with ⟨rfl, hle, -⟩ | ⟨rfl, hle, -⟩
    · exact .inl ⟨rfl, by omega⟩
    · exact .inr ⟨by rw [Nat.cast_add_one, add_one_mul], by omega⟩
  obtain ⟨hle, htie⟩ := abs_sub_le_of_gap hgap (Int.natCast_nonneg r) (by omega) hv
  rw [Nat.cast_add, Nat.cast_mul, Nat.cast_mul, Nat.cast_two]
  refine ⟨hle, fun heq hne => ?_⟩
  have hmid := htie heq fun h => hne (mul_right_cancel₀ hpos (h.trans hback.symm))
  omega

/-- Rounding an exact number of units of 2^-2148, given by its sign and its magnitude. -/
theorem b64Round_nearest (sign : Bool) (m : Nat) :
    RoundsToNearestEven (signed sign m) (2 ^ 1074) (b64Round sign m) := by
  obtain ⟨e, q, r, hcut, hround⟩ := b64Round_cut sign m
  have hfin := rounded_lt_iff hcut
  have hbound : (2 ^ 54 - 1) * 2 ^ 2044 * ((2 ^ 1074 : Nat) : Int) = (((2 ^ 54 - 1) * 2 ^ 3118 : Nat) : Int) := by
    rw [mul_assoc, show 3118 = 2044 + 1074 from rfl, pow_add]
    simp only [Nat.cast_mul, Nat.cast_pow, Nat.cast_ofNat]
    rfl
  rw [RoundsToNearestEven, hbound, abs_signed, Nat.abs_cast, Nat.cast_le, Nat.cast_lt]
  constructor
  · intro hm
    have hpos : 0 < m := Nat.lt_of_lt_of_le (by positivity) hm
    rw [hround, if_neg (by omega), decide_signed_neg sign (by omega)]
  · intro hm
    have hbits := hfin.mpr hm
    have hlt : e * 2 ^ 52 + roundedSig e q r < 2 ^ 63 := by omega
    rw [hround, if_pos hbits, b64IsFinite_pack sign hlt, b64Int_pack sign hlt, b64Frac_pack sign hlt,
      hcut.patternMag_rounded]
    refine ⟨hbits, fun c _ => ?_⟩
    obtain ⟨bits, hc⟩ := exists_patternMag c
    obtain ⟨hle, htie⟩ := roundedSig_nearest hcut ((natAbs_signed sign (b64Int c)).trans hc)
    rw [abs_signed_sub, abs_signed_sub, signed_mul, signed_mul, signed_signed]
    refine ⟨hle, fun heq hne => ?_⟩
    have heven := htie heq fun h => hne (by rw [← h, signed_signed])
    omega

theorem b64Sign_round (sign : Bool) (m : Nat) : b64Sign (b64Round sign m) = sign := by
  obtain ⟨e, q, r, -, hround⟩ := b64Round_cut sign m
  rw [hround]
  split
  · exact b64Sign_pack sign (by omega)
  · exact b64Sign_pack sign (by decide)

/-- A coarser unit: what is nearest to z units of k is nearest to z, when numbers are counted in units of k too. -/
theorem roundsToNearestEven_of_scaled {z : Int} {k : Nat} {v : Binary64} (hk : 0 < k)
    (h : RoundsToNearestEven (z * k) k v) : RoundsToNearestEven z 1 v := by
  have hk' : (0 : Int) < k := by exact_mod_cast hk
  obtain ⟨hover, hnear⟩ := h
  simp only [← sub_mul, abs_mul, Nat.abs_cast, mul_le_mul_iff_left₀ hk', mul_lt_mul_iff_left₀ hk',
    mul_left_inj' hk'.ne', mul_neg_iff, hk', hk'.not_gt, and_true, and_false, false_or] at hover hnear
  simpa only [RoundsToNearestEven, Nat.cast_one, mul_one] using ⟨hover, hnear⟩

/-! ### Kinds of patterns -/

section Kinds

variable {v : Binary64}

theorem not_nan_of_finite (h : b64IsFinite v = true) : b64IsNaN v = false := by
  simp_all [b64IsFinite, b64IsNaN]

theorem not_inf_of_finite (h : b64IsFinite v = true) : b64IsInf v = false := by
  simp_all [b64IsFinite, b64IsInf]

@[simp] theorem b64IsNaN_inf (p : Bool) : b64IsNaN (b64Inf p) = false := by cases p <;> decide
@[simp] theorem b64IsInf_inf (p : Bool) : b64IsInf (b64Inf p) = true := by cases p <;> decide
@[simp] theorem b64IsZero_inf (p : Bool) : b64IsZero (b64Inf p) = false := by cases p <;> decide
@[simp] theorem b64Sign_inf (p : Bool) : b64Sign (b64Inf p) = p := by cases p <;> decide
@[simp] theorem b64Neg_inf (p : Bool) : b64Neg (b64Inf p) = b64Inf (!p) := by cases p <;> decide

/-- A pattern is a finite number, a NaN, or the infinity of its sign. -/
theorem finite_or_nan_or_inf (v : Binary64) :
    b64IsFinite v = true ∨ b64IsNaN v = true ∨ v = b64Inf (b64Sign v) := by
  obtain ⟨sign, bits, hlt, rfl⟩ := exists_eq_pack v
  rw [b64IsFinite_pack sign hlt, b64IsNaN_pack sign hlt, b64Sign_pack sign hlt]
  rcases Nat.lt_trichotomy bits (2047 * 2 ^ 52) with h | rfl | h
  · exact .inl h
  · exact .inr (.inr rfl)
  · exact .inr (.inl h)

theorem b64IsZero_iff (v : Binary64) : b64IsZero v = true ↔ b64Int v = 0 := by
  obtain ⟨sign, bits, hlt, rfl⟩ := exists_eq_pack v
  have hzero : patternMag bits = 0 ↔ bits = 0 := patternMag_strictMono.injective.eq_iff' rfl
  rw [b64IsZero_pack sign hlt, b64Int_pack sign hlt, ← hzero]
  cases sign <;> simp [signed]

theorem b64IsFinite_neg (v : Binary64) : b64IsFinite (b64Neg v) = b64IsFinite v := by
  obtain ⟨sign, bits, hlt, rfl⟩ := exists_eq_pack v
  rw [b64Neg_pack sign hlt, Bool.eq_iff_iff, b64IsFinite_pack _ hlt, b64IsFinite_pack _ hlt]

theorem b64Sign_neg (v : Binary64) : b64Sign (b64Neg v) = !b64Sign v := by
  obtain ⟨sign, bits, hlt, rfl⟩ := exists_eq_pack v
  rw [b64Neg_pack sign hlt, b64Sign_pack _ hlt, b64Sign_pack _ hlt]

theorem b64Int_neg (v : Binary64) : b64Int (b64Neg v) = -b64Int v := by
  obtain ⟨sign, bits, hlt, rfl⟩ := exists_eq_pack v
  rw [b64Neg_pack sign hlt, b64Int_pack _ hlt, b64Int_pack _ hlt]
  cases sign <;> simp [signed]

/-- `b64ToNaN` sets the exponent field to all ones, and the fraction's lowest bit where the fraction is zero. -/
theorem b64IsNaN_toNaN (v : Binary64) : b64IsNaN (b64ToNaN v) = true := by
  have hexp : ∀ c : Binary64, c.extractLsb' 52 11 = BitVec.allOnes 11 → b64Exp (v ||| c) = 2047 := by
    intro c hc
    rw [b64Exp, BitVec.extractLsb'_or, hc, BitVec.or_allOnes]
    rfl
  have hfrac : ∀ c : Binary64, b64Frac (v ||| c) = b64Frac v ||| (c.extractLsb' 0 52).toNat := by
    intro c
    rw [b64Frac, BitVec.extractLsb'_or, BitVec.toNat_or, b64Frac]
  unfold b64ToNaN b64IsNaN
  split
  · rename_i h
    rw [hexp _ (by decide), hfrac, h]
    decide
  · rename_i h
    rw [hexp _ (by decide), hfrac]
    simpa using h

theorem b64IsNaN_nan (op : ArithOp) (a b : Binary64) : b64IsNaN (b64NaN op a b) = true := b64IsNaN_toNaN _

end Kinds

/-! ### Sums and differences -/

section Sums

variable {a b nan : Binary64}

theorem b64AddCore_finite (ha : b64IsFinite a = true) (hb : b64IsFinite b = true) :
    b64AddCore a b nan =
      b64Round (if b64Int a + b64Int b = 0 then b64Sign a && b64Sign b else decide (b64Int a + b64Int b < 0))
        ((b64Int a + b64Int b).natAbs * 2 ^ 1074) := by
  simp only [b64AddCore, not_inf_of_finite ha, not_inf_of_finite hb, Bool.false_eq_true, if_false]

theorem b64Sign_addCore (ha : b64IsFinite a = true) (hb : b64IsFinite b = true) :
    b64Sign (b64AddCore a b nan) =
      if b64Int a + b64Int b = 0 then b64Sign a && b64Sign b else decide (b64Int a + b64Int b < 0) := by
  rw [b64AddCore_finite ha hb, b64Sign_round]

theorem signed_natAbs (z : Int) (s : Bool) : signed (if z = 0 then s else decide (z < 0)) z.natAbs = z := by
  unfold signed
  by_cases h : z = 0
  · simp [h]
  · rw [if_neg h]
    split <;> rename_i hs <;> rw [decide_eq_true_eq] at hs <;> omega

theorem b64AddCore_nearest (ha : b64IsFinite a = true) (hb : b64IsFinite b = true) :
    RoundsToNearestEven (b64Int a + b64Int b) 1 (b64AddCore a b nan) := by
  rw [b64AddCore_finite ha hb]
  have h := b64Round_nearest
    (if b64Int a + b64Int b = 0 then b64Sign a && b64Sign b else decide (b64Int a + b64Int b < 0))
    ((b64Int a + b64Int b).natAbs * 2 ^ 1074)
  rw [Nat.cast_mul, signed_mul, signed_natAbs] at h
  exact roundsToNearestEven_of_scaled (by positivity) h

theorem b64AddCore_inf_left (p : Bool) (hb : b64IsFinite b = true) : b64AddCore (b64Inf p) b nan = b64Inf p := by
  simp [b64AddCore, not_inf_of_finite hb]

theorem b64AddCore_inf_right (p : Bool) (ha : b64IsFinite a = true) : b64AddCore a (b64Inf p) nan = b64Inf p := by
  simp [b64AddCore, not_inf_of_finite ha]

theorem b64AddCore_inf_inf (p q : Bool) : b64AddCore (b64Inf p) (b64Inf q) nan = if p = q then b64Inf p else nan := by
  cases p <;> cases q <;> simp [b64AddCore]

theorem b64Add_of_not_nan (ha : b64IsNaN a = false) (hb : b64IsNaN b = false) :
    b64Add a b = b64AddCore a b (b64NaN .add a b) := by
  simp [b64Add, ha, hb]

theorem b64Sub_of_not_nan (ha : b64IsNaN a = false) (hb : b64IsNaN b = false) :
    b64Sub a b = b64AddCore a (b64Neg b) (b64NaN .sub a b) := by
  simp [b64Sub, ha, hb]

end Sums

/-! ### Products -/

section Products

variable {a b : Binary64}

theorem b64Mul_finite (ha : b64IsFinite a = true) (hb : b64IsFinite b = true) :
    b64Mul a b = b64Round (b64Sign a != b64Sign b) (b64Mag a * b64Mag b) := by
  simp [b64Mul, not_nan_of_finite ha, not_nan_of_finite hb, not_inf_of_finite ha, not_inf_of_finite hb]

theorem signed_mul_signed (s t : Bool) (x y : Int) : signed s x * signed t y = signed (s != t) (x * y) := by
  cases s <;> cases t <;> simp [signed]

theorem b64Mul_nearest (ha : b64IsFinite a = true) (hb : b64IsFinite b = true) :
    RoundsToNearestEven (b64Int a * b64Int b) (2 ^ 1074) (b64Mul a b) := by
  rw [b64Mul_finite ha hb, b64Int_eq_signed, b64Int_eq_signed, signed_mul_signed, ← Nat.cast_mul]
  exact b64Round_nearest _ _

theorem b64Mul_of_not_nan (ha : b64IsNaN a = false) (hb : b64IsNaN b = false) :
    b64Mul a b =
      if (b64IsInf a && b64IsZero b) || (b64IsZero a && b64IsInf b) then b64NaN .mul a b
      else if b64IsInf a || b64IsInf b then b64Inf (b64Sign a != b64Sign b)
      else b64Round (b64Sign a != b64Sign b) (b64Mag a * b64Mag b) := by
  simp only [b64Mul, ha, hb, Bool.or_self, Bool.false_eq_true, if_false]

/-- An infinity times a finite number, in both orders. -/
theorem b64Mul_inf_finite (p : Bool) (ha : b64IsFinite a = true) :
    (b64Int a ≠ 0 → b64Mul (b64Inf p) a = b64Inf (p != b64Sign a) ∧ b64Mul a (b64Inf p) = b64Inf (b64Sign a != p)) ∧
    (b64Int a = 0 → b64IsNaN (b64Mul (b64Inf p) a) = true ∧ b64IsNaN (b64Mul a (b64Inf p)) = true) := by
  have hn := not_nan_of_finite ha
  rw [b64Mul_of_not_nan (b64IsNaN_inf p) hn, b64Mul_of_not_nan hn (b64IsNaN_inf p), ← b64IsZero_iff, ne_eq,
    ← b64IsZero_iff]
  cases hz : b64IsZero a <;> simp [not_inf_of_finite ha, b64IsNaN_nan]

theorem b64Mul_inf_inf (p q : Bool) : b64Mul (b64Inf p) (b64Inf q) = b64Inf (p != q) := by
  simp [b64Mul_of_not_nan]

end Products

/-! ### Operands that are no numbers -/

theorem nan_of_nan_operand {a b : Binary64} (h : b64IsNaN a = true ∨ b64IsNaN b = true) :
    b64IsNaN (b64Add a b) = true ∧ b64IsNaN (b64Sub a b) = true ∧ b64IsNaN (b64Mul a b) = true := by
  have hor : (b64IsNaN a || b64IsNaN b) = true := Bool.or_eq_true_iff.mpr h
  unfold b64Add b64Sub b64Mul
  simp only [hor, if_true]
  exact ⟨b64IsNaN_nan _ a b, b64IsNaN_nan _ a b, b64IsNaN_nan _ a b⟩

/-! ### The clauses of the statement -/

/-- Finite operands: all three results are rounded, with the sign of the exact result. -/
theorem finite_results {a b : Binary64} (ha : b64IsFinite a = true) (hb : b64IsFinite b = true) :
    RoundsToNearestEven (b64Int a + b64Int b) 1 (b64Add a b) ∧
    RoundsToNearestEven (b64Int a - b64Int b) 1 (b64Sub a b) ∧
    RoundsToNearestEven (b64Int a * b64Int b) (2 ^ 1074) (b64Mul a b) ∧
    b64Sign (b64Add a b) =
      (if b64Int a + b64Int b = 0 then b64Sign a && b64Sign b else decide (b64Int a + b64Int b < 0)) ∧
    b64Sign (b64Sub a b) =
      (if b64Int a - b64Int b = 0 then b64Sign a && !b64Sign b else decide (b64Int a - b64Int b < 0)) ∧
    b64Sign (b64Mul a b) = (b64Sign a != b64Sign b) := by
  have hna := not_nan_of_finite ha
  have hnb := not_nan_of_finite hb
  have hneg : b64IsFinite (b64Neg b) = true := b64IsFinite_neg b ▸ hb
  rw [b64Add_of_not_nan hna hnb, b64Sub_of_not_nan hna hnb, sub_eq_add_neg, ← b64Int_neg, ← b64Sign_neg]
  refine ⟨b64AddCore_nearest ha hb, b64AddCore_nearest ha hneg, b64Mul_nearest ha hb, b64Sign_addCore ha hb,
    b64Sign_addCore ha hneg, ?_⟩
  rw [b64Mul_finite ha hb, b64Sign_round]

/-- An infinity beside a finite number. -/
theorem inf_finite_results (p : Bool) {v : Binary64} (hv : b64IsFinite v = true) :
    b64Add (b64Inf p) v = b64Inf p ∧ b64Add v (b64Inf p) = b64Inf p ∧
    b64Sub (b64Inf p) v = b64Inf p ∧ b64Sub v (b64Inf p) = b64Inf (!p) := by
  have hn := not_nan_of_finite hv
  have hneg : b64IsFinite (b64Neg v) = true := b64IsFinite_neg v ▸ hv
  rw [b64Add_of_not_nan (b64IsNaN_inf p) hn, b64Add_of_not_nan hn (b64IsNaN_inf p),
    b64Sub_of_not_nan (b64IsNaN_inf p) hn, b64Sub_of_not_nan hn (b64IsNaN_inf p), b64Neg_inf]
  exact ⟨b64AddCore_inf_left p hv, b64AddCore_inf_right p hv, b64AddCore_inf_left p hneg, b64AddCore_inf_right _ hv⟩

/-- Two infinities: they cancel where the addends' signs differ. -/
theorem inf_inf_results (p q : Bool) :
    (p = q → b64Add (b64Inf p) (b64Inf q) = b64Inf p ∧ b64IsNaN (b64Sub (b64Inf p) (b64Inf q)) = true) ∧
    (p ≠ q → b64IsNaN (b64Add (b64Inf p) (b64Inf q)) = true ∧ b64Sub (b64Inf p) (b64Inf q) = b64Inf p) := by
  rw [b64Add_of_not_nan (b64IsNaN_inf p) (b64IsNaN_inf q), b64Sub_of_not_nan (b64IsNaN_inf p) (b64IsNaN_inf q),
    b64Neg_inf, b64AddCore_inf_inf, b64AddCore_inf_inf]
  by_cases h : p = q
  · subst h
    simp [b64IsNaN_nan]
  · simp [Bool.eq_not.mpr h, b64IsNaN_nan]

/-- Settles O38: rounding chooses between the two successive patterns around the exact magnitude, and no number lies between
those. -/
theorem binary64RoundsToNearestEven : Obligations.Binary64RoundsToNearestEven :=
  ⟨fun _ _ ha hb => finite_results ha hb, finite_or_nan_or_inf, by decide, by decide, fun _ _ h => nan_of_nan_operand h,
    fun p _ hv =>
      have ⟨h1, h2, h3, h4⟩ := inf_finite_results p hv
      ⟨h1, h2, h3, h4, b64Mul_inf_finite p hv⟩,
    fun p q => ⟨b64Mul_inf_inf p q, inf_inf_results p q⟩⟩

end Sys2Proof.Binary64Rounding

/-! SUPPORT. The host's register reads (`10_state.md` R51 to R55). -/

namespace Sys2Proof.HostRegisters

open Sys2Proof.Machine
open Sys2Proof.Safety (afterFault)

/-- A fault raised with the given cause and fields is the state `afterFault` names. -/
theorem raise_eq_afterFault (s : State) (w : Word) (f : Raised) :
    s.raise w f = afterFault s w f.cause.code f.cell f.sec f.stage := by
  unfold afterFault
  split
  · exact State.raise_of_faulted s w f ‹_›
  · exact State.raise_of_running s w f ‹_›

/-! ### RDREG -/

theorem exec_rdreg_of_some {s : State} {r : BitVec 8} {v : Word} (h : s.readReg r = some v) :
    exec (.rdreg r) s = .next (s.respondWord v) := by
  simp only [exec, execRdreg, h]

theorem exec_rdreg_of_none {s : State} {r : BitVec 8} (h : s.readReg r = none) :
    exec (.rdreg r) s = .next (afterFault s (encode (.rdreg r)) 0x04 0 r 0) := by
  simp only [exec, execRdreg, h, raise_eq_afterFault]
  rfl

theorem numericsCode_eq (num : Numerics) : Numerics.code num = if num = .ideal then 0#32 else 1#32 := by
  cases num <;> rfl

/-- The numbers from 0x0E on are reserved. -/
theorem readReg_of_reserved (s : State) {r : BitVec 8} (h : 0x0D < r.toNat) : s.readReg r = none := by
  unfold State.readReg
  split
  case h_15 => rfl
  all_goals omega

/-- CYC_LO and CYC_HI are the halves of CYC. -/
theorem cyc_halves (x : BitVec 64) :
    x.extractLsb' 0 32 = x.setWidth 32 ∧ x.extractLsb' 32 32 = (x >>> 32).setWidth 32 :=
  ⟨by simp [BitVec.setWidth_eq_extractLsb'], by ext i hi; simp⟩

/-- Settles O19, register by register. -/
theorem rdregReturnsRegister : Obligations.RdregReturnsRegister := by
  intro s
  refine ⟨?_, fun r hr => exec_rdreg_of_none (readReg_of_reserved s hr)⟩
  obtain ⟨hlo, hhi⟩ := cyc_halves s.cyc
  simp only [List.forall_mem_cons, ← hlo, ← hhi, ← numericsCode_eq]
  exact ⟨rfl, rfl, rfl, rfl, rfl, rfl, rfl, rfl, rfl, rfl, rfl, rfl, rfl, rfl, List.forall_mem_nil _⟩

/-! ### STATUS -/

/-- Every bit of STATUS, from the bits of PHASE up. -/
theorem getLsbD_statusWord (s : State) (i : Nat) : s.statusWord.getLsbD i =
    if i < 3 then s.phase.code.getLsbD i else if i = 3 then s.roundKind else if i = 4 then s.retired0
    else if i = 5 then s.phase == .fault else false := by
  show (0#26 ++ (BitVec.ofBool (s.phase == .fault) ++ (BitVec.ofBool s.retired0 ++
    (BitVec.ofBool s.roundKind ++ s.phase.code)))).getLsbD i = _
  simp only [BitVec.getLsbD_append]
  rcases Nat.lt_or_ge i 6 with hlow | hzero
  · interval_cases i <;> simp
  · obtain ⟨j, rfl⟩ := Nat.exists_eq_add_of_le' hzero
    simp

/-- Settles O20: each field is read off the bits of STATUS. -/
theorem statusLayout : Obligations.StatusLayout := by
  refine ⟨fun s => ⟨?_, ?_, ?_, ?_, ?_⟩, fun cfg => ?_⟩
  · apply BitVec.eq_of_getLsbD_eq
    intro i hi
    simp [getLsbD_statusWord, hi]
  · rw [getLsbD_statusWord]
    rfl
  · rw [getLsbD_statusWord]
    rfl
  · rw [getLsbD_statusWord]
    exact beq_iff_eq
  · apply BitVec.eq_of_getLsbD_eq
    intro i hi
    rw [BitVec.getLsbD_extractLsb', getLsbD_statusWord]
    simp [show ¬ 6 + i < 3 by omega, show 6 + i ≠ 3 by omega, show 6 + i ≠ 4 by omega, show 6 + i ≠ 5 by omega]
  · apply BitVec.eq_of_getLsbD_eq
    intro i hi
    simp [getLsbD_statusWord, Phase.code]

/-! ### RDCELL -/

theorem exec_rdcell_of_some {s : State} {c sel : BitVec 8} {v : Word} (hc : c.toNat < s.cfg.arraySize)
    (h : (s.cell c.toNat).select sel = some v) : exec (.rdcell c sel) s = .next (s.respondWord v) := by
  simp only [exec, execRdcell, State.cellInRange, hc, decide_true, if_true, h]

/-- The selectors from 5 on are reserved. -/
theorem select_of_reserved (k : Cell) {sel : BitVec 8} (h : 4 < sel.toNat) : k.select sel = none := by
  unfold Cell.select
  split
  case h_6 => rfl
  all_goals omega

theorem exec_rdcell_of_range {s : State} {c sel : BitVec 8} (h : s.cfg.arraySize ≤ c.toNat ∨ 4 < sel.toNat) :
    exec (.rdcell c sel) s = .next (afterFault s (encode (.rdcell c sel)) 0x04 c sel 0) := by
  have hnone : (if s.cellInRange c then (s.cell c.toNat).select sel else none) = none := by
    rcases h with hc | hsel
    · simp [State.cellInRange, Nat.not_lt.mpr hc]
    · simp [select_of_reserved _ hsel]
  simp only [exec, execRdcell, hnone, raise_eq_afterFault]
  rfl

/-- The encoding of an external source as a number. -/
theorem toNat_code_ext {r : Nat} (hr : r < 256) : (Src.ext r).code.toNat = 256 * r + 1 := by
  simp only [Src.code, BitVec.toNat_append, BitVec.toNat_ofNat]
  rw [Nat.mod_eq_of_lt hr, ← Nat.shiftLeft_add_eq_or_of_lt (b := 1 % 2 ^ 8) (by norm_num),
    ← Nat.shiftLeft_add_eq_or_of_lt (i := 16) (by omega), Nat.shiftLeft_eq, Nat.shiftLeft_eq]
  omega

/-- Settles O23, selector by selector. -/
theorem rdcellReturnsSelected : Obligations.RdcellReturnsSelected := by
  intro s c sel
  refine ⟨fun hc => ⟨?_, (s.cell c.toNat).src.code, exec_rdcell_of_some hc rfl, ?_, ?_, ?_⟩, exec_rdcell_of_range⟩
  · simp only [List.forall_mem_cons]
    exact ⟨exec_rdcell_of_some hc rfl, exec_rdcell_of_some hc rfl, exec_rdcell_of_some hc rfl,
      exec_rdcell_of_some hc rfl, List.forall_mem_nil _⟩
  · intro h
    rw [h]
    rfl
  · intro h
    rw [h]
    rfl
  · intro r h hr
    rw [h]
    exact toNat_code_ext hr

end Sys2Proof.HostRegisters

/-! SUPPORT. What a step can do, once: take an input off the port, reset, respond, push a sample, complete stages of the
arbiter one after the other, and take a fault. A property that each of these keeps is kept by every step. -/

namespace Sys2Proof.StepEffects

open Sys2Proof.Machine
open Sys2Proof.NumberDomain (roundStages_eq_bind runRounds_succ_eq_bind runBody_eq_bind)

/-! ### Stages -/

/-- FINALIZE on a state (`42_array_commands.md` R177). -/
def finalized (s : State) : State :=
  { s with result := s.runOutput, retired0 := true, resultCount := BitVec.ofNat 16 s.cfg.arraySize, phase := .done }

/-- A stage command or FINALIZE that completes in its PHASE (`42_array_commands.md` R171 to R174, R177). -/
inductive StageMove (s : State) : State → Prop
  | connect (h : s.phase = .connect) : StageMove s
      { forCells (connectCell s.isLoadRound) { s with active := s.nextActive } with
        roundKind := s.isLoadRound, phase := .read }
  | read (h : s.phase = .read) : StageMove s { forCells readCell s with phase := .compute }
  | compute (h : s.phase = .compute) : StageMove s { forCells computeCell s with phase := .shift }
  | shift (h : s.phase = .shift) : StageMove s { forCells shiftCell s with iter := s.iter + 1, phase := .connect }
  | finalize (h : s.phase = .connect) : StageMove s (finalized s)

/-- Stages completed one after the other. -/
abbrev Stages : State → State → Prop := Relation.ReflTransGen StageMove

/-- What a body can answer from `s`: the state some stages later, or a fault raised there. E_FAULTED is no fault of a
body. -/
def Answers (s : State) : StageResult → Prop
  | .ok t => Stages s t
  | .error (t, f) => Stages s t ∧ f.cause ≠ .faulted

section Bodies

variable {s : State}

/-- A check that fails at the start of a body. -/
theorem answers_error {f : Raised} (h : f.cause ≠ .faulted) : Answers s (.error (s, f)) := ⟨.refl, h⟩

theorem StageMove.answers {t : State} (h : StageMove s t) : Answers s (.ok t) := .single h

/-- One body after another: the first fault ends the sequence. -/
theorem Answers.bind {r : StageResult} {body : State → StageResult} (hr : Answers s r)
    (hbody : ∀ t, Answers t (body t)) : Answers s (r.bind body) := by
  cases r with
  | error e => exact hr
  | ok t =>
    show Answers s (body t)
    have ht := hbody t
    cases hb : body t with
    | ok u =>
      rw [hb] at ht
      exact Relation.ReflTransGen.trans hr ht
    | error e =>
      rw [hb] at ht
      exact ⟨Relation.ReflTransGen.trans hr ht.1, ht.2⟩

theorem loadFault_cause {f : Raised} (h : loadFault s = some f) : f.cause ≠ .faulted := by
  unfold loadFault at h
  split at h
  · cases h
    simp
  · obtain ⟨c, -, rfl⟩ := Option.map_eq_some_iff.mp h
    simp

theorem readFault_cause {f : Raised} (h : readFault s = some f) : f.cause ≠ .faulted := by
  unfold readFault at h
  split at h
  · cases h
    simp
  · obtain ⟨c, -, rfl⟩ := Option.map_eq_some_iff.mp h
    simp

theorem connectBody_answers (s : State) : Answers s (connectBody s) := by
  obtain ⟨-, hb⟩ | ⟨-, f, hf, hb⟩ | ⟨hp, -, hb⟩ := connectBody_cases s <;> rw [hb]
  · exact answers_error (by decide)
  · split at hf
    · exact answers_error (loadFault_cause hf)
    · cases hf
  · exact (StageMove.connect hp).answers

theorem readBody_answers (s : State) : Answers s (readBody s) := by
  obtain ⟨-, hb⟩ | ⟨-, f, hf, hb⟩ | ⟨hp, -, hb⟩ := readBody_cases s <;> rw [hb]
  · exact answers_error (by decide)
  · exact answers_error (readFault_cause hf)
  · exact (StageMove.read hp).answers

theorem computeBody_answers (s : State) : Answers s (computeBody s) := by
  obtain ⟨-, hb⟩ | ⟨-, c, -, hb⟩ | ⟨hp, -, hb⟩ := computeBody_cases s <;> rw [hb]
  · exact answers_error (by decide)
  · exact answers_error (by simp)
  · exact (StageMove.compute hp).answers

theorem shiftBody_answers (s : State) : Answers s (shiftBody s) := by
  obtain ⟨-, hb⟩ | ⟨-, c, -, hb⟩ | ⟨hp, -, hb⟩ := shiftBody_cases s <;> rw [hb]
  · exact answers_error (by decide)
  · exact answers_error (by simp)
  · exact (StageMove.shift hp).answers

theorem finalizeBody_answers (s : State) : Answers s (finalizeBody s) := by
  unfold finalizeBody
  split
  · exact answers_error (by decide)
  · rename_i hp
    exact (StageMove.finalize (not_not.mp hp)).answers

theorem roundStages_answers (s : State) : Answers s (roundStages s) := by
  rw [roundStages_eq_bind]
  exact (connectBody_answers s).bind fun s1 => (readBody_answers s1).bind fun s2 =>
    (computeBody_answers s2).bind shiftBody_answers

theorem roundBody_answers (s : State) : Answers s (roundBody s) := by
  unfold roundBody
  split
  · exact answers_error (by decide)
  · exact roundStages_answers s

theorem runRounds_answers (n : Nat) (s : State) : Answers s (runRounds n s) := by
  induction n generalizing s with
  | zero => exact Relation.ReflTransGen.refl
  | succ n ih =>
    rw [runRounds_succ_eq_bind]
    exact (roundStages_answers s).bind ih

theorem runBody_answers (n : BitVec 16) (s : State) : Answers s (runBody n s) := by
  rw [runBody_eq_bind]
  split
  · exact answers_error (by decide)
  · exact (runRounds_answers n.toNat s).bind finalizeBody_answers

end Bodies

/-! ### Commands -/

/-- The state after a command. Every read command and every refusal is a response, and a check that fails at the start of
a command is a fault after no stage. -/
inductive CommandEffect (s : State) : State → Prop
  | respond (r : Response) : CommandEffect s { s with rsp := r }
  | push (r c : Nat) (hroom : (s.queue r c).length ≠ s.cfg.qdepth) :
      CommandEffect s (s.setQueue r c (fifoPush s.cfg.qdepth (s.queue r c) s.operand)).respondOk
  | complete {t : State} (ht : Stages s t) : CommandEffect s t.respondOk
  | fault {t : State} (ht : Stages s t) (w : Word) (f : Raised) (hf : f.cause ≠ .faulted) : CommandEffect s (t.raise w f)

section Commands

variable {s : State}

/-- A command that fails a check of its own. -/
theorem CommandEffect.raise (w : Word) {f : Raised} (hf : f.cause ≠ .faulted) : CommandEffect s (s.raise w f) :=
  .fault .refl w f hf

theorem rangeFault_cause (c sec : BitVec 8) : (rangeFault c sec).cause ≠ .faulted := by simp [rangeFault]

theorem stageCommand_effect (w : Word) {body : State → StageResult} (hbody : Answers s (body s)) :
    CommandEffect s (stageCommand w body s) := by
  obtain ⟨-, hs⟩ | ⟨-, t, hb, hs⟩ | ⟨-, t, f, hb, hs⟩ := stageCommand_cases w body s <;> rw [hs]
  · exact .respond _
  · rw [hb] at hbody
    exact .complete hbody
  · rw [hb] at hbody
    exact .fault hbody.1 w f hbody.2

theorem qpush_effect (r c : BitVec 8) : ∃ t, execQpush r c s = .next t ∧ CommandEffect s t := by
  refine ⟨_, rfl, ?_⟩
  split
  · exact .respond _
  · split
    · exact .raise _ (rangeFault_cause c r)
    · split
      · exact .raise _ (by simp)
      · exact .push _ _ ‹_›

theorem readElem_effect (w : Word) (c : BitVec 8) (i : BitVec 16) (fifo : Cell → List Sample) :
    CommandEffect s (readElem w c i fifo s) := by
  unfold readElem
  split
  · exact .respond _
  · exact .raise _ (rangeFault_cause _ _)

/-- What each command can do. -/
theorem exec_effect (i : Instr) (s : State) : ∃ t, exec i s = .next t ∧ CommandEffect s t := by
  cases i with
  | nop => exact ⟨_, rfl, .respond _⟩
  | qpush r c => exact qpush_effect r c
  | connect => exact ⟨_, rfl, stageCommand_effect _ (connectBody_answers s)⟩
  | read => exact ⟨_, rfl, stageCommand_effect _ (readBody_answers s)⟩
  | compute => exact ⟨_, rfl, stageCommand_effect _ (computeBody_answers s)⟩
  | shift => exact ⟨_, rfl, stageCommand_effect _ (shiftBody_answers s)⟩
  | round => exact ⟨_, rfl, stageCommand_effect _ (roundBody_answers s)⟩
  | run n => exact ⟨_, rfl, stageCommand_effect _ (runBody_answers n s)⟩
  | finalize => exact ⟨_, rfl, stageCommand_effect _ (finalizeBody_answers s)⟩
  | rdreg _ | rdres _ _ | rdalpha _ _ _ | rdcell _ _ | rdqlen _ _ =>
    refine ⟨_, rfl, ?_⟩
    split
    · exact .respond _
    · exact .raise _ (rangeFault_cause _ _)
  | rdraw c j => exact ⟨_, rfl, readElem_effect _ c j _⟩
  | rdconj c j => exact ⟨_, rfl, readElem_effect _ c j _⟩
  | rdshift c j => exact ⟨_, rfl, readElem_effect _ c j _⟩

end Commands

/-! ### The step -/

/-- The state after a step: idle, the reset event, or a command (`60_exceptions.md` R262, `70_reset_and_hazards.md` R270,
R281). -/
inductive StepEffect (s : State) : State → Prop
  | idle : StepEffect s s
  | reset (rest : List HostInput) : StepEffect s { s with port := rest }.hostReset
  | command (rest : List HostInput) (d : Sample) {t : State}
      (h : CommandEffect { s with port := rest, operand := d } t) : StepEffect s t

theorem step_effect {s t : State} (ht : step s = .next t) : StepEffect s t := by
  unfold step at ht
  split at ht
  case isFalse => cases ht
  case isTrue =>
    obtain ⟨-, ha⟩ | ⟨rest, -, ha⟩ | ⟨w, d, rest, -, -, ha⟩ | ⟨w, d, rest, -, -, ha⟩ := s.accept_cases <;>
      simp only [ha] at ht
    · cases ht
      exact .idle
    · cases ht
      exact .reset rest
    · split at ht
      · rename_i i _
        obtain ⟨t', ht', h⟩ := exec_effect i { s with port := rest, operand := d }
        cases ht'.symm.trans ht
        exact .command rest d h
      · cases ht
        exact .command rest d (.raise w (by simp))
    · cases ht

/-- A property kept by everything a step is made of. -/
structure Kept (P : State → Prop) : Prop where
  input : ∀ s rest d, P s → P { s with port := rest, operand := d }
  reset : ∀ s, P s → P s.hostReset
  respond : ∀ s r, P s → P { s with rsp := r }
  push : ∀ s r c, P s → (s.queue r c).length ≠ s.cfg.qdepth →
    P (s.setQueue r c (fifoPush s.cfg.qdepth (s.queue r c) s.operand))
  stage : ∀ s t, P s → StageMove s t → P t
  raise : ∀ s w f, P s → f.cause ≠ .faulted → P (s.raise w f)

section Kept

variable {P : State → Prop} {s t : State}

theorem Kept.stages (hP : Kept P) (hs : P s) (ht : Stages s t) : P t := by
  induction ht with
  | refl => exact hs
  | tail _ hmove ih => exact hP.stage _ _ ih hmove

theorem Kept.command (hP : Kept P) (hs : P s) (ht : CommandEffect s t) : P t := by
  cases ht with
  | respond r => exact hP.respond s r hs
  | push r c hroom => exact hP.respond _ _ (hP.push s r c hs hroom)
  | complete hst => exact hP.respond _ _ (hP.stages hs hst)
  | fault hst w f hf => exact hP.raise _ w f (hP.stages hs hst) hf

theorem Kept.step (hP : Kept P) (hs : P s) (ht : step s = .next t) : P t := by
  cases step_effect ht with
  | idle => exact hs
  | reset rest => exact hP.reset _ (hP.input s rest s.operand hs)
  | command rest d h => exact hP.command (hP.input s rest d hs) h

end Kept

/-! ### What the loops leave alone -/

theorem connectCell_storesOf (load : Bool) (c : Nat) (s : State) : StoresOf s (connectCell load c s) := by
  rw [connectCell_eq]
  rfl

theorem readCell_storesOf (c : Nat) (s : State) : StoresOf s (readCell c s) := by
  unfold readCell
  split
  · exact StoresOf.refl s
  · rfl
  · split
    · exact StoresOf.refl s
    · rfl

theorem computeCell_storesOf (c : Nat) (s : State) : StoresOf s (computeCell c s) := rfl

theorem shiftCell_storesOf (c : Nat) (s : State) : StoresOf s (shiftCell c s) := rfl

theorem forCells_storesOf {f : Nat → State → State} (hf : ∀ c t, StoresOf t (f c t)) (s : State) :
    StoresOf s (forCells f s) :=
  forCells_induct (P := StoresOf s) (StoresOf.refl s) fun c t _ ht => ht.trans (hf c t)

/-- The configuration and the registers that no stage of a round writes (`20_memory.md` R72). -/
structure SameRegisters (s t : State) : Prop where
  cfg : t.cfg = s.cfg
  retired0 : t.retired0 = s.retired0
  resultCount : t.resultCount = s.resultCount
  result : t.result = s.result
  faultCause : t.faultCause = s.faultCause
  faultCmd : t.faultCmd = s.faultCmd
  faultInfo : t.faultInfo = s.faultInfo

theorem sameRegisters_of_storesOf {s t : State} (h : StoresOf s t) : SameRegisters s t :=
  ⟨by rw [h], by rw [h], by rw [h], by rw [h], by rw [h], by rw [h], by rw [h]⟩

/-- A completed stage is FINALIZE, or one of a round, which leaves the registers alone. -/
theorem StageMove.cases_registers {s t : State} (h : StageMove s t) :
    t = finalized s ∨ (SameRegisters s t ∧ t.phase ≠ .done) := by
  cases h with
  | finalize => exact .inl rfl
  | connect =>
    exact .inr ⟨{ sameRegisters_of_storesOf
      (forCells_storesOf (connectCell_storesOf s.isLoadRound) { s with active := s.nextActive }) with }, nofun⟩
  | read => exact .inr ⟨{ sameRegisters_of_storesOf (forCells_storesOf readCell_storesOf s) with }, nofun⟩
  | compute => exact .inr ⟨{ sameRegisters_of_storesOf (forCells_storesOf computeCell_storesOf s) with }, nofun⟩
  | shift => exact .inr ⟨{ sameRegisters_of_storesOf (forCells_storesOf shiftCell_storesOf s) with }, nofun⟩

theorem StageMove.cfg {s t : State} (h : StageMove s t) : t.cfg = s.cfg := by
  obtain rfl | ⟨hsame, -⟩ := h.cases_registers
  · rfl
  · exact hsame.cfg

/-- A stage starts in a PHASE of a round and takes no fault. -/
theorem StageMove.phases {s t : State} (h : StageMove s t) :
    (s.phase = .connect ∨ s.phase = .read ∨ s.phase = .compute ∨ s.phase = .shift) ∧ t.phase ≠ .fault := by
  cases h with
  | connect hp => exact ⟨.inl hp, nofun⟩
  | read hp => exact ⟨.inr (.inl hp), nofun⟩
  | compute hp => exact ⟨.inr (.inr (.inl hp)), nofun⟩
  | shift hp => exact ⟨.inr (.inr (.inr hp)), nofun⟩
  | finalize hp => exact ⟨.inl hp, nofun⟩

/-! ### The configuration -/

theorem kept_cfg (cfg : Config) : Kept fun s => s.cfg = cfg where
  input := fun _ _ _ h => h
  reset := fun _ h => h
  respond := fun _ _ h => h
  push := fun _ _ _ h _ => h
  stage := fun _ _ h hmove => hmove.cfg.trans h
  raise := fun s w f h _ => (State.raise_cfg s w f).trans h

/-- Settles O59: nothing a step is made of writes the configuration. -/
theorem configurationNeverChanges : Obligations.ConfigurationNeverChanges :=
  fun s _ ht => (kept_cfg s.cfg).step rfl ht

end Sys2Proof.StepEffects

/-! SUPPORT. The block invariant (`10_state.md` R35, R39, R44, R49; `60_exceptions.md` R249): the stores keep their shape and
their capacities under every write, and a stage of a round keeps the result and the FAULT registers. -/

namespace Sys2Proof.BlockInvariant

open Sys2Proof.Machine Sys2Proof.StepEffects
open Sys2Proof.Safety (Shape FifoBounds ResultRegisters FaultRegisters BlockInv)

/-! ### FIFOs -/

section Fifos

variable {n : Nat} {f : List Sample}

theorem length_foldl_fifoPush_le (hn : 0 < n) (vs : List Sample) (h : f.length ≤ n) :
    (vs.foldl (fifoPush n) f).length ≤ n := by
  rw [foldl_fifoPush hn vs f h, List.length_drop, List.length_append]
  omega

/-- A predecessor read takes from one FIFO and pushes into another. -/
theorem length_moveSlots_le (hn : 0 < n) (j : Nat) {g : List Sample} (hf : f.length ≤ n) (hg : g.length ≤ n) :
    (moveSlots n j f g).1.length ≤ n ∧ (moveSlots n j f g).2.length ≤ n := by
  induction j generalizing f g with
  | zero => exact ⟨hf, hg⟩
  | succ j ih =>
    cases f with
    | nil => exact ⟨hf, hg⟩
    | cons v f =>
      have hpush := length_fifoPush v hn hg
      exact ih (by simp at hf; omega) (by omega)

end Fifos

/-! ### Cells -/

/-- No FIFO of a cell holds more than n samples: the cell's part of `FifoBounds`. -/
structure CellFits (n : Nat) (k : Cell) : Prop where
  raw : k.raw.length ≤ n
  conj : k.conj.length ≤ n
  shift : k.shift.length ≤ n

theorem cellFits_reset (n : Nat) (num : Numerics) : CellFits n (Cell.reset num) :=
  ⟨Nat.zero_le n, Nat.zero_le n, Nat.zero_le n⟩

/-- connect discards samples and selects a source: it pushes none. -/
theorem connectedCell_fits (cfg : Config) (load : Bool) (c : Nat) {n : Nat} {k : Cell} (h : CellFits n k) :
    CellFits n (connectedCell cfg load c k) := by
  have hclear : CellFits n (clearShift cfg.cellSize k) :=
    { h with
      shift := Nat.le_trans (List.drop_sublist ..).length_le h.shift
      conj := Nat.le_trans (List.drop_sublist ..).length_le h.conj }
  unfold connectedCell connectLoad
  split
  · split
    · exact { h with }
    · exact { hclear with }
  · split
    · exact h
    · exact { h with }

/-! ### The stores -/

/-- The stores' part of `BlockInv`. -/
structure StoresFit (s : State) : Prop where
  shape : Shape s
  cells : ∀ k ∈ s.cells, CellFits s.cfg.cellSize k
  extq : ∀ row ∈ s.extq, ∀ q ∈ row, q.length ≤ s.cfg.qdepth

theorem storesFit_iff {s : State} : StoresFit s ↔ Shape s ∧ FifoBounds s := by
  constructor
  · intro h
    exact ⟨h.shape, fun k hk => ⟨(h.cells k hk).raw, (h.cells k hk).conj, (h.cells k hk).shift⟩, h.extq⟩
  · rintro ⟨hshape, hcells, hextq⟩
    refine ⟨hshape, fun k hk => ?_, hextq⟩
    obtain ⟨hraw, hconj, hshift⟩ := hcells k hk
    exact ⟨hraw, hconj, hshift⟩

theorem storesFit_resetWith (cfg : Config) : StoresFit (State.resetWith cfg) where
  shape := ⟨List.length_replicate, List.length_replicate, List.length_replicate, fun _ hrow =>
    List.eq_of_mem_replicate hrow ▸ List.length_replicate⟩
  cells := fun _ hk => List.eq_of_mem_replicate hk ▸ cellFits_reset _ _
  extq := fun _ hrow q hq => by
    rw [List.eq_of_mem_replicate hrow] at hq
    rw [List.eq_of_mem_replicate hq]
    exact Nat.zero_le _

section Stores

variable {s : State}

theorem StoresFit.cell (h : StoresFit s) (c : Nat) : CellFits s.cfg.cellSize (s.cell c) := by
  rcases Nat.lt_or_ge c s.cells.length with hc | hc
  · exact h.cells _ (State.cell_mem hc)
  · rw [State.cell, List.getD_eq_default _ _ hc]
    exact cellFits_reset _ _

/-- The queues of row r, none when the row does not exist. -/
theorem StoresFit.row (h : StoresFit s) (r : Nat) : ∀ q ∈ s.extq.getD r [], q.length ≤ s.cfg.qdepth := by
  rcases Nat.lt_or_ge r s.extq.length with hr | hr
  · rw [List.getD_eq_getElem _ _ hr]
    exact h.extq _ (List.getElem_mem hr)
  · rw [List.getD_eq_default _ _ hr]
    simp

theorem StoresFit.queue (h : StoresFit s) (r c : Nat) : (s.queue r c).length ≤ s.cfg.qdepth := by
  unfold State.queue
  rcases Nat.lt_or_ge c (s.extq.getD r []).length with hc | hc
  · rw [List.getD_eq_getElem _ _ hc]
    exact h.row r _ (List.getElem_mem hc)
  · rw [List.getD_eq_default _ _ hc]
    exact Nat.zero_le _

theorem StoresFit.setCell {k : Cell} (h : StoresFit s) (c : Nat) (hk : CellFits s.cfg.cellSize k) :
    StoresFit (s.setCell c k) where
  shape := shape_setCell c k h.shape
  cells := fun k' hk' => by
    rcases List.mem_or_eq_of_mem_set hk' with hk' | rfl
    · exact h.cells k' hk'
    · exact hk
  extq := h.extq

theorem StoresFit.setQueue {q : List Sample} (h : StoresFit s) (r c : Nat) (hq : q.length ≤ s.cfg.qdepth) :
    StoresFit (s.setQueue r c q) where
  shape := shape_setQueue r c q h.shape
  cells := h.cells
  extq := fun row hrow p hp => by
    rcases List.mem_or_eq_of_mem_set hrow with hrow | rfl
    · exact h.extq row hrow p hp
    · rcases List.mem_or_eq_of_mem_set hp with hp | rfl
      · exact h.row r p hp
      · exact hq

theorem StoresFit.push (h : StoresFit s) (r c : Nat) (hroom : (s.queue r c).length ≠ s.cfg.qdepth) :
    StoresFit (s.setQueue r c (fifoPush s.cfg.qdepth (s.queue r c) s.operand)) := by
  have hlt := Nat.lt_of_le_of_ne (h.queue r c) hroom
  refine h.setQueue r c ?_
  rw [fifoPush_of_lt _ hlt, List.length_append]
  exact hlt

/-! #### The cell operations -/

theorem StoresFit.connectCell (h : StoresFit s) (load : Bool) (c : Nat) : StoresFit (connectCell load c s) := by
  rw [connectCell_eq]
  exact h.setCell c (connectedCell_fits _ load c (h.cell c))

theorem StoresFit.readExternal (h : StoresFit s) (r c : Nat) : StoresFit (readExternal r c s) := by
  have hn := cellSize_pos s.cfg
  have hqueue : ((s.queue r c).drop s.cfg.cellSize).length ≤ s.cfg.qdepth :=
    Nat.le_trans (List.drop_sublist ..).length_le (h.queue r c)
  rw [readExternal_eq (h.cell c).raw (h.cell c).conj]
  refine { (h.setQueue r c hqueue).setCell c ?_ with }
  exact { h.cell c with
    raw := Nat.le_of_eq (length_zeroFilled _ _ _)
    conj := Nat.le_of_eq (by rw [List.length_map, length_zeroFilled]; rfl) }

theorem StoresFit.readPredecessor (h : StoresFit s) (c : Nat) : StoresFit (readPredecessor c s) := by
  obtain ⟨hshift, hraw⟩ :=
    length_moveSlots_le (cellSize_pos s.cfg) s.cfg.cellSize (h.cell (c - 1)).shift (h.cell c).raw
  refine (h.setCell (c - 1) ?_).setCell c ?_
  · exact { h.cell (c - 1) with shift := hshift }
  · exact { h.cell c with raw := hraw }

theorem StoresFit.readCell (h : StoresFit s) (c : Nat) : StoresFit (readCell c s) := by
  unfold Machine.readCell
  split
  · exact h
  · exact h.readExternal _ c
  · split
    · exact h
    · exact h.readPredecessor c

theorem StoresFit.computeCell (h : StoresFit s) (c : Nat) : StoresFit (computeCell c s) := by
  rw [computeCell_eq, computedCell_eq]
  have hk (alpha alphaTop : Alpha) :
      CellFits s.cfg.cellSize { s.cell c with alpha := alpha, alphaTop := alphaTop } := { h.cell c with }
  exact { h.setCell c (hk _ _) with }

theorem StoresFit.shiftCell (h : StoresFit s) (c : Nat) : StoresFit (shiftCell c s) := by
  unfold Machine.shiftCell
  simp only [drainRaw_eq]
  have hk : CellFits s.cfg.cellSize { s.cell c with
      raw := [], shift := (s.cell c).raw.foldl (fifoPush s.cfg.cellSize) (s.cell c).shift } :=
    { h.cell c with
      raw := Nat.zero_le _
      shift := length_foldl_fifoPush_le (cellSize_pos s.cfg) _ (h.cell c).shift }
  exact { h.setCell c hk with }

theorem StoresFit.forCells {f : Nat → State → State} (h : StoresFit s)
    (hf : ∀ c t, StoresFit t → StoresFit (f c t)) : StoresFit (forCells f s) :=
  forCells_induct h fun c t _ ht => hf c t ht

/-- A completed stage keeps the shape and the capacities. -/
theorem StoresFit.stage {t : State} (h : StoresFit s) (hmove : StageMove s t) : StoresFit t := by
  cases hmove with
  | connect =>
    have hs : StoresFit { s with active := s.nextActive } := { h with }
    exact { hs.forCells fun c t ht => ht.connectCell s.isLoadRound c with }
  | read => exact { h.forCells fun c t ht => ht.readCell c with }
  | compute => exact { h.forCells fun c t ht => ht.computeCell c with }
  | shift => exact { h.forCells fun c t ht => ht.shiftCell c with }
  | finalize =>
    obtain ⟨hcells, -, hrows⟩ := h.shape
    have hresult : s.runOutput.length = s.cfg.arraySize := by simp [State.runOutput]
    exact { h with shape := ⟨hcells, hresult, hrows⟩ }

end Stores

/-! ### The registers -/

section Registers

variable {s t : State}

theorem resultRegisters_stage (h : ResultRegisters s) (hmove : StageMove s t) : ResultRegisters t := by
  obtain ⟨hcount, -, hrunning⟩ := h
  have hretired := hrunning hmove.phases.1
  obtain rfl | ⟨hsame, hdone⟩ := hmove.cases_registers
  · exact ⟨rfl, fun _ => rfl, fun hphase => by simp [finalized] at hphase⟩
  · refine ⟨?_, fun hphase => absurd hphase hdone, fun _ => hsame.retired0.trans hretired⟩
    rw [hsame.resultCount, hsame.retired0, hsame.cfg]
    exact hcount

theorem faultRegisters_stage (h : FaultRegisters s) (hmove : StageMove s t) : FaultRegisters t := by
  obtain ⟨hclear, -⟩ := h
  obtain ⟨hrunning, hfault⟩ := hmove.phases
  have hs := hclear (fun hp => by simp [hp] at hrunning)
  refine ⟨fun _ => ?_, fun hphase => absurd hphase hfault⟩
  obtain rfl | ⟨hsame, -⟩ := hmove.cases_registers
  · exact hs
  · rw [hsame.faultCause, hsame.faultCmd, hsame.faultInfo]
    exact hs

/-- The cause codes but E_FAULTED are those a fault can record (`60_exceptions.md` R241, R248). -/
theorem causeCode_bounds {e : Cause} (h : e ≠ .faulted) : 1 ≤ e.code.toNat ∧ e.code.toNat ≤ 6 := by
  cases e with
  | faulted => exact absurd rfl h
  | _ => decide

end Registers

theorem blockInv_iff {s : State} : BlockInv s ↔ StoresFit s ∧ ResultRegisters s ∧ FaultRegisters s := by
  rw [storesFit_iff, and_assoc]

theorem blockInv_resetWith (cfg : Config) : BlockInv (State.resetWith cfg) :=
  blockInv_iff.mpr ⟨storesFit_resetWith cfg, ⟨rfl, fun h => (nomatch h), fun _ => rfl⟩,
    fun _ => ⟨rfl, rfl, rfl⟩, fun h => nomatch h⟩

/-- A fault in P_FAULT keeps the first one; outside, it records its cause. -/
theorem blockInv_raise {s : State} (w : Word) {f : Raised} (hf : f.cause ≠ .faulted) (h : BlockInv s) :
    BlockInv (s.raise w f) := by
  by_cases hp : s.phase = .fault
  · rw [State.raise_of_faulted s w f hp]
    exact h
  · rw [State.raise_of_running s w f hp]
    obtain ⟨hshape, hfifos, ⟨hcount, -, -⟩, -⟩ := h
    exact ⟨hshape, hfifos, ⟨hcount, fun h => (nomatch h), fun h => by simp at h⟩,
      fun h => absurd rfl h, fun _ => causeCode_bounds hf⟩

theorem kept_blockInv : Kept BlockInv where
  input := fun _ _ _ h => h
  reset := fun s _ => blockInv_resetWith s.cfg
  respond := fun _ _ h => h
  push := fun s r c h hroom => by
    obtain ⟨hstores, hregisters⟩ := blockInv_iff.mp h
    exact blockInv_iff.mpr ⟨hstores.push r c hroom, hregisters⟩
  stage := fun s t h hmove => by
    obtain ⟨hstores, hresult, hfault⟩ := blockInv_iff.mp h
    exact blockInv_iff.mpr ⟨hstores.stage hmove, resultRegisters_stage hresult hmove, faultRegisters_stage hfault hmove⟩
  raise := fun _ w _ h hf => blockInv_raise w hf h

/-- Settles O52: each thing a step is made of keeps the invariant. -/
theorem stepKeepsBlockInvariant : Obligations.StepKeepsBlockInvariant := fun _ _ hs ht => kept_blockInv.step hs ht

end Sys2Proof.BlockInvariant

/-! SUPPORT. The reset event and the reset state (`10_state.md` R59, `70_reset_and_hazards.md` R270, R271). -/

namespace Sys2Proof.ResetState

open Sys2Proof.Machine Sys2Proof.NumberDomain
open Sys2Proof.BlockInvariant (storesFit_resetWith blockInv_resetWith)
open Sys2Proof.Safety (DomainInv ScalarNonNeg AlphaNonNeg NonNegInv BetweenRounds AcceptedInv roundActive)

/-! ### What the reset state holds -/

theorem cell_resetWith (cfg : Config) (c : Nat) : (State.resetWith cfg).cell c = Cell.reset cfg.numerics := by
  simp [State.cell]

theorem queue_resetWith (cfg : Config) (r c : Nat) : (State.resetWith cfg).queue r c = [] := by
  unfold State.queue
  rw [State.resetWith_extq]
  rcases Nat.lt_or_ge r cfg.numSignals with hr | hr
  · rw [List.getD_replicate _ hr]
    simp
  · rw [List.getD_eq_default (n := r) _ _ (by simpa using hr)]
    simp

/-! ### The reset event -/

theorem step_reset {s : State} {rest : List HostInput} (hlegal : s.cfg.legal = true) (hport : s.port = .reset :: rest) :
    step s = .next { State.resetWith s.cfg with port := rest } := by
  simp only [step, hlegal, if_true, State.accept, hport]
  rfl

/-- Settles O8: the step is the reset event, and its state is the reset state but for the port. -/
theorem resetEventSetsResetValues : Obligations.ResetEventSetsResetValues := by
  intro s rest hlegal hport
  refine ⟨_, step_reset hlegal hport, rfl, rfl, rfl, rfl, rfl, rfl, rfl, rfl, rfl, rfl, rfl, rfl, rfl, fun c _ => ?_,
    (storesFit_resetWith s.cfg).shape, queue_resetWith s.cfg⟩
  have hcell : ({ State.resetWith s.cfg with port := rest }).cell c = Cell.reset s.cfg.numerics :=
    cell_resetWith s.cfg c
  rw [hcell]
  exact ⟨rfl, rfl, rfl, rfl, rfl, rfl, rfl⟩

/-! ### The invariants at reset -/

theorem domainInv_resetWith (cfg : Config) : DomainInv (State.resetWith cfg) :=
  domainInv_iff.mpr
    { numerics := rfl
      cells := fun _ hk => List.eq_of_mem_replicate hk ▸ cellInDomain_reset _
      extq := fun _ hrow q hq => by
        rw [List.eq_of_mem_replicate hrow] at hq
        rw [List.eq_of_mem_replicate hq]
        exact fifoInDomain_nil _
      result := fun _ ha => List.eq_of_mem_replicate ha ▸ alphaZero_inDomain _
      operand := sampleZero_inDomain _
      rsp := sampleZero_inDomain _ }

theorem scalarZero_nonNeg (num : Numerics) : ScalarNonNeg (scalarZero num) := by
  cases num with
  | ideal =>
    intro ρ
    simp [exactEval]
  | binary64 => exact .inr (by decide)

theorem alphaZero_nonNeg (num : Numerics) : AlphaNonNeg (alphaZero num) := by
  intro x hx
  rw [Vector.mem_toList_iff, alphaZero, Vector.mem_ofFn] at hx
  obtain ⟨-, rfl⟩ := hx
  exact scalarZero_nonNeg num

theorem nonNegInv_resetWith (cfg : Config) : NonNegInv (State.resetWith cfg) :=
  ⟨fun _ hk => List.eq_of_mem_replicate hk ▸ ⟨alphaZero_nonNeg _, alphaZero_nonNeg _⟩,
    fun _ ha => List.eq_of_mem_replicate ha ▸ alphaZero_nonNeg _⟩

/-- No round is done at reset: ITER = 0, every FIFO is empty and no source is selected. -/
theorem betweenRounds_resetWith (cfg : Config) : BetweenRounds (State.resetWith cfg) := by
  refine ⟨Nat.zero_le _, ?_, fun c hc => ?_⟩
  · simp [roundActive]
  · have hN : (cfg.arraySize - 1) / cfg.arraySize = 0 := Nat.div_eq_of_lt (Nat.sub_lt (Nat.zero_lt_of_lt hc) one_pos)
    rw [cell_resetWith]
    simp [Cell.reset, hN]

theorem acceptedInv_resetWith {cfg : Config} (h : cfg.legal = true) : AcceptedInv (State.resetWith cfg) :=
  ⟨h, (storesFit_resetWith cfg).shape, betweenRounds_resetWith cfg⟩

/-- Settles O51, invariant by invariant. -/
theorem resetMeetsInvariants : Obligations.ResetMeetsInvariants := fun cfg h =>
  ⟨blockInv_resetWith cfg, domainInv_resetWith cfg, nonNegInv_resetWith cfg, acceptedInv_resetWith h⟩

end Sys2Proof.ResetState

/-! SUPPORT. The command the port presents next is the command a step performs (`20_memory.md` R75, R79). -/

namespace Sys2Proof.CommandPort

open Sys2Proof.Machine
open Sys2Proof.NumberDomain (sampleZero_inDomain)

theorem accept_command {s : State} {w : Word} {d : Sample} {rest : List HostInput}
    (hport : s.port = .command w d :: rest) (hd : d.inDomain s.cfg.numerics = true) :
    s.accept = (.command w, { s with port := rest, operand := d }) := by
  simp only [State.accept, hport, hd, if_true]

theorem step_command {s : State} {w : Word} {d : Sample} {rest : List HostInput} {i : Instr}
    (hlegal : s.cfg.legal = true) (hport : s.port = .command w d :: rest) (hd : d.inDomain s.cfg.numerics = true)
    (hdecode : decode w = .ok i) : step s = exec i { s with port := rest, operand := d } := by
  simp only [step, hlegal, if_true, accept_command hport hd, hdecode]

/-- A word of 32 bits is presented unchanged. -/
theorem withFetchWord_port (s : State) {w : Nat} (hw : w < 2 ^ 32) :
    (s.withFetchWord 32 w).port = .command (BitVec.ofNat 32 w) (sampleZero s.cfg.numerics) :: s.port := by
  rw [State.withFetchWord, State.presentWord, Nat.mod_eq_of_lt hw]

/-- Settles O6: a word placed by `withFetchWord` is a presented command with the operand ZERO. -/
theorem stepRunsDecodedCommand : Obligations.StepRunsDecodedCommand :=
  ⟨fun _ _ _ _ _ hlegal hport hd hdecode => step_command hlegal hport hd hdecode,
    fun s _ _ hlegal hw hdecode => step_command hlegal (withFetchWord_port s hw) (sampleZero_inDomain _) hdecode⟩

end Sys2Proof.CommandPort

/-! SUPPORT. The read commands (`43_host_io.md` R213 to R221): each reports a value, or fails a range check that looks only
at what no fault changes. -/

namespace Sys2Proof.HostReads

open Sys2Proof.Machine
open Sys2Proof.HostRegisters (readReg_of_reserved)

/-! ### What the range checks look at -/

/-- Two states with the same configuration, cells and RESULT_COUNT: an index operand in range in one is in range in the
other. -/
structure SameRanges (s t : State) : Prop where
  cfg : t.cfg = s.cfg
  cells : t.cells = s.cells
  resultCount : t.resultCount = s.resultCount

theorem sameRanges_raise (s : State) (w : Word) (f : Raised) : SameRanges s (s.raise w f) :=
  ⟨s.raise_cfg w f, s.raise_cells w f, s.raise_resultCount w f⟩

theorem sameRanges_withRsp (s : State) (r : Response) : SameRanges s (s.withRsp r) := ⟨rfl, rfl, rfl⟩

section Ranges

variable {s t : State}

theorem SameRanges.cell (h : SameRanges s t) (c : Nat) : t.cell c = s.cell c := State.cell_congr h.cells h.cfg c

theorem SameRanges.cellInRange (h : SameRanges s t) (c : BitVec 8) : t.cellInRange c = s.cellInRange c := by
  simp only [State.cellInRange, h.cfg]

theorem SameRanges.signalInRange (h : SameRanges s t) (r : BitVec 8) : t.signalInRange r = s.signalInRange r := by
  simp only [State.signalInRange, h.cfg]

theorem SameRanges.resultInRange (h : SameRanges s t) (k : BitVec 8) : t.resultInRange k = s.resultInRange k := by
  simp only [State.resultInRange, h.resultCount]

/-- The registers that exist are the same in every state. -/
theorem reserved_of_readReg_eq_none {r : BitVec 8} (h : s.readReg r = none) : 0x0D < r.toNat := by
  by_contra hr
  unfold State.readReg at h
  interval_cases hn : r.toNat <;> cases h

end Ranges

/-! ### What a read command does -/

/-- What a read command can do in state s: report a value, whatever the last response was, or fail its range check, here
and in every state with the same ranges. -/
inductive ReadOutcome (i : Instr) (s : State) : Prop
  | reports (v : Word) (z : Sample) (h : ∀ r, exec i (s.withRsp r) = .next (s.withRsp ⟨0, v, z⟩))
  | fails (c k : BitVec 8) (h : ∀ t, SameRanges s t → exec i t = .next (t.raise (encode i) (rangeFault c k)))

theorem rdreg_outcome (r : BitVec 8) (s : State) : ReadOutcome (.rdreg r) s := by
  cases h : s.readReg r with
  | some v =>
    refine .reports v (sampleZero s.cfg.numerics) fun rsp => ?_
    have h' : (s.withRsp rsp).readReg r = some v := h
    simp only [exec, execRdreg, h']
    rfl
  | none =>
    refine .fails 0 r fun t _ => ?_
    simp only [exec, execRdreg, readReg_of_reserved t (reserved_of_readReg_eq_none h)]

theorem rdres_outcome (k : BitVec 8) (j : BitVec 3) (s : State) : ReadOutcome (.rdres k j) s := by
  cases h : s.resultInRange k with
  | true =>
    refine .reports 0 ⟨(s.resultAt k.toNat)[binIndex j], scalarZero s.cfg.numerics⟩ fun rsp => ?_
    simp only [exec, execRdres, (sameRanges_withRsp s rsp).resultInRange, h, if_true]
    rfl
  | false =>
    refine .fails 0 k fun t ht => ?_
    simp only [exec, execRdres, ht.resultInRange, h, Bool.false_eq_true, if_false]

theorem rdalpha_outcome (c : BitVec 8) (sel : BitVec 1) (j : BitVec 3) (s : State) :
    ReadOutcome (.rdalpha c sel j) s := by
  cases h : s.cellInRange c with
  | true =>
    refine .reports 0 ⟨((s.cell c.toNat).selectAlpha sel)[binIndex j], scalarZero s.cfg.numerics⟩ fun rsp => ?_
    simp only [exec, execRdalpha, (sameRanges_withRsp s rsp).cellInRange, h, if_true]
    rfl
  | false =>
    refine .fails c 0 fun t ht => ?_
    simp only [exec, execRdalpha, ht.cellInRange, h, Bool.false_eq_true, if_false]

theorem rdcell_outcome (c sel : BitVec 8) (s : State) : ReadOutcome (.rdcell c sel) s := by
  cases h : (if s.cellInRange c then (s.cell c.toNat).select sel else none) with
  | some v =>
    refine .reports v (sampleZero s.cfg.numerics) fun rsp => ?_
    have hr := sameRanges_withRsp s rsp
    simp only [exec, execRdcell, hr.cellInRange, hr.cell, h]
    rfl
  | none =>
    refine .fails c sel fun t ht => ?_
    simp only [exec, execRdcell, ht.cellInRange, ht.cell, h]

theorem rdqlen_outcome (r c : BitVec 8) (s : State) : ReadOutcome (.rdqlen r c) s := by
  cases h : (s.signalInRange r && s.cellInRange c) with
  | true =>
    refine .reports (BitVec.ofNat 32 (s.queue r.toNat c.toNat).length) (sampleZero s.cfg.numerics) fun rsp => ?_
    have hr := sameRanges_withRsp s rsp
    simp only [exec, execRdqlen, hr.signalInRange, hr.cellInRange, h, if_true]
    rfl
  | false =>
    refine .fails c r fun t ht => ?_
    simp only [exec, execRdqlen, ht.signalInRange, ht.cellInRange, h, Bool.false_eq_true, if_false]

/-- RDRAW, RDCONJ and RDSHIFT. -/
theorem readElem_outcome {i : Instr} (c : BitVec 8) (j : BitVec 16) (fifo : Cell → List Sample)
    (hexec : ∀ t, exec i t = .next (readElem (encode i) c j fifo t)) (s : State) : ReadOutcome i s := by
  cases h : (if s.cellInRange c then fifoElem (fifo (s.cell c.toNat)) j else none) with
  | some z =>
    refine .reports 0 z fun rsp => ?_
    have hr := sameRanges_withRsp s rsp
    simp only [hexec, readElem, hr.cellInRange, hr.cell, h]
    rfl
  | none =>
    refine .fails c (j.setWidth 8) fun t ht => ?_
    simp only [hexec, readElem, ht.cellInRange, ht.cell, h]

theorem exec_read_outcome {i : Instr} (hread : i.isRead = true) (s : State) : ReadOutcome i s := by
  cases i with
  | rdreg r => exact rdreg_outcome r s
  | rdres k j => exact rdres_outcome k j s
  | rdalpha c sel j => exact rdalpha_outcome c sel j s
  | rdcell c sel => exact rdcell_outcome c sel s
  | rdqlen r c => exact rdqlen_outcome r c s
  | rdraw c j => exact readElem_outcome c j Cell.raw (fun _ => rfl) s
  | rdconj c j => exact readElem_outcome c j Cell.conj (fun _ => rfl) s
  | rdshift c j => exact readElem_outcome c j Cell.shift (fun _ => rfl) s
  | nop | qpush _ _ | connect | read | compute | shift | round | run _ | finalize => cases hread

/-! ### No side effect -/

/-- A fault, in P_FAULT or outside, touches PHASE, the FAULT registers and the response (`60_exceptions.md` R249). -/
theorem raise_frame (s : State) (w : Word) (f : Raised) : s.raise w f =
    { s with phase := .fault, faultCause := (s.raise w f).faultCause, faultCmd := (s.raise w f).faultCmd,
             faultInfo := (s.raise w f).faultInfo, rsp := (s.raise w f).rsp } := by
  by_cases h : s.phase = .fault
  · rw [State.raise_of_faulted s w f h, ← h]
  · rw [State.raise_of_running s w f h]

/-- Settles O26: a report repeats because no read looks at the last response, a failure because no fault changes a range. -/
theorem readCommandsRepeat : Obligations.ReadCommandsRepeat := by
  intro i s t hread ht
  cases exec_read_outcome hread s with
  | reports v z h =>
    cases (h s.rsp).symm.trans ht
    exact ⟨fun _ => rfl, fun hne => absurd rfl hne, _, h _, rfl⟩
  | fails c k h =>
    cases (h s ⟨rfl, rfl, rfl⟩).symm.trans ht
    refine ⟨fun h0 => ?_, fun _ => ⟨rfl, raise_frame s _ _⟩, _, h _ (sameRanges_raise s _ _), ?_⟩
    · cases h0
    · rw [State.raise_rsp, State.raise_rsp, State.raise_cfg]

end Sys2Proof.HostReads

/-! SUPPORT. Which command writes which store (`20_memory.md` R72; `10_state.md` R33 to R39). -/

namespace Sys2Proof.StoreWriters

open Sys2Proof.Machine
open Sys2Proof.StepEffects
open Sys2Proof.HostReads (exec_read_outcome raise_frame)

/-! ### What the loops over the cells keep -/

/-- What every iteration keeps, the loop keeps. -/
theorem forCells_keeps {β : Type} {f : Nat → State → State} (g : State → β) (hf : ∀ c t, g (f c t) = g t) (s : State) :
    g (forCells f s) = g s :=
  forCells_induct (P := fun t => g t = g s) rfl fun c t _ ht => (hf c t).trans ht

/-- A fact about cell c that its new contents keep is kept of every cell. -/
theorem setCell_keeps {β : Type} {g : Cell → β} {s : State} {c : Nat} {k : Cell} (h : g k = g (s.cell c)) :
    (s.setCell c k).cells.map g = s.cells.map g := by
  rw [State.setCell_cells, List.map_set, h, ← List.map_set, ← State.setCell_cells, State.setCell_cell]

section Loops

variable {β : Type} {g : Cell → β}

/-- connect selects a source, and discards samples of CONJ and SHIFT. -/
theorem forCells_connect_keeps
    (hg : ∀ k src sigIdx conj shift, g { k with src := src, sigIdx := sigIdx, conj := conj, shift := shift } = g k)
    (load : Bool) (s : State) : (forCells (connectCell load) s).cells.map g = s.cells.map g := by
  refine forCells_keeps (fun t => t.cells.map g) (fun c t => ?_) s
  rw [connectCell_eq]
  refine setCell_keeps ?_
  unfold connectedCell connectLoad
  split
  · split
    · exact hg (t.cell c) _ _ _ _
    · exact hg (t.cell c) _ _ _ _
  · split
    · rfl
    · exact hg (t.cell c) _ _ _ _

/-- read moves samples into RAW and CONJ, and out of SHIFT. -/
theorem forCells_read_keeps
    (hg : ∀ k raw conj shift, g { k with raw := raw, conj := conj, shift := shift } = g k) (s : State) :
    (forCells readCell s).cells.map g = s.cells.map g := by
  refine forCells_keeps (fun t => t.cells.map g) (fun c t => ?_) s
  unfold readCell
  split
  · rfl
  · exact setCell_keeps (s := t) (hg (t.cell c) _ _ _)
  · split
    · rfl
    · rename_i hc
      refine (setCell_keeps ?_).trans (setCell_keeps (s := t) (hg (t.cell (c - 1)) _ _ _))
      rw [State.cell_setCell_ne _ (by omega)]
      exact hg (t.cell c) _ _ _

/-- compute writes ALPHA and ALPHA_TOP. -/
theorem forCells_compute_keeps (hg : ∀ k alpha alphaTop, g { k with alpha := alpha, alphaTop := alphaTop } = g k)
    (s : State) : (forCells computeCell s).cells.map g = s.cells.map g := by
  refine forCells_keeps (fun t => t.cells.map g) (fun c t => ?_) s
  rw [computeCell_eq, computedCell_eq]
  exact setCell_keeps (s := t) (hg (t.cell c) _ _)

/-- shift moves the samples of RAW into SHIFT. -/
theorem forCells_shift_keeps (hg : ∀ k raw shift, g { k with raw := raw, shift := shift } = g k) (s : State) :
    (forCells shiftCell s).cells.map g = s.cells.map g := by
  refine forCells_keeps (fun t => t.cells.map g) (fun c t => ?_) s
  exact setCell_keeps (s := t) (hg (t.cell c) _ _)

end Loops

/-- connect touches no queue and takes no cycle. -/
theorem forCells_connect_queues (load : Bool) (s : State) :
    (forCells (connectCell load) s).extq = s.extq ∧ (forCells (connectCell load) s).cyc = s.cyc := by
  have hbody (c : Nat) (t : State) : (connectCell load c t).extq = t.extq ∧ (connectCell load c t).cyc = t.cyc := by
    rw [connectCell_eq]
    exact ⟨rfl, rfl⟩
  exact ⟨forCells_keeps State.extq (fun c t => (hbody c t).1) s, forCells_keeps State.cyc (fun c t => (hbody c t).2) s⟩

theorem forCells_compute_extq (s : State) : (forCells computeCell s).extq = s.extq :=
  forCells_keeps (f := computeCell) State.extq (fun _ _ => rfl) s

theorem forCells_shift_extq (s : State) : (forCells shiftCell s).extq = s.extq :=
  forCells_keeps (f := shiftCell) State.extq (fun _ _ => rfl) s

/-! ### What a command writes -/

/-- The stores and registers after command i, but for PHASE, the FAULT registers and the response: those before it when
the command is refused, faults or only reports, and otherwise those its operation leaves. -/
inductive Written (s : State) : Instr → State → Prop
  | nothing (i : Instr) : Written s i s
  | push (r c : BitVec 8) (q : List Sample) : Written s (.qpush r c) (s.setQueue r.toNat c.toNat q)
  | connect : Written s .connect
      { forCells (connectCell s.isLoadRound) { s with active := s.nextActive } with roundKind := s.isLoadRound }
  | read : Written s .read (forCells readCell s)
  | compute : Written s .compute (forCells computeCell s)
  | shift : Written s .shift { forCells shiftCell s with iter := s.iter + 1 }
  | finalize : Written s .finalize (finalized s)

/-- A state that differs from another in PHASE, the FAULT registers and the response at most. -/
def ReportsOn (u t : State) : Prop :=
  ∃ phase faultCause faultCmd faultInfo rsp,
    t = { u with phase := phase, faultCause := faultCause, faultCmd := faultCmd, faultInfo := faultInfo, rsp := rsp }

/-- Command i takes s to t by writing stores and then reporting. -/
def Writes (i : Instr) (s t : State) : Prop := ∃ u, Written s i u ∧ ReportsOn u t

section Commands

variable {i : Instr} {s : State}

theorem reportsOn_respond (s : State) (r : Response) : ReportsOn s { s with rsp := r } := ⟨_, _, _, _, _, rfl⟩

theorem reportsOn_raise (s : State) (w : Word) (f : Raised) : ReportsOn s (s.raise w f) :=
  ⟨_, _, _, _, _, raise_frame s w f⟩

theorem writes_respond (i : Instr) (s : State) (r : Response) : Writes i s { s with rsp := r } :=
  ⟨s, .nothing i, reportsOn_respond s r⟩

theorem writes_raise (i : Instr) (s : State) (w : Word) (f : Raised) : Writes i s (s.raise w f) :=
  ⟨s, .nothing i, reportsOn_raise s w f⟩

/-- A stage body changes nothing when it faults; when it completes it writes its stores and sets PHASE. -/
def BodyWrites (i : Instr) (s : State) : StageResult → Prop
  | .ok t => ∃ u phase, Written s i u ∧ t = { u with phase := phase }
  | .error (t, _) => t = s

theorem stageCommand_writes (w : Word) {body : State → StageResult} (hbody : BodyWrites i s (body s)) :
    Writes i s (stageCommand w body s) := by
  obtain ⟨-, hs⟩ | ⟨-, t, hb, hs⟩ | ⟨-, t, f, hb, hs⟩ := stageCommand_cases w body s <;> rw [hs]
  · exact writes_respond i s _
  · rw [hb] at hbody
    obtain ⟨u, phase, hu, rfl⟩ := hbody
    exact ⟨u, hu, _, _, _, _, _, rfl⟩
  · rw [hb] at hbody
    obtain rfl := hbody
    exact writes_raise i t w f

theorem connectBody_writes (s : State) : BodyWrites .connect s (connectBody s) := by
  obtain ⟨-, hb⟩ | ⟨-, f, -, hb⟩ | ⟨-, -, hb⟩ := connectBody_cases s <;> rw [hb]
  · rfl
  · rfl
  · exact ⟨_, _, .connect, rfl⟩

theorem readBody_writes (s : State) : BodyWrites .read s (readBody s) := by
  obtain ⟨-, hb⟩ | ⟨-, f, -, hb⟩ | ⟨-, -, hb⟩ := readBody_cases s <;> rw [hb]
  · rfl
  · rfl
  · exact ⟨_, _, .read, rfl⟩

theorem computeBody_writes (s : State) : BodyWrites .compute s (computeBody s) := by
  obtain ⟨-, hb⟩ | ⟨-, c, -, hb⟩ | ⟨-, -, hb⟩ := computeBody_cases s <;> rw [hb]
  · rfl
  · rfl
  · exact ⟨_, _, .compute, rfl⟩

theorem shiftBody_writes (s : State) : BodyWrites .shift s (shiftBody s) := by
  obtain ⟨-, hb⟩ | ⟨-, c, -, hb⟩ | ⟨-, -, hb⟩ := shiftBody_cases s <;> rw [hb]
  · rfl
  · rfl
  · exact ⟨_, _, .shift, rfl⟩

theorem finalizeBody_writes (s : State) : BodyWrites .finalize s (finalizeBody s) := by
  unfold finalizeBody
  split
  · rfl
  · exact ⟨_, _, .finalize, rfl⟩

theorem execQpush_writes (r c : BitVec 8) (s : State) : ∃ t, execQpush r c s = .next t ∧ Writes (.qpush r c) s t := by
  refine ⟨_, rfl, ?_⟩
  split
  · exact writes_respond _ s _
  · split
    · exact writes_raise _ s _ _
    · split
      · exact writes_raise _ s _ _
      · exact ⟨_, .push r c _, reportsOn_respond _ _⟩

theorem exec_read_writes (hread : i.isRead = true) (s : State) : ∃ t, exec i s = .next t ∧ Writes i s t := by
  cases exec_read_outcome hread s with
  | reports v z h => exact ⟨_, h s.rsp, writes_respond i s _⟩
  | fails c k h => exact ⟨_, h s ⟨rfl, rfl, rfl⟩, writes_raise i s _ _⟩

theorem exec_writes (i : Instr) (s : State) (hround : i ≠ .round) (hrun : ∀ n, i ≠ .run n) :
    ∃ t, exec i s = .next t ∧ Writes i s t := by
  cases i with
  | nop => exact ⟨_, rfl, writes_respond _ s _⟩
  | qpush r c => exact execQpush_writes r c s
  | connect => exact ⟨_, rfl, stageCommand_writes _ (connectBody_writes s)⟩
  | read => exact ⟨_, rfl, stageCommand_writes _ (readBody_writes s)⟩
  | compute => exact ⟨_, rfl, stageCommand_writes _ (computeBody_writes s)⟩
  | shift => exact ⟨_, rfl, stageCommand_writes _ (shiftBody_writes s)⟩
  | finalize => exact ⟨_, rfl, stageCommand_writes _ (finalizeBody_writes s)⟩
  | round => exact absurd rfl hround
  | run n => exact absurd rfl (hrun n)
  | rdreg _ | rdres _ _ | rdalpha _ _ _ | rdcell _ _ | rdqlen _ _ | rdraw _ _ | rdconj _ _ | rdshift _ _ =>
    exact exec_read_writes rfl s

end Commands

/-! ### The stores a command does not name -/

/-- The registers and the host's inputs that no loop over the cells touches. -/
theorem storesOf_registers {s t : State} (h : StoresOf s t) :
    t.roundKind = s.roundKind ∧ t.active = s.active ∧ t.iter = s.iter ∧ t.result = s.result ∧
    t.resultCount = s.resultCount ∧ t.retired0 = s.retired0 ∧ t.port = s.port ∧ t.operand = s.operand := by
  rw [h]
  exact ⟨rfl, rfl, rfl, rfl, rfl, rfl, rfl, rfl⟩

/-- Settles O60: command by command, what its operation keeps. -/
theorem storesWrittenOnlyByNamedCommands : Obligations.StoresWrittenOnlyByNamedCommands := by
  intro i s t ht hround hrun
  obtain ⟨t', ht', u, hu, phase, cause, cmd, info, rsp, rfl⟩ := exec_writes i s hround hrun
  cases ht'.symm.trans ht
  cases hu with
  | nothing => simp
  | push r c q => simp
  | finalize => simp [finalized]
  | connect =>
    have hqueues := forCells_connect_queues s.isLoadRound { s with active := s.nextActive }
    have hregisters :=
      storesOf_registers (forCells_storesOf (connectCell_storesOf s.isLoadRound) { s with active := s.nextActive })
    simp [hqueues, hregisters, forCells_connect_keeps]
  | read =>
    have hregisters := storesOf_registers (forCells_storesOf readCell_storesOf s)
    simp [hregisters, forCells_read_keeps]
  | compute =>
    have hregisters := storesOf_registers (forCells_storesOf computeCell_storesOf s)
    simp [hregisters, forCells_compute_keeps, forCells_compute_extq]
  | shift =>
    have hregisters := storesOf_registers (forCells_storesOf shiftCell_storesOf s)
    simp [hregisters, forCells_shift_keeps, forCells_shift_extq]

end Sys2Proof.StoreWriters

/-! SUPPORT. The encoding (`30_encoding.md` R91 to R96): what each format's decoder reads from a word written out as its
fields, and from it that decoder, encoder and opcode map agree. -/

namespace Sys2Proof.Encoding

open BitVec (extractLsb'_append_eq_of_le extractLsb'_append_eq_of_add_le)

/-! ### The fields of a word -/

theorem opcodeOf_append (op : BitVec 8) (body : BitVec 24) : opcodeOf (op ++ body) = op :=
  BitVec.extractLsb'_append_eq_left

/-- A field and all the bits below it. -/
theorem extract_append_low (w : Word) (a n : Nat) :
    w.extractLsb' a n ++ w.extractLsb' 0 a = w.extractLsb' 0 (n + a) :=
  BitVec.extractLsb'_append_extractLsb'_eq_extractLsb' (Nat.zero_add a).symm

/-- OP, named by its number. -/
theorem ofNat_opcode {w : Word} {k : Nat} (h : (opcodeOf w).toNat = k) : BitVec.ofNat 8 k = w.extractLsb' 24 8 := by
  rw [← h, BitVec.ofNat_toNat, BitVec.setWidth_eq]
  rfl

/-- A format accepts a word when its reserved bits are zero. -/
theorem checkReserved_eq_ok {zero : Bool} {i j : Instr} : checkReserved zero i = .ok j ↔ zero = true ∧ i = j := by
  cases zero <;> simp [checkReserved]

section Formats

variable (op : BitVec 8)

theorem decodeZ_word (z : BitVec 24) (i : Instr) : decodeZ (op ++ z) i = checkReserved (z == 0#24) i := by
  simp [decodeZ, @extractLsb'_append_eq_of_add_le 8]

theorem decodeQSC_word (s c z : BitVec 8) (mk : BitVec 8 → BitVec 8 → Instr) :
    decodeQSC (op ++ (s ++ (c ++ z))) mk = checkReserved (z == 0#8) (mk s c) := by
  simp [decodeQSC, field23to16, field15to8, @extractLsb'_append_eq_of_add_le 8, @extractLsb'_append_eq_of_le 8]

theorem decodeI16_word (z : BitVec 8) (t : BitVec 16) (mk : BitVec 16 → Instr) :
    decodeI16 (op ++ (z ++ t)) mk = checkReserved (z == 0#8) (mk t) := by
  simp [decodeI16, field15to0, @extractLsb'_append_eq_of_add_le 8, @extractLsb'_append_eq_of_le 8]

theorem decodeREG_word (z : BitVec 16) (r : BitVec 8) (mk : BitVec 8 → Instr) :
    decodeREG (op ++ (z ++ r)) mk = checkReserved (z == 0#16) (mk r) := by
  simp [decodeREG, field7to0, @extractLsb'_append_eq_of_add_le 8, @extractLsb'_append_eq_of_add_le 16,
    @extractLsb'_append_eq_of_le 16]

theorem decodeRES_word (k : BitVec 8) (z : BitVec 13) (j : BitVec 3) (mk : BitVec 8 → BitVec 3 → Instr) :
    decodeRES (op ++ (k ++ (z ++ j))) mk = checkReserved (z == 0#13) (mk k j) := by
  simp [decodeRES, field23to16, field2to0, @extractLsb'_append_eq_of_add_le 8, @extractLsb'_append_eq_of_le 8,
    @extractLsb'_append_eq_of_add_le 13, @extractLsb'_append_eq_of_le 13]

theorem decodeALP_word (c : BitVec 8) (y : BitVec 7) (sel : BitVec 1) (z : BitVec 5) (j : BitVec 3)
    (mk : BitVec 8 → BitVec 1 → BitVec 3 → Instr) :
    decodeALP (op ++ (c ++ (y ++ (sel ++ (z ++ j))))) mk = checkReserved (y == 0#7 && z == 0#5) (mk c sel j) := by
  simp [decodeALP, field23to16, field8, field2to0, @extractLsb'_append_eq_of_add_le 8, @extractLsb'_append_eq_of_le 8,
    @extractLsb'_append_eq_of_add_le 7, @extractLsb'_append_eq_of_le 7, @extractLsb'_append_eq_of_add_le 1,
    @extractLsb'_append_eq_of_le 1, @extractLsb'_append_eq_of_add_le 5, @extractLsb'_append_eq_of_le 5]

theorem decodeCSEL_word (c z sel : BitVec 8) (mk : BitVec 8 → BitVec 8 → Instr) :
    decodeCSEL (op ++ (c ++ (z ++ sel))) mk = checkReserved (z == 0#8) (mk c sel) := by
  simp [decodeCSEL, field23to16, field7to0, @extractLsb'_append_eq_of_add_le 8, @extractLsb'_append_eq_of_le 8]

theorem decodeCIDX_word (c : BitVec 8) (i : BitVec 16) (mk : BitVec 8 → BitVec 16 → Instr) :
    decodeCIDX (op ++ (c ++ i)) mk = checkReserved true (mk c i) := by
  simp [decodeCIDX, field23to16, field15to0, @extractLsb'_append_eq_of_add_le 8, @extractLsb'_append_eq_of_le 8]

end Formats

/-! ### A command decodes from its own word -/

/-- Settles O1: each format reads back the fields its command wrote. -/
theorem decodeOfEncode : Obligations.DecodeOfEncode := by
  intro i
  cases i with
    rw [decode, encode, opcodeOf_append]
  | nop => exact decodeZ_word 0x00 0 .nop
  | qpush s c => exact decodeQSC_word 0x01 s c 0 .qpush
  | connect => exact decodeZ_word 0x02 0 .connect
  | read => exact decodeZ_word 0x03 0 .read
  | compute => exact decodeZ_word 0x04 0 .compute
  | shift => exact decodeZ_word 0x05 0 .shift
  | round => exact decodeZ_word 0x06 0 .round
  | run t => exact decodeI16_word 0x07 0 t .run
  | finalize => exact decodeZ_word 0x08 0 .finalize
  | rdreg r => exact decodeREG_word 0x09 0 r .rdreg
  | rdres k j => exact decodeRES_word 0x0A k 0 j .rdres
  | rdalpha c sel j => exact decodeALP_word 0x0B c 0 sel 0 j .rdalpha
  | rdcell c sel => exact decodeCSEL_word 0x0C c 0 sel .rdcell
  | rdqlen s c => exact decodeQSC_word 0x0D s c 0 .rdqlen
  | rdraw c j => exact decodeCIDX_word 0x10 c j .rdraw
  | rdconj c j => exact decodeCIDX_word 0x11 c j .rdconj
  | rdshift c j => exact decodeCIDX_word 0x12 c j .rdshift

/-! ### A word that decodes is the word of its command -/

section Reassembly

variable {w : Word} {i : Instr} {k : Nat}

/-- The fields OP and w[23:0] make up the word. -/
theorem append_body_eq {body : BitVec 24} (hop : (opcodeOf w).toNat = k) (hbody : body = w.extractLsb' 0 24) :
    BitVec.ofNat 8 k ++ body = w := by
  rw [ofNat_opcode hop, hbody]
  exact (extract_append_low w 24 8).trans BitVec.extractLsb'_eq_self

theorem encode_of_decodeZ {i' : Instr} (hop : (opcodeOf w).toNat = k)
    (hword : encode i' = BitVec.ofNat 8 k ++ 0#24) (h : decodeZ w i' = .ok i) : encode i = w := by
  obtain ⟨hz, rfl⟩ := checkReserved_eq_ok.mp h
  exact hword.trans (append_body_eq hop (beq_iff_eq.mp hz).symm)

theorem encode_of_decodeQSC {mk : BitVec 8 → BitVec 8 → Instr} (hop : (opcodeOf w).toNat = k)
    (hword : ∀ s c, encode (mk s c) = BitVec.ofNat 8 k ++ (s ++ (c ++ 0#8))) (h : decodeQSC w mk = .ok i) :
    encode i = w := by
  obtain ⟨hz, rfl⟩ := checkReserved_eq_ok.mp h
  refine (hword _ _).trans (append_body_eq hop ?_)
  rw [← beq_iff_eq.mp hz, field23to16, field15to8, extract_append_low, extract_append_low]

theorem encode_of_decodeI16 {mk : BitVec 16 → Instr} (hop : (opcodeOf w).toNat = k)
    (hword : ∀ t, encode (mk t) = BitVec.ofNat 8 k ++ (0#8 ++ t)) (h : decodeI16 w mk = .ok i) : encode i = w := by
  obtain ⟨hz, rfl⟩ := checkReserved_eq_ok.mp h
  refine (hword _).trans (append_body_eq hop ?_)
  rw [← beq_iff_eq.mp hz, field15to0, extract_append_low]

theorem encode_of_decodeREG {mk : BitVec 8 → Instr} (hop : (opcodeOf w).toNat = k)
    (hword : ∀ r, encode (mk r) = BitVec.ofNat 8 k ++ (0#16 ++ r)) (h : decodeREG w mk = .ok i) : encode i = w := by
  obtain ⟨hz, rfl⟩ := checkReserved_eq_ok.mp h
  refine (hword _).trans (append_body_eq hop ?_)
  rw [← beq_iff_eq.mp hz, field7to0, extract_append_low]

theorem encode_of_decodeRES {mk : BitVec 8 → BitVec 3 → Instr} (hop : (opcodeOf w).toNat = k)
    (hword : ∀ m j, encode (mk m j) = BitVec.ofNat 8 k ++ (m ++ (0#13 ++ j))) (h : decodeRES w mk = .ok i) :
    encode i = w := by
  obtain ⟨hz, rfl⟩ := checkReserved_eq_ok.mp h
  refine (hword _ _).trans (append_body_eq hop ?_)
  rw [← beq_iff_eq.mp hz, field23to16, field2to0, extract_append_low, extract_append_low]

theorem encode_of_decodeALP {mk : BitVec 8 → BitVec 1 → BitVec 3 → Instr} (hop : (opcodeOf w).toNat = k)
    (hword : ∀ c sel j, encode (mk c sel j) = BitVec.ofNat 8 k ++ (c ++ (0#7 ++ (sel ++ (0#5 ++ j)))))
    (h : decodeALP w mk = .ok i) : encode i = w := by
  obtain ⟨hreserved, rfl⟩ := checkReserved_eq_ok.mp h
  obtain ⟨hhigh, hlow⟩ := Bool.and_eq_true_iff.mp hreserved
  refine (hword _ _ _).trans (append_body_eq hop ?_)
  rw [← beq_iff_eq.mp hhigh, ← beq_iff_eq.mp hlow, field23to16, field8, field2to0, extract_append_low,
    extract_append_low, extract_append_low, extract_append_low]

theorem encode_of_decodeCSEL {mk : BitVec 8 → BitVec 8 → Instr} (hop : (opcodeOf w).toNat = k)
    (hword : ∀ c sel, encode (mk c sel) = BitVec.ofNat 8 k ++ (c ++ (0#8 ++ sel))) (h : decodeCSEL w mk = .ok i) :
    encode i = w := by
  obtain ⟨hz, rfl⟩ := checkReserved_eq_ok.mp h
  refine (hword _ _).trans (append_body_eq hop ?_)
  rw [← beq_iff_eq.mp hz, field23to16, field7to0, extract_append_low, extract_append_low]

theorem encode_of_decodeCIDX {mk : BitVec 8 → BitVec 16 → Instr} (hop : (opcodeOf w).toNat = k)
    (hword : ∀ c j, encode (mk c j) = BitVec.ofNat 8 k ++ (c ++ j)) (h : decodeCIDX w mk = .ok i) : encode i = w := by
  obtain ⟨-, rfl⟩ := checkReserved_eq_ok.mp h
  refine (hword _ _).trans (append_body_eq hop ?_)
  rw [field23to16, field15to0, extract_append_low]

end Reassembly

/-- Settles O2: the operands the decoder read and the reserved zeros it checked are all the bits below OP. -/
theorem encodeOfDecode : Obligations.EncodeOfDecode := by
  intro w i h
  unfold decode at h
  split at h
  -- The arms of `decode`, numbered in its order, by format.
  case h_1 | h_3 | h_4 | h_5 | h_6 | h_7 | h_9 => exact encode_of_decodeZ ‹_› rfl h
  case h_2 | h_14 => exact encode_of_decodeQSC ‹_› (fun _ _ => rfl) h
  case h_8 => exact encode_of_decodeI16 ‹_› (fun _ => rfl) h
  case h_10 => exact encode_of_decodeREG ‹_› (fun _ => rfl) h
  case h_11 => exact encode_of_decodeRES ‹_› (fun _ _ => rfl) h
  case h_12 => exact encode_of_decodeALP ‹_› (fun _ _ _ => rfl) h
  case h_13 => exact encode_of_decodeCSEL ‹_› (fun _ _ => rfl) h
  case h_15 | h_16 | h_17 => exact encode_of_decodeCIDX ‹_› (fun _ _ => rfl) h
  case h_18 => cases h

/-! ### The opcode map -/

/-- The row with the command's mnemonic selects the command's word. -/
theorem encode_selects (i : Instr) : Laws.EncodeRow.Statement i := by
  cases i with
  | nop => exact Laws.EncodeRow.nop
  | qpush s c => exact Laws.EncodeRow.qpush s c
  | connect => exact Laws.EncodeRow.connect
  | read => exact Laws.EncodeRow.read
  | compute => exact Laws.EncodeRow.compute
  | shift => exact Laws.EncodeRow.shift
  | round => exact Laws.EncodeRow.round
  | run t => exact Laws.EncodeRow.run t
  | finalize => exact Laws.EncodeRow.finalize
  | rdreg r => exact Laws.EncodeRow.rdreg r
  | rdres k j => exact Laws.EncodeRow.rdres k j
  | rdalpha c sel j => exact Laws.EncodeRow.rdalpha c sel j
  | rdcell c sel => exact Laws.EncodeRow.rdcell c sel
  | rdqlen s c => exact Laws.EncodeRow.rdqlen s c
  | rdraw c j => exact Laws.EncodeRow.rdraw c j
  | rdconj c j => exact Laws.EncodeRow.rdconj c j
  | rdshift c j => exact Laws.EncodeRow.rdshift c j

section Rows

variable {r r' : OpcodeRow} {w : Word} {a n : Nat}

/-- A selected word agrees with the row's pattern in every field the mask covers. -/
theorem selects_field (h : r.selects w = true) (hmask : r.mask.extractLsb' a n = BitVec.allOnes n) :
    w.extractLsb' a n = r.pattern.extractLsb' a n := by
  rw [← beq_iff_eq.mp h, BitVec.extractLsb'_and, hmask, BitVec.and_allOnes]

theorem selects_reserved (h : r.selects w = true) (hmask : r.mask.extractLsb' a n = BitVec.allOnes n)
    (hzero : r.pattern.extractLsb' a n = 0#n) : (w.extractLsb' a n == 0#n) = true :=
  beq_iff_eq.mpr ((selects_field h hmask).trans hzero)

/-- A row's mask covers OP. -/
theorem selects_opcode (hr : r ∈ opcodeMap) (h : r.selects w = true) : opcodeOf w = opcodeOf r.pattern :=
  selects_field h ((by decide : ∀ r ∈ opcodeMap, r.mask.extractLsb' 24 8 = BitVec.allOnes 8) r hr)

/-- No two rows share an opcode. -/
theorem row_eq_of_opcode (hr : r ∈ opcodeMap) (hr' : r' ∈ opcodeMap)
    (h : opcodeOf r.pattern = opcodeOf r'.pattern) : r = r' :=
  have hdistinct : ∀ r ∈ opcodeMap, ∀ r' ∈ opcodeMap, opcodeOf r.pattern = opcodeOf r'.pattern → r = r' := by decide
  hdistinct r hr r' hr' h

/-- The zeros of a row's pattern under its mask are the reserved bits of the row's format. -/
theorem decode_of_selects (hr : r ∈ opcodeMap) (h : r.selects w = true) : ∃ i, decode w = .ok i := by
  unfold decode
  rw [selects_opcode hr h]
  simp only [opcodeMap, List.mem_cons, List.not_mem_nil, or_false] at hr
  obtain rfl | rfl | rfl | rfl | rfl | rfl | rfl | rfl | rfl | rfl | rfl | rfl | rfl | rfl | rfl | rfl | rfl := hr <;>
    refine ⟨_, checkReserved_eq_ok.mpr ⟨?_, rfl⟩⟩
  -- One reserved field, or two (RDALPHA), or none (RDRAW, RDCONJ, RDSHIFT).
  any_goals exact selects_reserved h rfl rfl
  · exact Bool.and_eq_true_iff.mpr ⟨selects_reserved h rfl rfl, selects_reserved h rfl rfl⟩
  all_goals rfl

end Rows

/-- Settles O3: the row that selects a command's word is the one row with its opcode, and a selected word decodes. -/
theorem wordSelectsOneRowOrIsIllegal : Obligations.WordSelectsOneRowOrIsIllegal := by
  intro w
  cases hd : decode w with
  | ok i =>
    obtain ⟨r, hr, hname, hsel⟩ := encode_selects i
    rw [encodeOfDecode w i hd] at hsel
    refine .inl ⟨i, r, rfl, hr, hsel, hname, fun r' hr' hsel' => row_eq_of_opcode hr' hr ?_⟩
    rw [← selects_opcode hr hsel, ← selects_opcode hr' hsel']
  | error e =>
    refine .inr ⟨⟨e, rfl⟩, fun r hr => Bool.eq_false_iff.mpr fun hsel => ?_⟩
    obtain ⟨i, hi⟩ := decode_of_selects hr hsel
    cases hd.symm.trans hi

/-- Settles O4: the words are those of their commands, but the last, whose reserved bit 0 is set. -/
theorem exampleWordsDecode : Obligations.ExampleWordsDecode :=
  ⟨decodeOfEncode .connect, decodeOfEncode .round, decodeOfEncode (.run 2), decodeOfEncode .finalize,
    decodeOfEncode (.qpush 0 1), decodeOfEncode (.rdreg 0x06), decodeOfEncode (.rdres 1 3),
    decodeOfEncode (.rdalpha 2 1 0), decodeOfEncode (.rdcell 1 4), decodeOfEncode (.rdqlen 0 1),
    decodeOfEncode (.rdshift 1 15), by decide⟩

end Sys2Proof.Encoding

/-! SUPPORT. RUN against the commands it stands for (`42_array_commands.md` R175, R176; `30_encoding.md` R98): a sequence of
ROUNDs performs the rounds of a RUN, but for the response. -/

namespace Sys2Proof.RunSequence

open Sys2Proof.Machine
open Sys2Proof.Safety (execSeq)
open Sys2Proof.NumberDomain (roundStages_eq_bind runRounds_succ_eq_bind runBody_eq_bind)
open Sys2Proof.StepEffects
open Sys2Proof.StoreWriters (Written BodyWrites connectBody_writes readBody_writes computeBody_writes
  shiftBody_writes)

/-! ### What the rounds leave alone -/

/-- The state a body leaves, whether it completes or raises a fault, has the registers of s. -/
def LeavesRegisters (s : State) : StageResult → Prop
  | .ok t => SameRegisters s t
  | .error (t, _) => SameRegisters s t

section Registers

variable {s t u : State}

theorem sameRegisters_refl (s : State) : SameRegisters s s := ⟨rfl, rfl, rfl, rfl, rfl, rfl, rfl⟩

theorem sameRegisters_trans (hst : SameRegisters s t) (htu : SameRegisters t u) : SameRegisters s u where
  cfg := htu.cfg.trans hst.cfg
  retired0 := htu.retired0.trans hst.retired0
  resultCount := htu.resultCount.trans hst.resultCount
  result := htu.result.trans hst.result
  faultCause := htu.faultCause.trans hst.faultCause
  faultCmd := htu.faultCmd.trans hst.faultCmd
  faultInfo := htu.faultInfo.trans hst.faultInfo

/-- What a command writes before it reports; of the stage commands, FINALIZE alone writes these registers. -/
theorem sameRegisters_of_written {i : Instr} (h : Written s i u) (hi : i ≠ .finalize) : SameRegisters s u := by
  cases h with
  | nothing => exact sameRegisters_refl s
  | push r c q => exact { sameRegisters_refl s with }
  | connect =>
    exact { sameRegisters_of_storesOf
      (forCells_storesOf (connectCell_storesOf s.isLoadRound) { s with active := s.nextActive }) with }
  | read => exact sameRegisters_of_storesOf (forCells_storesOf readCell_storesOf s)
  | compute => exact sameRegisters_of_storesOf (forCells_storesOf computeCell_storesOf s)
  | shift => exact { sameRegisters_of_storesOf (forCells_storesOf shiftCell_storesOf s) with }
  | finalize => exact absurd rfl hi

theorem leavesRegisters_of_writes {i : Instr} {r : StageResult} (h : SameRegisters s t) (hr : BodyWrites i t r)
    (hi : i ≠ .finalize) : LeavesRegisters s r := by
  cases r with
  | ok v =>
    obtain ⟨u, phase, hu, rfl⟩ := hr
    exact { sameRegisters_trans h (sameRegisters_of_written hu hi) with }
  | error e =>
    obtain rfl : e.1 = t := hr
    exact h

/-- One body after another: the first fault ends the sequence. -/
theorem LeavesRegisters.bind {r : StageResult} {body : State → StageResult} (hr : LeavesRegisters s r)
    (hbody : ∀ t, SameRegisters s t → LeavesRegisters s (body t)) : LeavesRegisters s (r.bind body) := by
  cases r with
  | error e => exact hr
  | ok t => exact hbody t hr

theorem roundStages_leaves (h : SameRegisters s t) : LeavesRegisters s (roundStages t) := by
  rw [roundStages_eq_bind]
  exact (leavesRegisters_of_writes h (connectBody_writes t) nofun).bind fun s1 h1 =>
    (leavesRegisters_of_writes h1 (readBody_writes s1) nofun).bind fun s2 h2 =>
      (leavesRegisters_of_writes h2 (computeBody_writes s2) nofun).bind fun s3 h3 =>
        leavesRegisters_of_writes h3 (shiftBody_writes s3) nofun

theorem runRounds_leaves (h : SameRegisters s t) (k : Nat) : LeavesRegisters s (runRounds k t) := by
  induction k generalizing t with
  | zero => exact h
  | succ k ih =>
    rw [runRounds_succ_eq_bind]
    exact (roundStages_leaves h).bind fun _ h1 => ih h1

/-- A round takes no fault: it hands one to its command. -/
theorem roundStages_error_running {f : Raised} (hs : s.phase ≠ .fault) (h : roundStages s = .error (t, f)) :
    t.phase ≠ .fault := by
  have hanswers := roundStages_answers s
  rw [h] at hanswers
  obtain ⟨hstages, -⟩ := hanswers
  cases hstages with
  | refl => exact hs
  | tail _ hmove => exact hmove.phases.2

end Registers

/-! ### Rounds and the commands -/

section Rounds

variable {s t u : State} {k : Nat}

theorem shiftBody_phase (h : shiftBody s = .ok t) : t.phase = .connect := by
  obtain ⟨-, hb⟩ | ⟨-, c, -, hb⟩ | ⟨-, -, hb⟩ := shiftBody_cases s <;> cases hb.symm.trans h
  rfl

/-- A completed round ends where the next one starts. -/
theorem roundStages_phase (h : roundStages s = .ok t) : t.phase = .connect := by
  unfold roundStages at h
  split at h
  · cases h
  · split at h
    · cases h
    · split at h
      · cases h
      · exact shiftBody_phase h

theorem runRounds_succ_of_ok (h : runRounds k s = .ok u) : runRounds (k + 1) s = roundStages u := by
  rw [runRounds_add, h]
  simp only [runRounds]
  cases roundStages u <;> rfl

/-- A round that faults ends the rounds of a RUN. -/
theorem runRounds_of_fault {n : Nat} {e : State × Raised} (hk : k < n) (hu : runRounds k s = .ok u)
    (he : roundStages u = .error e) : runRounds n s = .error e := by
  obtain ⟨m, rfl⟩ := Nat.exists_eq_add_of_lt hk
  rw [Nat.add_right_comm, runRounds_add, runRounds_succ_of_ok hu, he]

/-- ROUND between rounds performs a round, whatever the last response was. -/
theorem exec_round_withRsp (hu : u.phase = .connect) (r : Response) :
    exec .round (u.withRsp r) = .next (((roundStages u).withRsp r).finish (encode .round)) := by
  have hphase : (u.withRsp r).phase = .connect := hu
  rw [← roundStages_withRsp]
  show Host.Outcome.next (stageCommand _ _ _) = _
  rw [stageCommand, if_neg (by simp [hphase]), roundBody, if_neg (not_not_intro hphase)]

theorem execSeq_singleton (i : Instr) (s : State) : execSeq [i] s = exec i s := by
  unfold execSeq
  cases exec i s <;> rfl

theorem execSeq_append_singleton {a : List Instr} (i : Instr) (h : execSeq a s = .next t) :
    execSeq (a ++ [i]) s = exec i t := by
  rw [execSeq_append, h]
  exact execSeq_singleton i t

/-- ROUNDs from P_CONNECT perform the rounds of a RUN, but for the response, or end in P_FAULT. -/
theorem execSeq_rounds (hs : s.phase = .connect) (k : Nat) :
    (∃ u r, runRounds k s = .ok u ∧ u.phase = .connect ∧
      execSeq (List.replicate k .round) s = .next (u.withRsp r)) ∨
    ∃ t, execSeq (List.replicate k .round) s = .next t ∧ t.phase = .fault := by
  induction k with
  | zero => exact .inl ⟨s, s.rsp, rfl, hs, rfl⟩
  | succ k ih =>
    rw [List.replicate_succ']
    obtain ⟨u, r, hu, hphase, hseq⟩ | ⟨t, hseq, ht⟩ := ih
    · rw [execSeq_append_singleton _ hseq, exec_round_withRsp hphase]
      cases hr : roundStages u with
      | ok v => exact .inl ⟨v, _, (runRounds_succ_of_ok hu).trans hr, roundStages_phase hr, rfl⟩
      | error e => exact .inr ⟨_, rfl, State.raise_phase _ _ _⟩
    · rw [execSeq_append_singleton _ hseq]
      exact .inr ⟨_, congrArg Host.Outcome.next (stageCommand_of_faulted ht), ht⟩

end Rounds

/-! ### RUN -/

section Run

variable {s t u : State} {n : BitVec 16}

theorem finalizeBody_of_connect (h : u.phase = .connect) : finalizeBody u = .ok (finalized u) :=
  if_neg (not_not_intro h)

theorem exec_run_of_ok (hs : s.phase = .connect) (hrun : runRounds n.toNat s = .ok u) (hu : u.phase = .connect) :
    exec (.run n) s = .next (finalized u).respondOk := by
  refine congrArg Host.Outcome.next (stageCommand_of_ok (by simp [hs]) ?_)
  rw [runBody_eq_bind, if_neg (not_not_intro hs), hrun]
  exact finalizeBody_of_connect hu

theorem exec_run_of_error {f : Raised} (hs : s.phase = .connect) (hrun : runRounds n.toNat s = .error (t, f)) :
    exec (.run n) s = .next (t.raise (encode (.run n)) f) := by
  refine congrArg Host.Outcome.next (stageCommand_of_error (by simp [hs]) ?_)
  rw [runBody_eq_bind, if_neg (not_not_intro hs), hrun]
  rfl

/-- A sequence that succeeds has met no fault, since FINALIZE is refused in P_FAULT. -/
theorem run_of_rounds_finalize (hs : s.phase = .connect)
    (hseq : execSeq (List.replicate n.toNat .round ++ [.finalize]) s = .next t) (hok : t.rsp.status = 0) :
    exec (.run n) s = .next t := by
  obtain ⟨u, r, hrun, hu, hrounds⟩ | ⟨v, hrounds, hv⟩ := execSeq_rounds hs n.toNat <;>
    rw [execSeq_append_singleton _ hrounds] at hseq
  · have hfinal : exec .finalize (u.withRsp r) = .next (finalized (u.withRsp r)).respondOk :=
      congrArg Host.Outcome.next (stageCommand_of_ok (by simp [State.withRsp, hu]) (finalizeBody_of_connect hu))
    rw [exec_run_of_ok hs hrun hu, ← hseq, hfinal]
    rfl
  · have hrefused : exec .finalize v = .next v.refuseFaulted := congrArg Host.Outcome.next (stageCommand_of_faulted hv)
    cases hrefused.symm.trans hseq
    exact absurd hok (show Cause.faulted.code ≠ 0 by decide)

/-- The fault a body raises is recorded with the word of the command that performed it. -/
theorem raise_eq_faultCmd (h : t.phase ≠ .fault) (w w' : Word) (f : Raised) (r : Response) :
    t.raise w f = { (t.withRsp r).raise w' f with faultCmd := w } := by
  rw [State.raise_of_running _ _ _ h, State.raise_of_running _ _ _ (show (t.withRsp r).phase ≠ .fault from h)]
  rfl

/-- RUN stops at the round that faults, where ROUND does. -/
theorem run_of_faulting_round {s1 : State} {k : Nat} (hs : s.phase = .connect) (hk : k < n.toNat)
    (hseq : execSeq (List.replicate k .round) s = .next s1) (hs1 : s1.phase = .connect)
    (ht : exec .round s1 = .next t) (hfault : t.rsp.status ≠ 0) :
    exec (.run n) s = .next { t with faultCmd := encode (.run n) } ∧ t.phase = .fault ∧
      t.result = s.result ∧ t.resultCount = s.resultCount ∧ t.retired0 = s.retired0 := by
  obtain ⟨u, r, hrun, hu, hrounds⟩ | ⟨v, hrounds, hv⟩ := execSeq_rounds hs k <;> cases hrounds.symm.trans hseq
  case inr => cases hs1.symm.trans hv
  have hkept := runRounds_leaves (sameRegisters_refl s) k
  rw [hrun] at hkept
  have hround := roundStages_leaves hkept
  rw [exec_round_withRsp hu] at ht
  cases hr : roundStages u with
  | ok v =>
    rw [hr] at ht
    cases ht
    exact absurd rfl hfault
  | error e =>
    obtain ⟨v, f⟩ := e
    have hrunning : v.phase ≠ .fault := roundStages_error_running (by simp [hu]) hr
    rw [hr] at ht hround
    cases ht
    refine ⟨?_, State.raise_phase _ _ _, (State.raise_result _ _ _).trans hround.result,
      (State.raise_resultCount _ _ _).trans hround.resultCount, (State.raise_retired0 _ _ _).trans hround.retired0⟩
    rw [exec_run_of_error hs (runRounds_of_fault hk hrun hr)]
    exact congrArg _ (raise_eq_faultCmd hrunning _ _ f r)

end Run

/-- Settles O48: ROUND and RUN perform the same rounds, and a fault in one of them differs in the recorded word only. -/
theorem runIsRoundsThenFinalize : Obligations.RunIsRoundsThenFinalize := fun _ _ hs =>
  ⟨fun _ => run_of_rounds_finalize hs, fun _ hk _ _ => run_of_faulting_round hs hk⟩

end Sys2Proof.RunSequence

/-! SUPPORT. Magnitudes and maxima (`40_units.md` R125, R128 to R131): what they are on numbers, and that they leave the
non-negative values. -/

namespace Sys2Proof.Maxima

open Sys2Proof.Machine Sys2Proof.NumberDomain Sys2Proof.Binary64Rounding
open Sys2Proof.Safety (AlphaInDomain ScalarNonNeg)

/-! ### Absolute values and the order of patterns -/

section Patterns

variable {a b v : Binary64} {bits : Nat}

@[simp] theorem b64Sign_abs (v : Binary64) : b64Sign (b64Abs v) = false := by
  simp [b64Sign, b64Abs]

theorem toNat_abs_pack (sign : Bool) (h : bits < 2 ^ 63) : (b64Abs (b64Pack sign bits)).toNat = bits := by
  unfold b64Abs
  rw [BitVec.toNat_and, toNat_pack sign h, show (0x7FFFFFFFFFFFFFFF#64).toNat = 2 ^ 63 - 1 from rfl,
    Nat.and_two_pow_sub_one_eq_mod]
  cases sign
  · simpa using h
  · simp; omega

/-- The order key reads the pattern as a sign and 63 bits. -/
theorem b64Key_pack (sign : Bool) (h : bits < 2 ^ 63) : b64Key (b64Pack sign bits) = signed sign bits := by
  simp only [b64Key, b64Sign_pack sign h, toNat_abs_pack sign h, signed]

theorem signed_lt_signed_iff {f : Nat → Nat} (hf : StrictMono f) (h0 : f 0 = 0) (s t : Bool) (x y : Nat) :
    signed s (f x) < signed t (f y) ↔ signed s x < signed t y := by
  have hxy := hf.lt_iff_lt (a := x) (b := y)
  have hyx := hf.lt_iff_lt (a := y) (b := x)
  have hx := hf.injective.eq_iff' h0 (a := x)
  have hy := hf.injective.eq_iff' h0 (a := y)
  cases s <;> cases t <;> simp only [signed, if_true, Bool.false_eq_true, if_false] <;> omega

/-- The order key orders the patterns as the numbers they stand for. -/
theorem b64Key_lt_iff (a b : Binary64) : b64Key a < b64Key b ↔ b64Int a < b64Int b := by
  obtain ⟨s, x, hx, rfl⟩ := exists_eq_pack a
  obtain ⟨t, y, hy, rfl⟩ := exists_eq_pack b
  rw [b64Key_pack s hx, b64Key_pack t hy, b64Int_pack s hx, b64Int_pack t hy]
  exact (signed_lt_signed_iff patternMag_strictMono rfl s t x y).symm

/-- A finite number lies strictly between the two infinities. -/
theorem b64Key_finite (hv : b64IsFinite v = true) :
    b64Key (b64Inf true) < b64Key v ∧ b64Key v < b64Key (b64Inf false) := by
  obtain ⟨s, x, hx, rfl⟩ := exists_eq_pack v
  rw [b64IsFinite_pack s hx] at hv
  have hinf (p : Bool) : b64Key (b64Inf p) = signed p (2047 * 2 ^ 52 : Nat) := b64Key_pack p (by decide)
  rw [hinf, hinf, b64Key_pack s hx]
  cases s <;> simp only [signed, if_true, Bool.false_eq_true, if_false] <;> omega

theorem b64Abs_of_zero (h : b64IsZero v = true) : b64Abs v = 0#64 := by
  obtain ⟨s, x, hx, rfl⟩ := exists_eq_pack v
  obtain rfl := (b64IsZero_pack s hx).mp h
  cases s <;> decide

theorem not_nan_of_zero (h : b64IsZero v = true) : b64IsNaN v = false := by
  simp_all [b64IsZero, b64IsNaN]

end Patterns

/-! ### max2 -/

section Max

variable {a b v : Binary64}

/-- max2 returns one of its two operands. -/
theorem max2_binary64 (a b : Binary64) : max2 (.binary64 a) (.binary64 b) = .binary64 (if b64Gt b a then b else a) := by
  simp only [max2]
  split <;> rfl

theorem max2_of_nan (h : b64IsNaN a = true ∨ b64IsNaN b = true) : max2 (.binary64 a) (.binary64 b) = .binary64 a := by
  rw [max2_binary64, if_neg]
  rcases h with h | h <;> simp [b64Gt, h]

theorem max2_of_not_nan (ha : b64IsNaN a = false) (hb : b64IsNaN b = false) :
    max2 (.binary64 a) (.binary64 b) = .binary64 (if b64Key a < b64Key b then b else a) := by
  simp [max2_binary64, b64Gt, ha, hb]

/-- The infinities stand outside the finite numbers. -/
theorem max2_finite_inf (hv : b64IsFinite v = true) :
    max2 (.binary64 v) (.binary64 (b64Inf false)) = .binary64 (b64Inf false) ∧
    max2 (.binary64 (b64Inf false)) (.binary64 v) = .binary64 (b64Inf false) ∧
    max2 (.binary64 v) (.binary64 (b64Inf true)) = .binary64 v ∧
    max2 (.binary64 (b64Inf true)) (.binary64 v) = .binary64 v := by
  obtain ⟨hlow, hhigh⟩ := b64Key_finite hv
  have hn := not_nan_of_finite hv
  rw [max2_of_not_nan hn (b64IsNaN_inf _), max2_of_not_nan (b64IsNaN_inf _) hn,
    max2_of_not_nan hn (b64IsNaN_inf _), max2_of_not_nan (b64IsNaN_inf _) hn,
    if_pos hhigh, if_neg hhigh.le.not_gt, if_neg hlow.le.not_gt, if_pos hlow]
  exact ⟨rfl, rfl, rfl, rfl⟩

/-- Settles O35: the order key orders the finite patterns as numbers and puts the infinities outside them. -/
theorem maxOrderAndNaN : Obligations.MaxOrderAndNaN :=
  ⟨exactEval_max, fun _ _ => max2_of_nan,
    fun a b ha hb => by
      rw [max2_of_not_nan (not_nan_of_finite ha) (not_nan_of_finite hb)]
      simp only [b64Key_lt_iff],
    fun _ => max2_finite_inf, fun _ _ _ => rfl⟩

variable {x y z : Scalar}

theorem scalarEval_max2 (ρ : Nat → ℝ) (hx : x.inDomain .ideal = true) (hy : y.inDomain .ideal = true) :
    scalarEval ρ (max2 x y) = max (scalarEval ρ x) (scalarEval ρ y) := by
  obtain ⟨-, a, b, rfl, rfl⟩ | ⟨h, -⟩ := inDomain_pair hx hy
  · exact exactEval_max ρ a b
  · cases h

theorem scalarEval_max3 (ρ : Nat → ℝ) (hx : x.inDomain .ideal = true) (hy : y.inDomain .ideal = true)
    (hz : z.inDomain .ideal = true) :
    scalarEval ρ (max3 x y z) = max (max (scalarEval ρ x) (scalarEval ρ y)) (scalarEval ρ z) := by
  rw [max3, scalarEval_max2 ρ (max2_inDomain hx hy) hz, scalarEval_max2 ρ hx hy]

end Max

/-! ### The merges -/

section Merges

variable {top lower pred : Alpha}

theorem getElem_mergeInner (top lower pred : Alpha) (cyc : BitVec 64) {i : Nat} (h : i < 8) :
    (mergeInner top lower pred cyc).1[i] = max3 top[i] lower[i] pred[i] := by
  simp [mergeInner]

theorem getElem_mergeLast (top pred : Alpha) (cyc : BitVec 64) {i : Nat} (h : i < 8) :
    (mergeLast top pred cyc).1[i] = max2 top[i] pred[i] := by
  simp [mergeLast]

/-- Settles O36: bin by bin the merges are max3 and max2, and these are maxima in IDEAL. -/
theorem mergesAreMaxima : Obligations.MergesAreMaxima := by
  intro top lower pred cyc
  refine ⟨rfl, rfl, fun i h => ⟨getElem_mergeInner _ _ _ _ h, getElem_mergeLast _ _ _ h⟩,
    fun ρ htop hlower hpred i h => ?_⟩
  have bin {a : Alpha} (ha : AlphaInDomain .ideal a) : a[i].inDomain .ideal = true := bin_inDomain ha ⟨i, h⟩
  rw [getElem_mergeInner _ _ _ _ h, getElem_mergeLast _ _ _ h]
  exact ⟨scalarEval_max3 ρ (bin htop) (bin hlower) (bin hpred), scalarEval_max2 ρ (bin htop) (bin hpred)⟩

end Merges

/-! ### The magnitude -/

section Magnitude

variable {z : Sample}

theorem scalarEval_mag (ρ : Nat → ℝ) (hz : z.inDomain .ideal = true) : scalarEval ρ (mag z) = ‖sampleEval ρ z‖ := by
  obtain ⟨hre, him⟩ := sample_inDomain_iff.mp hz
  obtain ⟨re, im⟩ := z
  obtain ⟨-, a, b, rfl, rfl⟩ | ⟨h, -⟩ := inDomain_pair hre him
  · rw [Complex.norm_def]
    exact exactEval_mag ρ a b
  · cases h

theorem b64Mag2_of_zero {x o : Binary64} (hx : b64IsNaN x = false) (ho : b64IsZero o = true) :
    b64Mag2 x o = b64Abs x ∧ b64Mag2 o x = b64Abs x := by
  constructor
  · simp [b64Mag2, ho, hx]
  · by_cases hzero : b64IsZero x = true
    · simp [b64Mag2, hzero, not_nan_of_zero ho, b64Abs_of_zero hzero, b64Abs_of_zero ho]
    · simp [b64Mag2, hzero, ho, hx]

theorem b64Mag2_nonNeg (x y : Binary64) : b64IsNaN (b64Mag2 x y) = true ∨ b64Sign (b64Mag2 x y) = false := by
  unfold b64Mag2
  simp only
  split
  · split
    · exact .inl (b64IsNaN_toNaN _)
    · exact .inr (b64Sign_abs x)
  · split
    · split
      · exact .inl (b64IsNaN_toNaN _)
      · exact .inr (b64Sign_abs y)
    · split
      · exact .inl ‹_›
      · exact .inr (b64Sign_abs _)

/-- Settles O37: the modulus in IDEAL, and the laws case by case in BINARY64. -/
theorem magnitudeLaws : Obligations.MagnitudeLaws :=
  ⟨fun ρ _ hz => scalarEval_mag ρ hz,
    fun _ _ hx ho =>
      have ⟨hleft, hright⟩ := b64Mag2_of_zero hx ho
      ⟨congrArg Scalar.binary64 hleft, congrArg Scalar.binary64 hright⟩,
    fun x y => ⟨b64Mag2 x y, rfl, b64Mag2_nonNeg x y⟩⟩

end Magnitude

end Sys2Proof.Maxima

/-! SUPPORT. The alpha vectors stay non-negative (`40_units.md` R131): they hold zeros, magnitudes and maxima of what they
held, and maxima of one number domain are one of their operands. -/

namespace Sys2Proof.NonNegative

open Sys2Proof.Machine Sys2Proof.NumberDomain Sys2Proof.StepEffects Sys2Proof.Maxima
open Sys2Proof.ResetState (scalarZero_nonNeg alphaZero_nonNeg nonNegInv_resetWith)
open Sys2Proof.StoreWriters (forCells_connect_keeps forCells_read_keeps forCells_shift_keeps)
open Sys2Proof.Safety (AlphaInDomain FifoInDomain ScalarNonNeg AlphaNonNeg NonNegInv)

/-! ### Scalars -/

section Scalars

variable {num : Numerics} {x y z : Scalar}

theorem max2_nonNeg (hx : x.inDomain num = true) (hy : y.inDomain num = true) (h0x : ScalarNonNeg x)
    (h0y : ScalarNonNeg y) : ScalarNonNeg (max2 x y) := by
  obtain ⟨-, a, b, rfl, rfl⟩ | ⟨-, a, b, rfl, rfl⟩ := inDomain_pair hx hy
  · intro ρ
    rw [exactEval_max]
    exact le_max_of_le_left (h0x ρ)
  · rw [max2_binary64]
    split
    · exact h0y
    · exact h0x

theorem max3_nonNeg (hx : x.inDomain num = true) (hy : y.inDomain num = true) (hz : z.inDomain num = true)
    (h0x : ScalarNonNeg x) (h0y : ScalarNonNeg y) (h0z : ScalarNonNeg z) : ScalarNonNeg (max3 x y z) :=
  max2_nonNeg (max2_inDomain hx hy) hz (max2_nonNeg hx hy h0x h0y) h0z

theorem mag_nonNeg {z : Sample} (hz : z.inDomain num = true) : ScalarNonNeg (mag z) := by
  obtain ⟨hre, him⟩ := sample_inDomain_iff.mp hz
  obtain ⟨re, im⟩ := z
  obtain ⟨-, a, b, rfl, rfl⟩ | ⟨-, a, b, rfl, rfl⟩ := inDomain_pair hre him
  · intro ρ
    rw [exactEval_mag]
    exact Real.sqrt_nonneg _
  · exact b64Mag2_nonNeg a b

end Scalars

/-! ### Alpha vectors -/

section Alphas

variable {num : Numerics} {a b c : Alpha}

theorem alphaNonNeg_ofFn {f : Fin 8 → Scalar} (h : ∀ i, ScalarNonNeg (f i)) : AlphaNonNeg (Vector.ofFn f) := by
  intro x hx
  rw [Vector.mem_toList_iff, Vector.mem_ofFn] at hx
  obtain ⟨i, rfl⟩ := hx
  exact h i

theorem bin_nonNeg (h : AlphaNonNeg a) (i : Fin 8) : ScalarNonNeg a[i] :=
  h _ (Vector.mem_toList_iff.mpr (Vector.getElem_mem _))

theorem mergeInner_nonNeg (ha : AlphaInDomain num a) (hb : AlphaInDomain num b) (hc : AlphaInDomain num c)
    (h0a : AlphaNonNeg a) (h0b : AlphaNonNeg b) (h0c : AlphaNonNeg c) (cyc : BitVec 64) :
    AlphaNonNeg (mergeInner a b c cyc).1 :=
  alphaNonNeg_ofFn fun i => max3_nonNeg (bin_inDomain ha i) (bin_inDomain hb i) (bin_inDomain hc i)
    (bin_nonNeg h0a i) (bin_nonNeg h0b i) (bin_nonNeg h0c i)

theorem mergeLast_nonNeg (ha : AlphaInDomain num a) (hb : AlphaInDomain num b) (h0a : AlphaNonNeg a)
    (h0b : AlphaNonNeg b) (cyc : BitVec 64) : AlphaNonNeg (mergeLast a b cyc).1 :=
  alphaNonNeg_ofFn fun i =>
    max2_nonNeg (bin_inDomain ha i) (bin_inDomain hb i) (bin_nonNeg h0a i) (bin_nonNeg h0b i)

/-- Bin i of a list of magnitudes, +0 beyond its end. -/
theorem getD_mag_nonNeg {x : List Sample} (hx : FifoInDomain num x) (i : Nat) :
    ScalarNonNeg ((x.map mag).getD i (scalarZero num)) := by
  rw [List.getD_eq_getElem?_getD, List.getElem?_map]
  cases hi : x[i]? with
  | none => exact scalarZero_nonNeg num
  | some z => exact mag_nonNeg (hx z (List.mem_of_getElem? hi))

theorem spectrum_nonNeg {x : List Sample} (hx : FifoInDomain num x) (cyc : BitVec 64) :
    AlphaNonNeg (spectrum num x cyc).1.lower ∧ AlphaNonNeg (spectrum num x cyc).1.upper :=
  have hcrop := fifoInDomain_cropCentral_fftShift hx
  ⟨alphaNonNeg_ofFn fun _ => getD_mag_nonNeg hcrop _, alphaNonNeg_ofFn fun _ => getD_mag_nonNeg hcrop _⟩

end Alphas

/-! ### Cells -/

/-- The alpha registers of a cell are non-negative: the cell's part of `NonNegInv`. -/
structure CellNonNeg (k : Cell) : Prop where
  alpha : AlphaNonNeg k.alpha
  alphaTop : AlphaNonNeg k.alphaTop

section Cells

variable {num : Numerics} {k : Cell}

theorem cellNonNeg_reset (num : Numerics) : CellNonNeg (Cell.reset num) :=
  ⟨alphaZero_nonNeg num, alphaZero_nonNeg num⟩

theorem cellSpectrum_nonNeg {cfg : Config} (h : CellInDomain cfg.numerics k) (cyc : BitVec 64) :
    AlphaNonNeg (cellSpectrum cfg k cyc).1.lower ∧ AlphaNonNeg (cellSpectrum cfg k cyc).1.upper :=
  spectrum_nonNeg (fifoInDomain_pfft _ (fifoInDomain_corr h.raw h.conj _) _) _

/-- A merge step writes the spectrum's upper half and maxima into the alpha registers. -/
theorem mergeStep_nonNeg {sp : Spectrum} {pred : Alpha} (first last : Bool) (h : CellInDomain num k)
    (hlower : AlphaInDomain num sp.lower) (hpred : AlphaInDomain num pred) (h0 : CellNonNeg k)
    (h0lower : AlphaNonNeg sp.lower) (h0upper : AlphaNonNeg sp.upper) (h0pred : AlphaNonNeg pred) (cyc : BitVec 64) :
    CellNonNeg (mergeStep first last sp pred k cyc).1 := by
  unfold mergeStep
  split
  · exact ⟨h0.alpha, h0upper⟩
  · split
    · have hlast := mergeLast_nonNeg h.alphaTop hpred h0.alphaTop h0pred cyc
      exact ⟨hlast, hlast⟩
    · exact ⟨mergeInner_nonNeg h.alphaTop hlower hpred h0.alphaTop h0lower h0pred cyc, h0upper⟩

end Cells

/-! ### The state -/

section States

variable {num : Numerics} {s t : State}

theorem cell_nonNeg (h : NonNegInv s) (c : Nat) : CellNonNeg (s.cell c) := by
  rcases Nat.lt_or_ge c s.cells.length with hc | hc
  · obtain ⟨halpha, htop⟩ := h.1 _ (State.cell_mem hc)
    exact ⟨halpha, htop⟩
  · rw [State.cell, List.getD_eq_default _ _ hc]
    exact cellNonNeg_reset _

theorem predAlpha_nonNeg (h : NonNegInv s) (c : Nat) : AlphaNonNeg (predAlpha s c) := by
  unfold predAlpha
  split
  · exact alphaZero_nonNeg _
  · exact (cell_nonNeg h (c - 1)).alpha

theorem runOutput_nonNeg (h : NonNegInv s) : ∀ a ∈ s.runOutput, AlphaNonNeg a := by
  intro a ha
  obtain ⟨c, -, rfl⟩ := List.mem_map.mp ha
  split
  · exact (cell_nonNeg h 0).alphaTop
  · exact (cell_nonNeg h c).alpha

theorem nonNegInv_setCell {k : Cell} (h : NonNegInv s) (c : Nat) (hk : CellNonNeg k) : NonNegInv (s.setCell c k) := by
  refine ⟨fun k' hk' => ?_, h.2⟩
  rcases List.mem_or_eq_of_mem_set hk' with hk' | rfl
  · exact h.1 k' hk'
  · exact ⟨hk.alpha, hk.alphaTop⟩

/-- The invariant looks at the alpha registers and the results only. -/
theorem nonNegInv_of_sameAlphas (h : NonNegInv s)
    (hcells : t.cells.map (fun k => (k.alpha, k.alphaTop)) = s.cells.map (fun k => (k.alpha, k.alphaTop)))
    (hresult : t.result = s.result) : NonNegInv t := by
  refine ⟨fun k hk => ?_, hresult ▸ h.2⟩
  have hmem := List.mem_map_of_mem (f := fun k : Cell => (k.alpha, k.alphaTop)) hk
  rw [hcells] at hmem
  obtain ⟨k', hk', heq⟩ := List.mem_map.mp hmem
  obtain ⟨halpha, htop⟩ := Prod.mk.inj heq
  exact halpha ▸ htop ▸ h.1 k' hk'

theorem nonNegInv_congr (h : NonNegInv s) (hcells : t.cells = s.cells) (hresult : t.result = s.result) : NonNegInv t :=
  nonNegInv_of_sameAlphas h (congrArg _ hcells) hresult

theorem nonNegInv_computeCell (hs : StateInDomain num s) (h : NonNegInv s) (c : Nat) :
    NonNegInv (computeCell c s) := by
  obtain rfl := hs.numerics
  obtain ⟨hlower, -⟩ := cellSpectrum_inDomain (hs.cell c) 0
  obtain ⟨h0lower, h0upper⟩ := cellSpectrum_nonNeg (hs.cell c) 0
  rw [computeCell_eq]
  exact nonNegInv_setCell h c (mergeStep_nonNeg _ _ (hs.cell c) hlower (hs.predAlpha c) (cell_nonNeg h c) h0lower
    h0upper (predAlpha_nonNeg h c) 0)

/-! ### Stages -/

/-- A completed stage keeps every Scalar in the domain. -/
theorem stateInDomain_stage (hs : StateInDomain num s) (hmove : StageMove s t) : StateInDomain num t := by
  cases hmove with
  | connect =>
    have hactive : StateInDomain num { s with active := s.nextActive } := { hs with }
    exact { hactive.forCells fun c t ht => ht.connectCell s.isLoadRound c with }
  | read => exact { hs.forCells fun c t ht => ht.readCell c with }
  | compute => exact { hs.forCells fun c t ht => ht.computeCell c with }
  | shift => exact { hs.forCells fun c t ht => ht.shiftCell c with }
  | finalize => exact { hs with result := hs.runOutput }

/-- Of the stages, COMPUTE writes the alpha registers and FINALIZE the results. -/
theorem nonNegInv_stage (hs : StateInDomain num s) (h : NonNegInv s) (hmove : StageMove s t) : NonNegInv t := by
  cases hmove with
  | connect =>
    exact nonNegInv_of_sameAlphas h
      (forCells_connect_keeps (fun _ _ _ _ _ => rfl) s.isLoadRound { s with active := s.nextActive })
      (sameRegisters_of_storesOf (forCells_storesOf (connectCell_storesOf _) { s with active := s.nextActive })).result
  | read =>
    exact nonNegInv_of_sameAlphas h (forCells_read_keeps (fun _ _ _ _ => rfl) s)
      (sameRegisters_of_storesOf (forCells_storesOf readCell_storesOf s)).result
  | shift =>
    exact nonNegInv_of_sameAlphas h (forCells_shift_keeps (fun _ _ _ => rfl) s)
      (sameRegisters_of_storesOf (forCells_storesOf shiftCell_storesOf s)).result
  | finalize => exact ⟨h.1, runOutput_nonNeg h⟩
  | compute =>
    have hloop : StateInDomain num (forCells computeCell s) ∧ NonNegInv (forCells computeCell s) :=
      forCells_induct (P := fun t => StateInDomain num t ∧ NonNegInv t) ⟨hs, h⟩
        fun c t _ ⟨ht, h0t⟩ => ⟨ht.computeCell c, nonNegInv_computeCell ht h0t c⟩
    exact hloop.2

theorem nonNegInv_stages (hs : StateInDomain num s) (h : NonNegInv s) (ht : Stages s t) : NonNegInv t := by
  have hboth : StateInDomain num t ∧ NonNegInv t := by
    induction ht with
    | refl => exact ⟨hs, h⟩
    | tail _ hmove ih => exact ⟨stateInDomain_stage ih.1 hmove, nonNegInv_stage ih.1 ih.2 hmove⟩
  exact hboth.2

/-! ### Commands and steps -/

theorem nonNegInv_command (hs : StateInDomain num s) (h : NonNegInv s) (ht : CommandEffect s t) : NonNegInv t := by
  cases ht with
  | respond | push => exact nonNegInv_congr h rfl rfl
  | complete hstages => exact nonNegInv_congr (nonNegInv_stages hs h hstages) rfl rfl
  | fault hstages w f =>
    exact nonNegInv_congr (nonNegInv_stages hs h hstages) (State.raise_cells _ w f) (State.raise_result _ w f)

/-- What a step does, the operand of a command being one the port admits (log entry 7). -/
theorem step_cases_inDomain (hs : StateInDomain num s) (ht : step s = .next t) :
    t = s ∨ (∃ rest, t = { s with port := rest }.hostReset) ∨
    ∃ rest d, StateInDomain num { s with port := rest, operand := d } ∧
      CommandEffect { s with port := rest, operand := d } t := by
  unfold step at ht
  split at ht
  case isFalse => cases ht
  case isTrue =>
    obtain ⟨-, ha⟩ | ⟨rest, -, ha⟩ | ⟨w, d, rest, -, hd, ha⟩ | ⟨w, d, rest, -, -, ha⟩ := s.accept_cases <;>
      simp only [ha] at ht
    · cases ht
      exact .inl rfl
    · cases ht
      exact .inr (.inl ⟨rest, rfl⟩)
    · refine .inr (.inr ⟨rest, d, { hs with operand := hs.numerics ▸ hd }, ?_⟩)
      split at ht
      · rename_i i _
        obtain ⟨t', ht', heffect⟩ := exec_effect i { s with port := rest, operand := d }
        cases ht'.symm.trans ht
        exact heffect
      · cases ht
        exact .raise w (by simp)
    · cases ht

end States

/-- Settles O54: the registers take magnitudes and maxima of one number domain only, and the reset event clears them. -/
theorem stepKeepsAlphaNonNegative : Obligations.StepKeepsAlphaNonNegative := by
  intro s t hs h ht
  obtain rfl | ⟨rest, rfl⟩ | ⟨rest, d, hd, heffect⟩ := step_cases_inDomain (domainInv_iff.mp hs) ht
  · exact h
  · exact nonNegInv_resetWith s.cfg
  · exact nonNegInv_command hd (nonNegInv_congr h rfl rfl) heffect

end Sys2Proof.NonNegative

/-! SUPPORT. The complex primitives and the twiddle factors as complex numbers (`40_units.md` R111 to R117): TWIDDLE(n, k)
is k of the n equal steps of a turn, and its symmetries are laws of the exponential. -/

namespace Sys2Proof.Twiddles

open Sys2Proof.Machine Sys2Proof.NumberDomain
open Sys2Proof.Safety (QuarterTurns)

/-! ### Complex primitives -/

section Primitives

variable {x y : Scalar} {a b : Sample}

theorem scalarEval_add (ρ : Nat → ℝ) (hx : x.inDomain .ideal = true) (hy : y.inDomain .ideal = true) :
    scalarEval ρ (scalarAdd x y) = scalarEval ρ x + scalarEval ρ y := by
  obtain ⟨-, p, q, rfl, rfl⟩ | ⟨h, -⟩ := inDomain_pair hx hy
  · exact exactEval_add ρ p q
  · cases h

theorem scalarEval_sub (ρ : Nat → ℝ) (hx : x.inDomain .ideal = true) (hy : y.inDomain .ideal = true) :
    scalarEval ρ (scalarSub x y) = scalarEval ρ x - scalarEval ρ y := by
  obtain ⟨-, p, q, rfl, rfl⟩ | ⟨h, -⟩ := inDomain_pair hx hy
  · exact exactEval_sub ρ p q
  · cases h

theorem scalarEval_mul (ρ : Nat → ℝ) (hx : x.inDomain .ideal = true) (hy : y.inDomain .ideal = true) :
    scalarEval ρ (scalarMul x y) = scalarEval ρ x * scalarEval ρ y := by
  obtain ⟨-, p, q, rfl, rfl⟩ | ⟨h, -⟩ := inDomain_pair hx hy
  · exact exactEval_mul ρ p q
  · cases h

/-- A binary64 pattern reads as 0, and so does its negation. -/
theorem scalarEval_neg (ρ : Nat → ℝ) (x : Scalar) : scalarEval ρ (scalarNeg x) = -scalarEval ρ x := by
  cases x with
  | exact p => exact exactEval_neg ρ p
  | binary64 v => exact neg_zero.symm

theorem sampleEval_cadd (ρ : Nat → ℝ) (ha : a.inDomain .ideal = true) (hb : b.inDomain .ideal = true) :
    sampleEval ρ (cadd a b) = sampleEval ρ a + sampleEval ρ b := by
  obtain ⟨hare, haim⟩ := sample_inDomain_iff.mp ha
  obtain ⟨hbre, hbim⟩ := sample_inDomain_iff.mp hb
  exact Complex.ext (scalarEval_add ρ hare hbre) (scalarEval_add ρ haim hbim)

theorem sampleEval_cmul (ρ : Nat → ℝ) (ha : a.inDomain .ideal = true) (hb : b.inDomain .ideal = true) :
    sampleEval ρ (cmul a b) = sampleEval ρ a * sampleEval ρ b := by
  obtain ⟨hare, haim⟩ := sample_inDomain_iff.mp ha
  obtain ⟨hbre, hbim⟩ := sample_inDomain_iff.mp hb
  apply Complex.ext
  · rw [Complex.mul_re]
    simp only [sampleEval, cmul, scalarEval_sub ρ (scalarMul_inDomain hare hbre) (scalarMul_inDomain haim hbim),
      scalarEval_mul ρ hare hbre, scalarEval_mul ρ haim hbim]
  · rw [Complex.mul_im]
    simp only [sampleEval, cmul, scalarEval_add ρ (scalarMul_inDomain hare hbim) (scalarMul_inDomain haim hbre),
      scalarEval_mul ρ hare hbim, scalarEval_mul ρ haim hbre]

theorem sampleEval_conj (ρ : Nat → ℝ) (z : Sample) : sampleEval ρ (conj z) = (starRingEnd ℂ) (sampleEval ρ z) :=
  Complex.ext rfl (scalarEval_neg ρ z.im)

end Primitives

/-! ### Steps of a turn -/

/-- k steps of -2π/n on the unit circle. -/
noncomputable def turn (n k : Nat) : ℂ := Complex.exp (-(2 * Real.pi * k / n : ℝ) * Complex.I)

section Turns

variable {m n : Nat}

theorem turn_eq_cos_sin (n k : Nat) :
    turn n k = ⟨Real.cos (2 * Real.pi * k / n), -Real.sin (2 * Real.pi * k / n)⟩ := by
  rw [turn, ← Complex.ofReal_neg]
  apply Complex.ext
  · rw [Complex.exp_ofReal_mul_I_re, Real.cos_neg]
  · rw [Complex.exp_ofReal_mul_I_im, Real.sin_neg]

@[simp] theorem turn_zero (n : Nat) : turn n 0 = 1 := by simp [turn]

theorem turn_add (n j k : Nat) : turn n (j + k) = turn n j * turn n k := by
  rw [turn, turn, turn, ← Complex.exp_add]
  congr 1
  push_cast
  ring

theorem norm_turn (n k : Nat) : ‖turn n k‖ = 1 := by
  rw [turn, ← Complex.ofReal_neg]
  exact Complex.norm_exp_ofReal_mul_I _

/-- Steps c times as fine, c times as many. -/
theorem turn_mul_mul {c : Nat} (hc : c ≠ 0) (n k : Nat) : turn (c * n) (c * k) = turn n k := by
  have hc' : (c : ℝ) ≠ 0 := Nat.cast_ne_zero.mpr hc
  rw [turn, turn, Nat.cast_mul, Nat.cast_mul, mul_left_comm, mul_div_mul_left _ _ hc']

/-- q quarter turns. -/
theorem turn_quarters (hn : 0 < n) {k q : Nat} (h : 4 * k = n * q) : turn n k = (-Complex.I) ^ q := by
  have hn' : (n : ℝ) ≠ 0 := Nat.cast_ne_zero.mpr hn.ne'
  have hangle : 2 * Real.pi * k / n = q * (Real.pi / 2) := by
    have hcast : 4 * (k : ℝ) = n * q := mod_cast h
    field_simp
    linarith
  rw [turn, hangle, ← Complex.exp_neg_pi_div_two_mul_I, ← Complex.exp_nat_mul]
  congr 1
  push_cast
  ring

/-- Whole turns. -/
theorem turn_mul_self (hn : 0 < n) (j : Nat) : turn n (n * j) = 1 := by
  rw [turn_quarters hn (show 4 * (n * j) = n * (4 * j) by ring), pow_mul, Even.neg_pow (by decide),
    Complex.I_pow_four, one_pow]

/-- Half a turn. -/
theorem turn_half (hm : 0 < m) : turn (2 * m) m = -1 := by
  rw [turn_quarters (q := 2) (by omega) (by ring)]
  simp

/-- Steps count modulo a whole turn. -/
theorem turn_mul_mod (hn : 0 < n) (j k : Nat) : turn n (j * (k % n)) = turn n (j * k) := by
  conv_rhs => rw [← Nat.div_add_mod k n, Nat.mul_add, Nat.mul_left_comm, turn_add, turn_mul_self hn, one_mul]

end Turns

/-! ### The twiddle generator -/

/-- q quarter turns, exact in both domains (`40_units.md` R116). -/
def quarterTurn (num : Numerics) : Nat → Sample
  | 0 => ⟨scalarOne num, scalarZero num⟩
  | 1 => ⟨scalarZero num, scalarMinusOne num⟩
  | 2 => ⟨scalarMinusOne num, scalarZero num⟩
  | _ => ⟨scalarZero num, scalarOne num⟩

theorem twiddle_quarters (num : Numerics) {n k q : Nat} (hn : 0 < n) (h : 4 * k = n * q) :
    twiddle num n k = quarterTurn num q := by
  unfold twiddle
  rw [h, if_pos (Nat.mul_mod_right n q), Nat.mul_div_cancel_left q hn]
  rfl

theorem twiddle_ideal {n k : Nat} (h : 4 * k % n ≠ 0) :
    twiddle .ideal n k = ⟨.exact (.cosTurn k n), .exact (exactNeg (.sinTurn k n))⟩ := by
  unfold twiddle
  rw [if_neg h]

/-- Off the quarter turns the factor is the open parameter (log entry 4). -/
theorem twiddle_binary64 {n k : Nat} (h : 4 * k % n ≠ 0) :
    twiddle .binary64 n k = ⟨.binary64 (Config.twiddleB64 n k).1, .binary64 (Config.twiddleB64 n k).2⟩ := by
  unfold twiddle
  rw [if_neg h]

theorem quarterTurns (num : Numerics) : QuarterTurns num (scalarOne num) (scalarMinusOne num) (scalarZero num) :=
  ⟨twiddle_quarters num (q := 0) (by decide) rfl, twiddle_quarters num (q := 0) (by decide) rfl,
    twiddle_quarters num (q := 2) (by decide) rfl, fun n hn =>
    ⟨twiddle_quarters num (q := 0) (by omega) (by omega), twiddle_quarters num (q := 1) (by omega) (by omega),
      twiddle_quarters num (q := 2) (by omega) (by omega), twiddle_quarters num (q := 3) (by omega) (by omega)⟩⟩

/-- Settles O28: each of the four factors is the quarter turn of its number. -/
theorem quarterTurnsAreExact : Obligations.QuarterTurnsAreExact := ⟨quarterTurns .ideal, quarterTurns .binary64⟩

theorem sampleEval_quarterTurn (ρ : Nat → ℝ) {q : Nat} (hq : q < 4) :
    sampleEval ρ (quarterTurn .ideal q) = (-Complex.I) ^ q := by
  interval_cases q <;> apply Complex.ext <;> simp [sampleEval, quarterTurn, pow_succ]

/-- In IDEAL a twiddle factor is k steps of -2π/n. -/
theorem sampleEval_twiddle (ρ : Nat → ℝ) {n k : Nat} (h : k < n) : sampleEval ρ (twiddle .ideal n k) = turn n k := by
  have hn : 0 < n := Nat.zero_lt_of_lt h
  by_cases hq : 4 * k % n = 0
  · obtain ⟨q, hq⟩ := Nat.dvd_of_mod_eq_zero hq
    have hlt : q < 4 := lt_of_mul_lt_mul_left (show n * q < n * 4 by omega) n.zero_le
    rw [twiddle_quarters .ideal hn hq, sampleEval_quarterTurn ρ hlt, turn_quarters hn hq]
  · rw [twiddle_ideal hq, turn_eq_cos_sin]
    exact Complex.ext rfl (exactEval_neg ρ _)

/-- Settles O27, operation by operation. -/
theorem idealPrimitivesAreExact : Obligations.IdealPrimitivesAreExact := fun ρ =>
  ⟨fun a _ ha hb => ⟨sampleEval_cadd ρ ha hb, sampleEval_cmul ρ ha hb, sampleEval_conj ρ a⟩,
    fun _ _ h => sampleEval_twiddle ρ h⟩

/-- Settles O29: half a turn is -1, and steps half as fine count twice. -/
theorem twiddleSymmetries : Obligations.TwiddleSymmetries := by
  intro ρ l k hk
  rw [pow_succ', sampleEval_twiddle ρ (by omega), sampleEval_twiddle ρ (by omega), sampleEval_twiddle ρ (by omega),
    sampleEval_twiddle ρ hk, turn_add, turn_half (by positivity), turn_mul_mul two_ne_zero]
  exact ⟨mul_neg_one _, rfl⟩

end Sys2Proof.Twiddles

/-! SUPPORT. The pipeline FFT and the spectrum (`40_units.md` R118 to R122, R126, R127): the combine equation in both
domains, and from it, in IDEAL, the discrete Fourier transform and its mirror for real sequences. -/

namespace Sys2Proof.Transform

open Sys2Proof.Machine Sys2Proof.NumberDomain Sys2Proof.Twiddles
open Sys2Proof.Safety (FifoInDomain everySecond)

/-! ### The combine equation -/

section Combine

variable {num : Numerics} {l : Nat} {x : List Sample}

theorem getD_evens (x : List Sample) (i : Nat) (z : Sample) : (evens x).getD i z = x.getD (2 * i) z := by
  rw [List.getD_eq_getElem?_getD, List.getD_eq_getElem?_getD, getElem?_evens]

theorem getD_odds (x : List Sample) (i : Nat) (z : Sample) : (odds x).getD i z = x.getD (2 * i + 1) z := by
  rw [List.getD_eq_getElem?_getD, List.getD_eq_getElem?_getD, getElem?_odds]

/-- Bin k of a transform, ZERO beyond its end. -/
def bin (num : Numerics) (l : Nat) (x : List Sample) (k : Nat) : Sample := (pfft num l x 0).1.getD k (sampleZero num)

theorem getD_pfft (num : Numerics) (l : Nat) (x : List Sample) (cyc : BitVec 64) (k : Nat) :
    (pfft num l x cyc).1.getD k (sampleZero num) = bin num l x k := by
  rw [bin, pfft_fst num l x cyc 0]

theorem getElem?_pfft (h : x.length = 2 ^ l) (cyc : BitVec 64) {k : Nat} (hk : k < 2 ^ l) :
    (pfft num l x cyc).1[k]? = some (bin num l x k) := by
  have hlt : k < (pfft num l x cyc).1.length := length_pfft num l x cyc h ▸ hk
  rw [← getD_pfft num l x cyc, List.getElem?_eq_getElem hlt, List.getD_eq_getElem _ _ hlt]

/-- F[k] = E[k mod m] + W[k] * O[k mod m] (`40_units.md` R119). -/
theorem bin_succ (num : Numerics) (l : Nat) (x : List Sample) {k : Nat} (hk : k < 2 ^ (l + 1)) :
    bin num (l + 1) x k =
      cadd (bin num l (evens x) (k % 2 ^ l)) (cmul (twiddle num (2 ^ (l + 1)) k) (bin num l (odds x) (k % 2 ^ l))) := by
  rw [pow_succ'] at hk ⊢
  rw [bin, pfft, combine, mapCounted_eq]
  simp only [getD_pfft]
  rw [List.getD_eq_getElem _ _ (by simpa using hk), List.getElem_map, List.getElem_range]

/-- A transform adds one cycle per element and level (`40_units.md` R120). -/
theorem pfft_snd (num : Numerics) (l : Nat) (x : List Sample) (cyc : BitVec 64) :
    (pfft num l x cyc).2 = cyc + BitVec.ofNat 64 (2 ^ l * l) := by
  induction l generalizing x cyc with
  | zero => simp [pfft]
  | succ l ih =>
    rw [pfft, combine, mapCounted_eq]
    simp only [ih, List.length_range, BitVec.add_assoc, ← BitVec.ofNat_add]
    congr 2
    ring

/-- Settles O31: the base case, the combine equation, the open parameter and the cost. -/
theorem pfftCycleCost : Obligations.PfftCycleCost := by
  refine ⟨fun _ _ _ => rfl, fun num l x cyc hx => ⟨length_pfft num (l + 1) x cyc hx, fun k hk => ?_⟩,
    fun _ _ _ h => twiddle_binary64 h, pfft_snd⟩
  have hx' : x.length = 2 * 2 ^ l := by rw [hx, pow_succ']
  have hmod : k % 2 ^ l < 2 ^ l := Nat.mod_lt _ (Nat.two_pow_pos l)
  have hevens : (evens x).length = 2 ^ l := by rw [length_evens]; omega
  have hodds : (odds x).length = 2 ^ l := by rw [length_odds]; omega
  rw [everySecond_zero num hx', everySecond_one num hx', getElem?_pfft hevens 0 hmod, getElem?_pfft hodds 0 hmod,
    getElem?_pfft hx cyc hk, bin_succ num l x hk]
  exact ⟨_, _, rfl, rfl, rfl⟩

end Combine

/-! ### The discrete Fourier transform -/

/-- Term k of the discrete Fourier transform of the first n elements of f. -/
noncomputable def dft (n : Nat) (f : Nat → ℂ) (k : Nat) : ℂ := ∑ j ∈ Finset.range n, f j * turn n (j * k)

section Dft

variable {m n : Nat}

theorem sum_range_two_mul (f : Nat → ℂ) (m : Nat) :
    ∑ j ∈ Finset.range (2 * m), f j = ∑ j ∈ Finset.range m, f (2 * j) + ∑ j ∈ Finset.range m, f (2 * j + 1) := by
  induction m with
  | zero => simp
  | succ m ih =>
    rw [Nat.mul_succ, Finset.sum_range_succ, Finset.sum_range_succ, Finset.sum_range_succ, Finset.sum_range_succ, ih]
    ring

theorem dft_mod (hn : 0 < n) (f : Nat → ℂ) (k : Nat) : dft n f (k % n) = dft n f k := by
  simp only [dft, turn_mul_mod hn]

/-- The transform of 2m elements from the transforms of those at even and at odd indices. -/
theorem dft_two_mul (f : Nat → ℂ) (m k : Nat) :
    dft (2 * m) f k = dft m (fun j => f (2 * j)) k + turn (2 * m) k * dft m (fun j => f (2 * j + 1)) k := by
  have hstep (j : Nat) : turn (2 * m) (2 * j * k) = turn m (j * k) := by
    rw [Nat.mul_assoc, turn_mul_mul two_ne_zero]
  rw [dft, sum_range_two_mul, dft, dft, Finset.mul_sum]
  simp only [Nat.add_mul, Nat.one_mul, turn_add, hstep]
  congr 1
  refine Finset.sum_congr rfl fun j _ => ?_
  ring

/-- The terms of a real sequence are mirrored: term n - k is the conjugate of term k. -/
theorem dft_mirror {f : Nat → ℂ} (hf : ∀ j, (starRingEnd ℂ) (f j) = f j) {k : Nat} (hk : k < n) :
    dft n f (n - k) = (starRingEnd ℂ) (dft n f k) := by
  rw [dft, dft, map_sum]
  refine Finset.sum_congr rfl fun j _ => ?_
  have hwhole : turn n (j * (n - k)) * turn n (j * k) = 1 := by
    rw [← turn_add, ← Nat.mul_add, Nat.sub_add_cancel hk.le, Nat.mul_comm, turn_mul_self (Nat.zero_lt_of_lt hk)]
  rw [map_mul, hf, ← Complex.inv_eq_conj (norm_turn n (j * k)), eq_inv_of_mul_eq_one_left hwhole]

end Dft

section Ideal

variable {l : Nat} {x : List Sample}

/-- The complex number element j stands for. -/
noncomputable def valueAt (ρ : Nat → ℝ) (x : List Sample) (j : Nat) : ℂ := sampleEval ρ (x.getD j (sampleZero .ideal))

theorem bin_inDomain_ideal (hx : FifoInDomain .ideal x) (l k : Nat) : (bin .ideal l x k).inDomain .ideal = true :=
  getD_inDomain (fifoInDomain_pfft l hx 0) k

/-- In IDEAL the transform is the discrete Fourier transform (`40_units.md` R122). -/
theorem sampleEval_bin (ρ : Nat → ℝ) (hx : FifoInDomain .ideal x) {k : Nat} (hk : k < 2 ^ l) :
    sampleEval ρ (bin .ideal l x k) = dft (2 ^ l) (valueAt ρ x) k := by
  induction l generalizing x k with
  | zero =>
    obtain rfl : k = 0 := by simpa using hk
    simp [dft, valueAt, bin, pfft]
  | succ l ih =>
    have hm : 0 < 2 ^ l := Nat.two_pow_pos l
    have hevens := fifoInDomain_of_subset hx (evens_subset x)
    have hodds := fifoInDomain_of_subset hx (odds_subset x)
    have hproduct := cmul_inDomain (twiddle_inDomain .ideal (2 ^ (l + 1)) k) (bin_inDomain_ideal hodds l (k % 2 ^ l))
    have hvalues : valueAt ρ (evens x) = (fun j => valueAt ρ x (2 * j)) ∧
        valueAt ρ (odds x) = fun j => valueAt ρ x (2 * j + 1) :=
      ⟨funext fun j => congrArg _ (getD_evens x j _), funext fun j => congrArg _ (getD_odds x j _)⟩
    rw [bin_succ .ideal l x hk, sampleEval_cadd ρ (bin_inDomain_ideal hevens l _) hproduct,
      sampleEval_cmul ρ (twiddle_inDomain .ideal _ _) (bin_inDomain_ideal hodds l _), sampleEval_twiddle ρ hk,
      ih hevens (Nat.mod_lt k hm), ih hodds (Nat.mod_lt k hm), dft_mod hm, dft_mod hm, hvalues.1, hvalues.2, pow_succ',
      dft_two_mul]

/-- Settles O30: the combine equation is the recursion of the discrete Fourier transform. -/
theorem pfftIsFourierTransform : Obligations.PfftIsFourierTransform := by
  intro ρ l x cyc hlength hx k hk
  refine ⟨_, getElem?_pfft hlength cyc hk, (sampleEval_bin ρ hx hk).trans (Finset.sum_congr rfl fun j _ => ?_)⟩
  rw [turn, Nat.cast_mul, ← mul_assoc]
  rfl

end Ideal

/-! ### The spectrum -/

section Spectrum

variable {num : Numerics} {l : Nat} {f : List Sample}

/-- Bin j of the cropped spectrum (`40_units.md` R126): the crop takes the middle of the shifted vector. -/
theorem getD_cropCentral_fftShift (h : 16 ≤ f.length) {j : Nat} (hj : j < 16) :
    ((cropCentral num (fftShift num f)).map mag).getD j (scalarZero num) =
      mag (f.getD ((f.length / 2 - 8 + j + f.length / 2) % f.length) (sampleZero num)) := by
  have hlength : (fftShift num f).length = f.length := by simp [fftShift]
  rw [cropCentral, List.map_map, List.getD_eq_getElem _ _ (by simpa using hj), List.getElem_map, List.getElem_range,
    Function.comp_apply, hlength, List.getD_eq_getElem _ _ (by rw [hlength]; omega)]
  simp only [fftShift, List.getElem_map, List.getElem_range]

/-- The lower half holds the magnitudes of the last 8 bins, the upper half those of bins 0..7. -/
theorem getElem_spectrum (hl : 4 ≤ l) (hf : f.length = 2 ^ l) (cyc : BitVec 64) {i : Nat} (h : i < 8) :
    (spectrum num f cyc).1.lower[i] = mag (f.getD (2 ^ l - 8 + i) (sampleZero num)) ∧
    (spectrum num f cyc).1.upper[i] = mag (f.getD i (sampleZero num)) := by
  obtain ⟨c, hc⟩ : 2 ^ 4 ∣ 2 ^ l := pow_dvd_pow 2 hl
  have hpos := Nat.two_pow_pos l
  have hlower : (f.length / 2 - 8 + i + f.length / 2) % f.length = 2 ^ l - 8 + i := by
    rw [hf, Nat.mod_eq_of_lt (by omega)]
    omega
  have hupper : (f.length / 2 - 8 + (8 + i) + f.length / 2) % f.length = i := by
    rw [hf, Nat.mod_eq_sub_mod (by omega), Nat.mod_eq_of_lt (by omega)]
    omega
  simp only [Machine.spectrum, Vector.getElem_ofFn]
  rw [getD_cropCentral_fftShift (by omega) (by omega), getD_cropCentral_fftShift (by omega) (by omega), hlower, hupper]
  exact ⟨rfl, rfl⟩

/-- Settles O33: of the 16 central bins of the shifted vector, 8 lie on each side of bin 0. -/
theorem spectrumBins : Obligations.SpectrumBins := by
  intro num l f cyc hl hf
  refine ⟨rfl, fun i h => ?_⟩
  have h16 : 2 ^ 4 ≤ 2 ^ l := Nat.pow_le_pow_right two_pos hl
  obtain ⟨hlower, hupper⟩ := getElem_spectrum (num := num) hl hf cyc h
  have getElem?_eq {k : Nat} (hk : k < 2 ^ l) : f[k]? = some (f.getD k (sampleZero num)) := by
    rw [List.getElem?_eq_getElem (hf ▸ hk), List.getD_eq_getElem _ _ (hf ▸ hk)]
  rw [hlower, hupper, getElem?_eq (by omega), getElem?_eq (by omega)]
  exact ⟨rfl, rfl⟩

/-- In IDEAL the magnitudes of the transform of a real sequence are mirrored (`40_units.md` R127). -/
theorem scalarEval_mag_bin_mirror (ρ : Nat → ℝ) {x : List Sample}
    (hx : ∀ z ∈ x, z.inDomain .ideal = true ∧ scalarEval ρ z.im = 0) {k : Nat} (hk1 : 1 ≤ k) (hk : k < 2 ^ l) :
    scalarEval ρ (mag (bin .ideal l x (2 ^ l - k))) = scalarEval ρ (mag (bin .ideal l x k)) := by
  have hdomain : FifoInDomain .ideal x := fun z hz => (hx z hz).1
  have hreal (j : Nat) : (starRingEnd ℂ) (valueAt ρ x j) = valueAt ρ x j := by
    refine Complex.conj_eq_iff_im.mpr ?_
    rw [valueAt, List.getD_eq_getElem?_getD]
    cases hj : x[j]? with
    | none => exact scalarEval_zero ρ
    | some z => exact (hx z (List.mem_of_getElem? hj)).2
  rw [Maxima.scalarEval_mag ρ (bin_inDomain_ideal hdomain l _), Maxima.scalarEval_mag ρ (bin_inDomain_ideal hdomain l _),
    sampleEval_bin ρ hdomain (by omega), sampleEval_bin ρ hdomain hk, dft_mirror hreal hk]
  exact Complex.norm_conj _

/-- Settles O34: the terms of a real sequence are conjugates in pairs, so the lower half mirrors bins 1..8. -/
theorem realSpectrumIsMirrored : Obligations.RealSpectrumIsMirrored := by
  intro ρ l x cyc hl hlength hx f
  have h16 : 2 ^ 4 ≤ 2 ^ l := Nat.pow_le_pow_right two_pos hl
  have hmirror {k : Nat} (hk1 : 1 ≤ k) (hk : k < 2 ^ l) := scalarEval_mag_bin_mirror ρ (l := l) hx hk1 hk
  simp only [f, getD_pfft]
  refine ⟨fun k => hmirror, fun i h => ?_⟩
  rw [(getElem_spectrum hl (length_pfft .ideal l x cyc hlength) cyc h).1, getD_pfft,
    ← hmirror (k := 8 - i) (by omega) (by omega)]
  congr 3
  omega

end Spectrum

end Sys2Proof.Transform

/-! SUPPORT. The correlation multiplier (`40_units.md` R112, R113, R123, R124): element by element the product, and of a
block with its own conjugates the squared magnitudes. In BINARY64 a product changes its sign with a factor, so that the
difference in the real part is a sum of squares and the cross products in the imaginary part cancel. -/

namespace Sys2Proof.Correlation

open Sys2Proof.Machine Sys2Proof.NumberDomain Sys2Proof.Binary64Rounding Sys2Proof.Twiddles

/-! ### Negation in BINARY64 -/

section Negation

variable {a b v : Binary64}

@[simp] theorem b64Neg_neg (v : Binary64) : b64Neg (b64Neg v) = v := by
  simp [b64Neg]

theorem b64IsNaN_neg (v : Binary64) : b64IsNaN (b64Neg v) = b64IsNaN v := by
  obtain ⟨sign, bits, hlt, rfl⟩ := exists_eq_pack v
  rw [b64Neg_pack sign hlt, Bool.eq_iff_iff, b64IsNaN_pack _ hlt, b64IsNaN_pack _ hlt]

theorem b64Mag_neg (v : Binary64) : b64Mag (b64Neg v) = b64Mag v := by
  obtain ⟨sign, bits, hlt, rfl⟩ := exists_eq_pack v
  rw [b64Neg_pack sign hlt, b64Mag_pack _ hlt, b64Mag_pack _ hlt]

/-- Rounding chooses the lower 63 bits without looking at the sign. -/
theorem b64Round_bits (m : Nat) : ∃ bits, ∀ sign,
    b64Round sign m = if bits < 2047 * 2 ^ 52 then b64Pack sign bits else b64Inf sign :=
  ⟨_, fun _ => rfl⟩

theorem b64Neg_round (sign : Bool) (m : Nat) : b64Neg (b64Round sign m) = b64Round (!sign) m := by
  obtain ⟨bits, hround⟩ := b64Round_bits m
  rw [hround, hround]
  split
  · exact b64Neg_pack sign (by omega)
  · exact b64Neg_inf sign

theorem b64Round_zero : b64Round false 0 = 0#64 := by
  obtain ⟨e, q, r, ⟨hvalue, -, -, hnormal⟩, hround⟩ := b64Round_cut false 0
  obtain ⟨hunits, rfl⟩ := Nat.add_eq_zero_iff.mp hvalue.symm
  obtain rfl : q = 0 := (Nat.mul_eq_zero.mp hunits).resolve_right (Nat.two_pow_pos _).ne'
  obtain rfl : e = 0 := by omega
  have hsig : roundedSig 0 0 0 = 0 := by
    have hcases := roundedSig_cases 0 0 0
    have hhalf := Nat.two_pow_pos (0 + 1073)
    omega
  rw [hround, hsig]
  decide

theorem b64IsNaN_round (sign : Bool) (m : Nat) : b64IsNaN (b64Round sign m) = false := by
  obtain ⟨bits, hround⟩ := b64Round_bits m
  rw [hround]
  split
  · exact not_nan_of_finite ((b64IsFinite_pack sign (by omega)).mpr ‹_›)
  · exact b64IsNaN_inf sign

end Negation

/-! ### Finite products -/

section Products

variable {a b : Binary64}

theorem b64Mul_neg (ha : b64IsFinite a = true) (hb : b64IsFinite b = true) :
    b64Mul a (b64Neg b) = b64Neg (b64Mul a b) := by
  rw [b64Mul_finite ha (b64IsFinite_neg b ▸ hb), b64Mul_finite ha hb, b64Neg_round, b64Sign_neg, b64Mag_neg, Bool.bne_not]

theorem b64Mul_comm (ha : b64IsFinite a = true) (hb : b64IsFinite b = true) : b64Mul a b = b64Mul b a := by
  rw [b64Mul_finite ha hb, b64Mul_finite hb ha, Nat.mul_comm, bne_comm]

theorem b64Sign_mul_self (ha : b64IsFinite a = true) : b64Sign (b64Mul a a) = false := by
  rw [b64Mul_finite ha ha, b64Sign_round, bne_self_eq_false]

theorem b64IsNaN_mul (ha : b64IsFinite a = true) (hb : b64IsFinite b = true) : b64IsNaN (b64Mul a b) = false := by
  rw [b64Mul_finite ha hb, b64IsNaN_round]

theorem not_nan_factors (h : b64IsNaN (b64Mul a b) = false) : b64IsNaN a = false ∧ b64IsNaN b = false := by
  rw [← Bool.not_eq_true, ← Bool.not_eq_true, ← not_or]
  intro hor
  obtain ⟨-, -, hmul⟩ := nan_of_nan_operand hor
  cases hmul.symm.trans h

/-- A factor that is a NaN or an infinity makes the product one. -/
theorem finite_factors (h : b64IsFinite (b64Mul a b) = true) : b64IsFinite a = true ∧ b64IsFinite b = true := by
  obtain ⟨hna, hnb⟩ := not_nan_factors (not_nan_of_finite h)
  rw [b64Mul_of_not_nan hna hnb] at h
  split at h
  · cases (b64IsNaN_nan .mul a b).symm.trans (not_nan_of_finite h)
  · split at h
    · cases (b64IsInf_inf _).symm.trans (not_inf_of_finite h)
    · rename_i hinf
      simp_all [b64IsFinite, b64IsNaN, b64IsInf]

end Products

/-! ### Sums of squares and cross products -/

section Sums

variable {a b x y : Binary64}

/-- Addends of one sign never cancel, so the open NaN does not matter. -/
theorem b64AddCore_of_sign_eq (h : b64Sign a = b64Sign b) (nan nan' : Binary64) :
    b64AddCore a b nan = b64AddCore a b nan' := by
  unfold b64AddCore
  rw [h, bne_self_eq_false, Bool.and_false, if_neg Bool.false_ne_true, if_neg Bool.false_ne_true]

theorem b64Sub_neg (hx : b64IsNaN x = false) (hy : b64IsNaN y = false) (hsign : b64Sign x = b64Sign y) :
    b64Sub x (b64Neg y) = b64Add x y := by
  rw [b64Sub_of_not_nan hx ((b64IsNaN_neg y).trans hy), b64Neg_neg, b64Add_of_not_nan hx hy]
  exact b64AddCore_of_sign_eq hsign _ _

/-- The real part of a number times its conjugate. -/
theorem b64Sub_mul_neg (ha : b64IsFinite a = true) (hb : b64IsFinite b = true) :
    b64Sub (b64Mul a a) (b64Mul b (b64Neg b)) = b64Add (b64Mul a a) (b64Mul b b) := by
  rw [b64Mul_neg hb hb]
  exact b64Sub_neg (b64IsNaN_mul ha ha) (b64IsNaN_mul hb hb) ((b64Sign_mul_self ha).trans (b64Sign_mul_self hb).symm)

/-- A number and its negation add up to +0. -/
theorem b64Add_neg_self (hx : b64IsFinite x = true) : b64Add (b64Neg x) x = 0#64 := by
  have hneg : b64IsFinite (b64Neg x) = true := b64IsFinite_neg x ▸ hx
  rw [b64Add_of_not_nan (not_nan_of_finite hneg) (not_nan_of_finite hx), b64AddCore_finite hneg hx, b64Int_neg,
    neg_add_cancel, b64Sign_neg, Bool.not_and_self, Int.natAbs_zero, Nat.zero_mul]
  exact b64Round_zero

/-- The imaginary part of a number times its conjugate. -/
theorem b64Add_mul_neg (h : b64IsFinite (b64Mul a b) = true) : b64Add (b64Mul a (b64Neg b)) (b64Mul b a) = 0#64 := by
  obtain ⟨ha, hb⟩ := finite_factors h
  rw [b64Mul_neg ha hb, b64Mul_comm hb ha]
  exact b64Add_neg_self h

end Sums

/-! ### CORR -/

section Corr

variable {x y : List Sample} {i : Nat}

theorem getElem?_corr {a b : Sample} (ha : x[i]? = some a) (hb : y[i]? = some b) (cyc : BitVec 64) :
    (corr x y cyc).1[i]? = some (cmul a b) := by
  rw [corr_eq, List.getElem?_map, List.getElem?_zip_eq_some (z := (a, b)).mpr ⟨ha, hb⟩]
  rfl

/-- A block correlated with its own conjugates. -/
theorem getElem?_corr_conj {z : Sample} (h : x[i]? = some z) (cyc : BitVec 64) :
    (corr x (x.map conj) cyc).1[i]? = some (cmul z (conj z)) :=
  getElem?_corr h (by rw [List.getElem?_map, h]; rfl) cyc

/-- In IDEAL a number times its conjugate is its squared modulus. -/
theorem sampleEval_cmul_conj (ρ : Nat → ℝ) {z : Sample} (hz : z.inDomain .ideal = true) :
    sampleEval ρ (cmul z (conj z)) = (scalarEval ρ z.re ^ 2 + scalarEval ρ z.im ^ 2 : ℝ) := by
  rw [sampleEval_cmul ρ hz (conj_inDomain hz), sampleEval_conj, Complex.mul_conj, Complex.normSq_apply, sq, sq]
  rfl

/-- Settles O32, domain by domain. -/
theorem correlationWithOwnConjugate : Obligations.CorrelationWithOwnConjugate := by
  refine ⟨fun x y cyc h => ⟨?_, ?_, fun i a b ha hb => getElem?_corr ha hb cyc⟩, fun _ _ _ _ => ⟨rfl, rfl⟩,
    fun ρ x cyc i z hx hz => ⟨_, getElem?_corr_conj hz cyc, ?_⟩,
    fun x cyc i a b hz => ⟨_, getElem?_corr_conj hz cyc, fun ha hb => ?_, fun h => ?_⟩⟩
  · rw [corr_eq, h, Nat.min_self]
  · rw [corr_eq, List.length_map, List.length_zip, h, Nat.min_self]
  · have hvalue := sampleEval_cmul_conj ρ (hx z (List.mem_of_getElem? hz))
    exact ⟨congrArg Complex.re hvalue, congrArg Complex.im hvalue⟩
  · exact congrArg Scalar.binary64 (b64Sub_mul_neg ha hb)
  · exact congrArg Scalar.binary64 (b64Add_mul_neg h)

end Corr

end Sys2Proof.Correlation

/-! SUPPORT. The stage commands that complete (`41_cell_ops.md` R141 to R163, `42_array_commands.md` R171 to R174): what
each leaves in every cell, from the laws of its loop over the cells. -/

namespace Sys2Proof.CellStages

open Sys2Proof.Machine
open Sys2Proof.Safety (Shape FifoBounds okResponse readBlock)

/-- A stage command whose body completes. -/
theorem stageCommand_completes {w : Word} {body : State → StageResult} {s t : State} {p : Phase} (hphase : s.phase = p)
    (hp : p ≠ .fault) (hbody : body s = .ok t) :
    (Host.Outcome.next (stageCommand w body s) : Host.Outcome State Fault Refusal) = .next t.respondOk :=
  congrArg Host.Outcome.next (stageCommand_of_ok (hphase ▸ hp) hbody)

/-- The cells of a state, when each is a function of the cell in the same place. -/
theorem cells_eq_map {s t : State} {g : Cell → Cell} (hs : Shape s) (ht : Shape t) (hcfg : t.cfg = s.cfg)
    (hcell : ∀ c < s.cfg.arraySize, t.cell c = g (s.cell c)) : t.cells = s.cells.map g := by
  obtain ⟨hslen, -⟩ := hs
  obtain ⟨htlen, -⟩ := ht
  rw [hcfg] at htlen
  refine List.ext_getElem (by rw [List.length_map, hslen, htlen]) fun c hct hcs => ?_
  have hc : c < s.cfg.arraySize := htlen ▸ hct
  rw [List.getElem_map, ← State.cell_eq_getElem hct, ← State.cell_eq_getElem (hslen ▸ hc), hcell c hc]

/-- A completed loop over the cells and the response after it: what the loop leaves alone is as before. -/
theorem storesOf_completes {s t : State} (h : StoresOf s t) (p : Phase) : ({ t with phase := p } : State).respondOk =
    { s with cells := t.cells, extq := t.extq, cyc := t.cyc, phase := p, rsp := okResponse s } :=
  congrArg (fun u : State => ({ u with phase := p } : State).respondOk) h

/-! ### CONNECT -/

section Connect

variable {s : State}

/-- The state after a CONNECT that passes its checks (`42_array_commands.md` R171). -/
def connected (s : State) : State :=
  { s with
    active := s.nextActive, roundKind := s.isLoadRound, phase := .read
    cells := s.cells.mapIdx (connectedCell s.cfg s.isLoadRound) }

theorem connectBody_eq_connected (hs : Shape s) (hphase : s.phase = .connect)
    (hchecks : (if s.isLoadRound then loadFault s else none) = none) : connectBody s = .ok (connected s) := by
  obtain ⟨hp, -⟩ | ⟨-, f, hf, -⟩ | ⟨-, -, hb⟩ := connectBody_cases s
  · exact absurd hphase hp
  · cases hchecks.symm.trans hf
  · rw [hb, forCells_connect _ { s with active := s.nextActive } hs.1]
    rfl

theorem isLoadRound_iff : s.isLoadRound = true ↔ s.iter.toNat % s.cfg.arraySize = 0 := by
  simp [State.isLoadRound]

theorem isLoadRound_eq_false (h : s.iter.toNat % s.cfg.arraySize ≠ 0) : s.isLoadRound = false := by
  simpa [State.isLoadRound] using h

/-- connect of a load round: the next signal row is selected, and a block is cleared unless it is the cell's first
(`41_cell_ops.md` R142, R145). -/
theorem connectedCell_load (cfg : Config) (c : Nat) (k : Cell) : connectedCell cfg true c k =
    { k with src := .ext k.sigIdx.toNat, sigIdx := k.sigIdx + 1
             shift := if k.sigIdx = 0 then k.shift else k.shift.drop cfg.cellSize
             conj := if k.sigIdx = 0 then k.conj else k.conj.drop cfg.cellSize } := by
  unfold connectedCell connectLoad
  by_cases h : k.sigIdx = 0
  · simp only [h, if_true]
  · simp only [h, if_true, if_false, clearShift, fifoDiscard]

/-- connect of a shift round: cell 0 keeps its source, the others select their predecessor (`41_cell_ops.md` R143). -/
theorem connectedCell_shift (cfg : Config) (c : Nat) (k : Cell) :
    connectedCell cfg false c k = if c = 0 then k else { k with src := .pred } := rfl

/-- The checks of a load round, as conditions on the cells (`42_array_commands.md` R171). -/
theorem loadFault_eq_none_of_cells (hs : Shape s) (hrows : ∀ k ∈ s.cells, k.sigIdx.toNat < s.cfg.numSignals)
    (hblocks : ∀ k ∈ s.cells, k.sigIdx ≠ 0 → s.cfg.cellSize ≤ k.shift.length ∧ s.cfg.cellSize ≤ k.conj.length) :
    loadFault s = none := by
  refine loadFault_eq_none.mpr fun c hc => ?_
  have hmem : s.cell c ∈ s.cells := State.cell_mem (hs.1 ▸ hc)
  refine ⟨decide_eq_false (Nat.not_le.mpr (hrows _ hmem)), ?_⟩
  by_cases h0 : (s.cell c).sigIdx = 0
  · simp [clearUnderflow, h0]
  · obtain ⟨hshift, hconj⟩ := hblocks _ hmem h0
    simp [clearUnderflow, Nat.not_lt.mpr hshift, Nat.not_lt.mpr hconj]

/-- Settles O39: the checks pass, and connect does the same to every cell. -/
theorem connectLoadRound : Obligations.ConnectLoadRound := by
  intro s hs hphase hround hrows hblocks
  have hload : s.isLoadRound = true := isLoadRound_iff.mpr hround
  have hbody := connectBody_eq_connected hs hphase (by rw [hload]; exact loadFault_eq_none_of_cells hs hrows hblocks)
  refine (stageCommand_completes hphase nofun hbody).trans ?_
  have hcells : s.cells.mapIdx (connectedCell s.cfg true) = s.cells.map (connectedCell s.cfg true 0) :=
    List.ext_getElem (by simp) fun c _ _ => by rw [List.getElem_mapIdx, List.getElem_map]; rfl
  simp only [connected, hload, hcells, funext (connectedCell_load s.cfg 0)]
  rfl

/-- Settles O40: a shift round has no checks of its own. -/
theorem connectShiftRound : Obligations.ConnectShiftRound := by
  intro s hs hphase hround
  have hload : s.isLoadRound = false := isLoadRound_eq_false hround
  have hiter : s.iter ≠ 0 := fun h => hround (by simp [h])
  have hbody := connectBody_eq_connected hs hphase (by rw [hload]; rfl)
  refine (stageCommand_completes hphase nofun hbody).trans ?_
  simp only [connected, hload, State.nextActive, if_neg hiter]
  rfl

end Connect

/-! ### READ -/

section Read

variable {s : State}

/-- Cell c has a source, and a predecessor source has a block to give (`42_array_commands.md` R172). -/
abbrev SourcedAt (s : State) (c : Nat) : Prop :=
  (∃ r < s.cfg.numSignals, (s.cell c).src = .ext r) ∨
    (c ≠ 0 ∧ (s.cell c).src = .pred ∧ s.cfg.cellSize ≤ (s.cell (c - 1)).shift.length)

/-- READ's checks pass at every cell. -/
abbrev Sourced (s : State) : Prop := ∀ c < s.cfg.arraySize, SourcedAt s c

theorem readFault_eq_none_of_sourced (h : Sourced s) : readFault s = none := by
  refine readFault_eq_none.mpr fun c hc => ?_
  obtain ⟨r, -, hsrc⟩ | ⟨-, hsrc, hblock⟩ := h c hc
  · simp [noSource, readUnderflow, hsrc]
  · simp [noSource, readUnderflow, hsrc, Nat.not_lt.mpr hblock]

theorem readBody_of_sourced (hphase : s.phase = .read) (h : Sourced s) :
    readBody s = .ok { forCells readCell s with phase := .compute } := by
  obtain ⟨hp, -⟩ | ⟨-, f, hf, -⟩ | ⟨-, -, hb⟩ := readBody_cases s
  · exact absurd hphase hp
  · cases (readFault_eq_none_of_sourced h).symm.trans hf
  · exact hb

/-- Settles O42: READ's checks pass, and its loop leaves what `ReadDone` says of all cells. -/
theorem readBlocks : Obligations.ReadBlocks := by
  intro s hs hbounds hphase hsrc
  have hdone := forCells_read hs hbounds.1 hsrc
  refine ⟨_, stageCommand_completes hphase nofun (readBody_of_sourced hphase hsrc), hdone.shape, ?_, hdone.cyc,
    fun c hc => (hdone.cell c hc).trans ?_, fun r hr c hc => (hdone.queue r hr c hc).trans ?_⟩
  · exact storesOf_completes hdone.rest .compute
  · simp only [hc, if_true, true_and, ne_eq, ite_not]
  · simp only [hc, true_and]

end Read

/-! ### COMPUTE -/

section Compute

variable {s : State}

theorem computeBody_of_full (hs : Shape s) (hphase : s.phase = .compute)
    (h : ∀ k ∈ s.cells, s.cfg.cellSize ≤ k.raw.length ∧ s.cfg.cellSize ≤ k.conj.length) :
    computeBody s = .ok { forCells computeCell s with phase := .shift } := by
  obtain ⟨hp, -⟩ | ⟨-, c, hc, -⟩ | ⟨-, -, hb⟩ := computeBody_cases s
  · exact absurd hphase hp
  · obtain ⟨hlt, hbad, -⟩ := firstCell_eq_some.mp hc
    obtain ⟨hraw, hconj⟩ := h _ (State.cell_mem (hs.1 ▸ hlt))
    simp [computeUnderflow, Nat.not_lt.mpr hraw, Nat.not_lt.mpr hconj] at hbad
  · exact hb

/-! #### Cycles -/

/-- What the merge step of cell c adds to CYC: nothing in the first round, 8 comparisons for the last cell and 16 for an
inner one (`41_cell_ops.md` R159). -/
def mergeCost (s : State) (c : Nat) : Nat := if s.iter = 0 then 0 else if isLast s c then 8 else 16

/-- What compute adds to CYC at cell c: correlation, transform, spectrum and merge (`41_cell_ops.md` R159). -/
def computeCost (s : State) (c : Nat) : Nat :=
  s.cfg.cellSize + s.cfg.cellSize * s.cfg.log2CellSize + 16 + mergeCost s c

theorem mergeStep_snd (first last : Bool) (sp : Spectrum) (pred : Alpha) (k : Cell) (cyc : BitVec 64) :
    (mergeStep first last sp pred k cyc).2 = cyc + BitVec.ofNat 64 (if first then 0 else if last then 8 else 16) := by
  unfold mergeStep
  split
  · exact (BitVec.add_zero cyc).symm
  · split <;> rfl

theorem cellSpectrum_snd (cfg : Config) {k : Cell} (cyc : BitVec 64) (hraw : k.raw.length = cfg.cellSize)
    (hconj : k.conj.length = cfg.cellSize) : (cellSpectrum cfg k cyc).2 =
      cyc + BitVec.ofNat 64 (cfg.cellSize + cfg.cellSize * cfg.log2CellSize + 16) := by
  simp only [cellSpectrum, Machine.spectrum, Transform.pfft_snd, corr_eq, hraw, hconj, Nat.min_self]
  rw [BitVec.ofNat_add (cfg.cellSize + _), BitVec.ofNat_add, ← BitVec.add_assoc, ← BitVec.add_assoc]
  rfl

theorem computeCell_cyc {c : Nat} (hraw : (s.cell c).raw.length = s.cfg.cellSize)
    (hconj : (s.cell c).conj.length = s.cfg.cellSize) :
    (computeCell c s).cyc = s.cyc + BitVec.ofNat 64 (computeCost s c) := by
  simp only [computeCell, mergeStep_snd, cellSpectrum_snd _ _ hraw hconj, computeCost, mergeCost, beq_iff_eq]
  rw [BitVec.ofNat_add (_ + 16), ← BitVec.add_assoc]

/-- The register files compute reads. -/
def registersOf (k : Cell) : List Sample × List Sample := (k.raw, k.conj)

/-- A state in which the cost of every compute is still that in s. -/
structure SameInputs (s t : State) : Prop where
  rest : StoresOf s t
  registers : t.cells.map registersOf = s.cells.map registersOf

theorem sameInputs_computeCell {s t : State} (h : SameInputs s t) (c : Nat) : SameInputs s (computeCell c t) where
  rest := h.rest.trans rfl
  registers := by
    rw [computeCell_eq, computedCell_eq]
    refine (StoreWriters.setCell_keeps (s := t) ?_).trans h.registers
    rfl

theorem SameInputs.cell {t : State} (h : SameInputs s t) (c : Nat) :
    (t.cell c).raw = (s.cell c).raw ∧ (t.cell c).conj = (s.cell c).conj := by
  have hc := congrArg (List.getD · c (registersOf (Cell.reset s.cfg.numerics))) h.registers
  simp only [List.getD_map] at hc
  rw [State.cell, h.rest.cfg]
  exact Prod.mk.inj hc

theorem SameInputs.computeCost {t : State} (h : SameInputs s t) (c : Nat) : computeCost t c = computeCost s c := by
  rw [h.rest]
  rfl

/-- CYC after the loop of COMPUTE, when every RAW and CONJ is full. -/
theorem forCells_compute_cyc
    (hfull : ∀ c < s.cfg.arraySize, (s.cell c).raw.length = s.cfg.cellSize ∧ (s.cell c).conj.length = s.cfg.cellSize) :
    (forCells computeCell s).cyc = s.cyc + BitVec.ofNat 64 (∑ c ∈ Finset.range s.cfg.arraySize, computeCost s c) := by
  have hloop : SameInputs s (forCells computeCell s) ∧ (forCells computeCell s).cyc =
      s.cyc + BitVec.ofNat 64 (∑ c ∈ Finset.range s.cfg.arraySize, computeCost s c) := by
    apply forCells_upto (P := fun m t => SameInputs s t ∧
      t.cyc = s.cyc + BitVec.ofNat 64 (∑ c ∈ Finset.range m, CellStages.computeCost s c))
    · exact ⟨⟨.refl s, rfl⟩, by simp⟩
    · rintro m t hm ⟨hsame, hcyc⟩
      obtain ⟨hraw, hconj⟩ := hfull m hm
      obtain ⟨htraw, htconj⟩ := hsame.cell m
      refine ⟨sameInputs_computeCell hsame m, ?_⟩
      rw [computeCell_cyc (by rw [htraw, hraw, hsame.rest.cfg]) (by rw [htconj, hconj, hsame.rest.cfg]), hcyc,
        hsame.computeCost, Finset.sum_range_succ, BitVec.ofNat_add, ← BitVec.add_assoc]
  exact hloop.2

/-- The merges of the first m cells: 16 cycles each, 8 less when the last cell is one of them (`41_cell_ops.md` R155,
R159). -/
theorem sum_mergeCost (s : State) (m : Nat) : ∑ c ∈ Finset.range m, mergeCost s c =
    if s.iter = 0 then 0
    else if 1 ≤ s.active.toInt ∧ s.active.toInt ≤ m then 16 * m - 8 else 16 * m := by
  induction m with
  | zero => simp
  | succ m ih =>
    rw [Finset.sum_range_succ, ih, mergeCost]
    by_cases h0 : s.iter = 0
    · simp only [h0, if_true]
    · simp only [h0, if_false, isLast, decide_eq_true_eq, Nat.cast_add, Nat.cast_one]
      split_ifs <;> omega

theorem sum_computeCost (s : State) (m : Nat) : ∑ c ∈ Finset.range m, computeCost s c =
    m * (s.cfg.cellSize + s.cfg.cellSize * s.cfg.log2CellSize + 16) + ∑ c ∈ Finset.range m, mergeCost s c := by
  simp only [computeCost, Finset.sum_add_distrib, Finset.sum_const, Finset.card_range, smul_eq_mul, Nat.mul_add]

/-! #### The merges -/

/-- A cell in the first round (`41_cell_ops.md` R153). -/
theorem computedCell_first {c : Nat} (h : s.iter = 0) (pred : Alpha) : computedCell s c pred =
    { s.cell c with alphaTop := (cellSpectrum s.cfg (s.cell c) 0).1.upper } := by
  simp only [computedCell, mergeStep, h, BEq.rfl, if_true]

/-- An inner cell of a later round (`41_cell_ops.md` R154). -/
theorem computedCell_inner {c : Nat} (h : s.iter ≠ 0) (hc : (c : Int) ≠ s.active.toInt - 1) (pred : Alpha) :
    computedCell s c pred = { s.cell c with
      alpha := (mergeInner (s.cell c).alphaTop (cellSpectrum s.cfg (s.cell c) 0).1.lower pred 0).1
      alphaTop := (cellSpectrum s.cfg (s.cell c) 0).1.upper } := by
  simp only [computedCell, mergeStep, isLast, beq_eq_false_iff_ne.mpr h, decide_eq_false hc, Bool.false_eq_true,
    if_false]

/-- The last cell of a later round (`41_cell_ops.md` R156). -/
theorem computedCell_last {c : Nat} (h : s.iter ≠ 0) (hc : (c : Int) = s.active.toInt - 1) (pred : Alpha) :
    computedCell s c pred = { s.cell c with
      alpha := (mergeLast (s.cell c).alphaTop pred 0).1, alphaTop := (mergeLast (s.cell c).alphaTop pred 0).1 } := by
  simp only [computedCell, mergeStep, isLast, beq_eq_false_iff_ne.mpr h, decide_eq_true hc, Bool.false_eq_true,
    if_false, if_true]

/-- Settles O43: the loop computes every cell with the ALPHA its predecessor has just written; the cases are those of
the merge step. -/
theorem computeMerges : Obligations.ComputeMerges := by
  intro s hs hbounds hphase hfull
  have hdone := forCells_compute hs
  have hcyc : (forCells computeCell s).cyc = _ := forCells_compute_cyc fun c hc => by
    have hmem : s.cell c ∈ s.cells := State.cell_mem (hs.1 ▸ hc)
    obtain ⟨hraw, hconj⟩ := hfull _ hmem
    obtain ⟨hrawle, hconjle, -⟩ := hbounds.1 _ hmem
    exact ⟨Nat.le_antisymm hrawle hraw, Nat.le_antisymm hconjle hconj⟩
  rw [sum_computeCost, sum_mergeCost] at hcyc
  refine ⟨_, stageCommand_completes hphase nofun (computeBody_of_full hs hphase hfull), hdone.shape, ?_, hcyc,
    fun c hc => ?_⟩
  · rw [storesOf_completes hdone.rest, hdone.extq]
  · have hcell : (forCells computeCell s).cell c = _ := (hdone.cell c hc).trans (if_pos hc)
    have hpred : predAlpha (forCells computeCell s) c =
        if c = 0 then alphaZero s.cfg.numerics else ((forCells computeCell s).cell (c - 1)).alpha := by
      rw [predAlpha, hdone.rest.cfg]
    intro f sp pred
    have hsp : (cellSpectrum s.cfg (s.cell c) 0).1 = sp := cellSpectrum_eq s.cfg (s.cell c) 0
    rw [hpred] at hcell
    refine ⟨fun h0 => ?_, fun h0 hne => ?_, fun h0 heq => ?_⟩
    · exact (hcell.trans (computedCell_first h0 _)).trans (by rw [hsp])
    · exact (hcell.trans (computedCell_inner h0 hne _)).trans (by rw [hsp]; rfl)
    · exact hcell.trans (computedCell_last h0 heq _)

end Compute

/-! ### SHIFT -/

section Shift

variable {s : State}

theorem shiftBody_of_full (hs : Shape s) (hphase : s.phase = .shift)
    (h : ∀ k ∈ s.cells, s.cfg.cellSize ≤ k.raw.length) :
    shiftBody s = .ok { forCells shiftCell s with iter := s.iter + 1, phase := .connect } := by
  obtain ⟨hp, -⟩ | ⟨-, c, hc, -⟩ | ⟨-, -, hb⟩ := shiftBody_cases s
  · exact absurd hphase hp
  · obtain ⟨hlt, hbad, -⟩ := firstCell_eq_some.mp hc
    simp [shiftUnderflow, Nat.not_lt.mpr (h _ (State.cell_mem (hs.1 ▸ hlt)))] at hbad
  · exact hb

/-- Settles O44: the loop moves every block, and the counter follows. -/
theorem shiftMovesBlocks : Obligations.ShiftMovesBlocks := by
  intro s hs hbounds hphase hfull
  have hdone := forCells_shift hs hbounds.1 hfull
  have hcells := cells_eq_map (g := fun k => { k with raw := [], shift := k.raw }) hs hdone.shape hdone.rest.cfg
    fun c hc => (hdone.cell c hc).trans (if_pos hc)
  refine (stageCommand_completes hphase nofun (shiftBody_of_full hs hphase hfull)).trans (congrArg _ ?_)
  rw [← hcells, ← hdone.cyc]
  refine (congrArg (fun u : State => { u with iter := s.iter + 1 })
    (storesOf_completes hdone.rest .connect)).trans ?_
  rw [hdone.extq]

end Shift

end Sys2Proof.CellStages

/-! SUPPORT. The accepted sequences (`42_array_commands.md` R180, R181, R183; log entry 19): the counts, the sources,
SIG_IDX and ACTIVE of a round follow from those of the point before it, so every step keeps them. -/

namespace Sys2Proof.AcceptedSequence

open Sys2Proof.Machine Sys2Proof.CellStages
open Sys2Proof.NumberDomain (roundStages_eq_bind runRounds_succ_eq_bind runBody_eq_bind)
open Sys2Proof.HostReads (exec_read_outcome)
open Sys2Proof.ResetState (acceptedInv_resetWith)
open Sys2Proof.Safety (Shape readBlock roundSource roundActive roundShiftCount BetweenRounds InRound ReadCounts
  ComputeCounts AcceptedPoint AcceptedInv)

/-! ### What every command keeps -/

/-- A property of the state a stage body leaves, whether it completes or faults. -/
def ResultHas (P : State → Prop) : StageResult → Prop
  | .ok t => P t
  | .error (t, _) => P t

/-- A property that everything a step is made of keeps, where a stage body completes only after its checks:
`StepEffects.Kept` forgets them, and without its check a CONNECT would select a row past the last. -/
structure KeptByBodies (P : State → Prop) : Prop where
  connect : ∀ s, P s → ResultHas P (connectBody s)
  read : ∀ s, P s → ResultHas P (readBody s)
  compute : ∀ s, P s → ResultHas P (computeBody s)
  shift : ∀ s, P s → ResultHas P (shiftBody s)
  finalize : ∀ s, P s → ResultHas P (finalizeBody s)
  input : ∀ s rest d, P s → P { s with port := rest, operand := d }
  reset : ∀ s, P s → P s.hostReset
  respond : ∀ s r, P s → P { s with rsp := r }
  queue : ∀ s r c q, P s → P (s.setQueue r c q)
  raise : ∀ s w f, P s → P (s.raise w f)

section Kept

variable {P : State → Prop} {s t : State}

/-- One body after another: the first fault ends the sequence. -/
theorem ResultHas.bind {r : StageResult} {body : State → StageResult} (hr : ResultHas P r)
    (hbody : ∀ t, P t → ResultHas P (body t)) : ResultHas P (r.bind body) := by
  cases r with
  | error e => exact hr
  | ok t => exact hbody t hr

theorem KeptByBodies.roundStages (hP : KeptByBodies P) (s : State) (hs : P s) : ResultHas P (roundStages s) := by
  rw [roundStages_eq_bind]
  exact (hP.connect s hs).bind fun s1 h1 => (hP.read s1 h1).bind fun s2 h2 => (hP.compute s2 h2).bind hP.shift

theorem KeptByBodies.runRounds (hP : KeptByBodies P) (n : Nat) (hs : P s) : ResultHas P (runRounds n s) := by
  induction n generalizing s with
  | zero => exact hs
  | succ n ih =>
    rw [runRounds_succ_eq_bind]
    exact (hP.roundStages s hs).bind fun _ => ih

theorem KeptByBodies.roundBody (hP : KeptByBodies P) (hs : P s) : ResultHas P (roundBody s) := by
  unfold Machine.roundBody
  split
  · exact hs
  · exact hP.roundStages s hs

theorem KeptByBodies.runBody (hP : KeptByBodies P) (n : BitVec 16) (hs : P s) : ResultHas P (runBody n s) := by
  rw [runBody_eq_bind]
  split
  · exact hs
  · exact (hP.runRounds n.toNat hs).bind hP.finalize

theorem KeptByBodies.stageCommand (hP : KeptByBodies P) (w : Word) {body : State → StageResult} (hs : P s)
    (hbody : ResultHas P (body s)) : P (stageCommand w body s) := by
  obtain ⟨-, h⟩ | ⟨-, t, hb, h⟩ | ⟨-, t, f, hb, h⟩ := stageCommand_cases w body s <;> rw [h]
  · exact hP.respond s _ hs
  · rw [hb] at hbody
    exact hP.respond t _ hbody
  · rw [hb] at hbody
    exact hP.raise t w f hbody

theorem KeptByBodies.qpush (hP : KeptByBodies P) (r c : BitVec 8) (hs : P s) :
    ∃ t, execQpush r c s = .next t ∧ P t := by
  refine ⟨_, rfl, ?_⟩
  split
  · exact hP.respond s _ hs
  · split
    · exact hP.raise s _ _ hs
    · split
      · exact hP.raise s _ _ hs
      · exact hP.respond _ _ (hP.queue s _ _ _ hs)

theorem KeptByBodies.readCommand (hP : KeptByBodies P) {i : Instr} (hread : i.isRead = true) (hs : P s) :
    ∃ t, exec i s = .next t ∧ P t := by
  cases exec_read_outcome hread s with
  | reports v z h => exact ⟨_, h s.rsp, hP.respond s _ hs⟩
  | fails c k h => exact ⟨_, h s ⟨rfl, rfl, rfl⟩, hP.raise s _ _ hs⟩

theorem KeptByBodies.exec (hP : KeptByBodies P) (i : Instr) (hs : P s) : ∃ t, exec i s = .next t ∧ P t := by
  cases i with
  | nop => exact ⟨_, rfl, hP.respond s _ hs⟩
  | qpush r c => exact hP.qpush r c hs
  | connect => exact ⟨_, rfl, hP.stageCommand _ hs (hP.connect s hs)⟩
  | read => exact ⟨_, rfl, hP.stageCommand _ hs (hP.read s hs)⟩
  | compute => exact ⟨_, rfl, hP.stageCommand _ hs (hP.compute s hs)⟩
  | shift => exact ⟨_, rfl, hP.stageCommand _ hs (hP.shift s hs)⟩
  | round => exact ⟨_, rfl, hP.stageCommand _ hs (hP.roundBody hs)⟩
  | run n => exact ⟨_, rfl, hP.stageCommand _ hs (hP.runBody n hs)⟩
  | finalize => exact ⟨_, rfl, hP.stageCommand _ hs (hP.finalize s hs)⟩
  | rdreg _ | rdres _ _ | rdalpha _ _ _ | rdcell _ _ | rdqlen _ _ | rdraw _ _ | rdconj _ _ | rdshift _ _ =>
    exact hP.readCommand rfl hs

theorem KeptByBodies.step (hP : KeptByBodies P) (hs : P s) (ht : step s = .next t) : P t := by
  unfold Machine.step at ht
  split at ht
  case isFalse => cases ht
  case isTrue =>
    obtain ⟨-, ha⟩ | ⟨rest, -, ha⟩ | ⟨w, d, rest, -, -, ha⟩ | ⟨w, d, rest, -, -, ha⟩ := s.accept_cases <;>
      simp only [ha] at ht
    · cases ht
      exact hs
    · cases ht
      exact hP.reset _ (hP.input s rest s.operand hs)
    · have hlatched := hP.input s rest d hs
      split at ht
      · rename_i i _
        obtain ⟨t', ht', h⟩ := hP.exec i hlatched
        cases ht'.symm.trans ht
        exact h
      · cases ht
        exact hP.raise _ _ _ hlatched
    · cases ht

end Kept

/-! ### Round numbers -/

section Numbers

variable {t N S : Nat}

/-- The rows already counted before a load round (`42_array_commands.md` R183). -/
theorem rowsDone_of_load (hN : 0 < N) (h : t % N = 0) : (t + N - 1) / N = t / N := by
  cases t with
  | zero => simp [Nat.div_eq_of_lt (Nat.sub_lt hN one_pos)]
  | succ m => rw [Nat.succ_div_of_mod_eq_zero h, Nat.succ_add_sub_one, Nat.add_div_right m hN]

/-- The rows already counted before a shift round: that of its group is one of them. -/
theorem rowsDone_of_shift (hN : 0 < N) (h : t % N ≠ 0) : (t + N - 1) / N = t / N + 1 := by
  cases t with
  | zero => simp at h
  | succ m => rw [Nat.succ_div_of_mod_ne_zero h, Nat.succ_add_sub_one, Nat.add_div_right m hN]

/-- The first load round is the one with row 0. -/
theorem row_eq_zero_iff (h : t % N = 0) : t / N = 0 ↔ t = 0 := by
  have ht : N * (t / N) = t := by simpa [h] using Nat.div_add_mod t N
  exact ⟨fun h0 => by rw [← ht, h0, Nat.mul_zero], fun h0 => by rw [h0, Nat.zero_div]⟩

/-- A shift round has the row of the round before it. -/
theorem row_pred_of_shift (h : t % N ≠ 0) : (t - 1) / N = t / N := by
  cases t with
  | zero => rfl
  | succ m => rw [Nat.succ_div_of_mod_ne_zero h, Nat.succ_sub_one]

/-- The rounds end with a full group. -/
theorem lt_of_shift (h : t % N ≠ 0) (hle : t ≤ S * N) : t < S * N :=
  Nat.lt_of_le_of_ne hle fun he => h (he ▸ Nat.mul_mod_left S N)

end Numbers

theorem legal_bounds {cfg : Config} (h : cfg.legal = true) :
    1 ≤ cfg.arraySize ∧ cfg.arraySize ≤ 256 ∧ cfg.numSignals ≤ 256 := by
  simp only [Config.legal, Bool.and_eq_true, decide_eq_true_eq] at h
  omega

/-- ACTIVE is one less from round to round (`42_array_commands.md` R180). -/
theorem roundActive_succ (cfg : Config) (t : Nat) : roundActive cfg t - 1 = roundActive cfg (t + 1) := by
  rw [roundActive, roundActive, BitVec.sub_eq_add_neg,
    show ((cfg.arraySize : Int) - (t + 1 : Nat)) = (cfg.arraySize - t) + -1 by push_cast; ring, BitVec.ofInt_add]
  rfl

theorem roundSource_of_load {cfg : Config} {t : Nat} (h : t % cfg.arraySize = 0) (c : Nat) :
    roundSource cfg t c = .ext (t / cfg.arraySize) := if_pos (.inr h)

theorem roundSource_zero (cfg : Config) (t : Nat) : roundSource cfg t 0 = .ext (t / cfg.arraySize) := if_pos (.inl rfl)

theorem roundSource_of_shift {cfg : Config} {t c : Nat} (h : t % cfg.arraySize ≠ 0) (hc : c ≠ 0) :
    roundSource cfg t c = .pred := if_neg (not_or.mpr ⟨hc, h⟩)

/-! ### CONNECT -/

section Connect

variable {s : State}

theorem cell_connected (hs : Shape s) {c : Nat} (hc : c < s.cfg.arraySize) :
    (connected s).cell c = connectedCell s.cfg s.isLoadRound c (s.cell c) := by
  have hlen : c < s.cells.length := hs.1 ▸ hc
  rw [State.cell_eq_getElem hlen, State.cell_eq_getElem (s := connected s) (by simpa [connected] using hlen)]
  exact List.getElem_mapIdx ..

theorem cell_connected_load (hs : Shape s) (hload : s.isLoadRound = true) {c : Nat} (hc : c < s.cfg.arraySize) :
    (connected s).cell c = { s.cell c with
      src := .ext (s.cell c).sigIdx.toNat, sigIdx := (s.cell c).sigIdx + 1
      shift := if (s.cell c).sigIdx = 0 then (s.cell c).shift else (s.cell c).shift.drop s.cfg.cellSize
      conj := if (s.cell c).sigIdx = 0 then (s.cell c).conj else (s.cell c).conj.drop s.cfg.cellSize } := by
  rw [cell_connected hs hc, hload, connectedCell_load]

theorem cell_connected_shift (hs : Shape s) (hload : s.isLoadRound = false) {c : Nat} (hc : c < s.cfg.arraySize) :
    (connected s).cell c = { s.cell c with src := if c = 0 then (s.cell c).src else .pred } := by
  rw [cell_connected hs hc, hload, connectedCell_shift]
  split <;> rfl

theorem nextActive_eq (h : s.active = roundActive s.cfg (s.iter.toNat - 1)) :
    s.nextActive = roundActive s.cfg s.iter.toNat := by
  unfold State.nextActive
  split
  · rename_i h0
    rw [h, h0]
    rfl
  · rename_i h0
    have hpos : 1 ≤ s.iter.toNat := Nat.one_le_iff_ne_zero.mpr fun h => h0 (BitVec.eq_of_toNat_eq h)
    rw [h, roundActive_succ, Nat.sub_add_cancel hpos]

/-- A FIFO of a cell after connect in a load round: the first one finds it empty, the others clear its block. -/
theorem length_cleared {iter : BitVec 32} {sigIdx : BitVec 16} {n : Nat} {f : List Sample}
    (hfirst : sigIdx = 0 ↔ iter = 0) (hf : f.length = if iter = 0 then 0 else n) :
    (if sigIdx = 0 then f else f.drop n).length = 0 := by
  by_cases h0 : iter = 0
  · rw [if_pos (hfirst.mpr h0), hf, if_pos h0]
  · rw [if_neg (h0 ∘ hfirst.mp), List.length_drop, hf, if_neg h0, Nat.sub_self]

theorem connected_load (hlegal : s.cfg.legal = true) (hs : Shape s) (h : BetweenRounds s) (hload : s.isLoadRound = true)
    (hchecks : loadFault s = none) : InRound (connected s) ∧ ReadCounts (connected s) := by
  obtain ⟨-, hactive, hcells⟩ := h
  obtain ⟨hN, -, hS⟩ := legal_bounds hlegal
  have hmod : s.iter.toNat % s.cfg.arraySize = 0 := isLoadRound_iff.mp hload
  rw [rowsDone_of_load hN hmod] at hcells
  have hrow : s.iter.toNat / s.cfg.arraySize < s.cfg.numSignals := by
    obtain ⟨hsignal, -⟩ := loadFault_eq_none.mp hchecks 0 hN
    obtain ⟨hsig, -⟩ := hcells 0 hN
    exact hsig ▸ Nat.not_le.mp (of_decide_eq_false hsignal)
  refine ⟨⟨(Nat.div_lt_iff_lt_mul hN).mp hrow, nextActive_eq hactive, rfl, fun c hc => ?_⟩, fun c hc => ?_⟩ <;>
    obtain ⟨hsig, hraw, hconj, hshift, -⟩ := hcells c hc <;> rw [cell_connected_load hs hload hc]
  · have hnext : ((s.cell c).sigIdx + 1).toNat = (s.cell c).sigIdx.toNat + 1 :=
      BitVec.toNat_add_of_lt (show (s.cell c).sigIdx.toNat + 1 < 2 ^ 16 by omega)
    exact ⟨hnext.trans (congrArg (· + 1) hsig), (congrArg Src.ext hsig).trans (roundSource_of_load hmod c).symm⟩
  · have hfirst : (s.cell c).sigIdx = 0 ↔ s.iter = 0 := by
      rw [← BitVec.toNat_inj, ← BitVec.toNat_inj, hsig]
      exact row_eq_zero_iff hmod
    rw [if_pos (show (connected s).roundKind = true from hload)]
    exact ⟨hraw, length_cleared hfirst hconj, length_cleared hfirst hshift⟩

theorem connected_shift (hlegal : s.cfg.legal = true) (hs : Shape s) (h : BetweenRounds s)
    (hload : s.isLoadRound = false) : InRound (connected s) ∧ ReadCounts (connected s) := by
  obtain ⟨hle, hactive, hcells⟩ := h
  obtain ⟨hN, -, -⟩ := legal_bounds hlegal
  have hmod : s.iter.toNat % s.cfg.arraySize ≠ 0 := fun h => by simp [isLoadRound_iff.mpr h] at hload
  have hiter : s.iter ≠ 0 := fun h => hmod (by simp [h])
  simp only [rowsDone_of_shift hN hmod, if_neg hiter] at hcells
  refine ⟨⟨lt_of_shift hmod hle, nextActive_eq hactive, rfl, fun c hc => ?_⟩, fun c hc => ?_⟩ <;>
    obtain ⟨hsig, hraw, hconj, hshift, hsrc⟩ := hcells c hc <;> rw [cell_connected_shift hs hload hc]
  · refine ⟨hsig, ?_⟩
    by_cases h0 : c = 0
    · subst h0
      rw [roundSource_zero, row_pred_of_shift hmod] at hsrc
      exact hsrc.trans (roundSource_zero _ _).symm
    · exact (if_neg h0).trans (roundSource_of_shift hmod h0).symm
  · rw [if_neg (Bool.eq_false_iff.mp (show (connected s).roundKind = false from hload))]
    exact ⟨hraw, hconj, hshift⟩

end Connect

/-! ### The other stages -/

section Stages

variable {s t : State}

/-- A fact about every cell of a state with N cells. -/
theorem forall_cells {P : Cell → Prop} (hs : Shape s) (h : ∀ c < s.cfg.arraySize, P (s.cell c)) :
    ∀ k ∈ s.cells, P k := by
  intro k hk
  obtain ⟨c, hc, rfl⟩ := List.mem_iff_getElem.mp hk
  rw [← State.cell_eq_getElem hc]
  exact h c (hs.1 ▸ hc)

/-- A loop that writes neither SIG_IDX nor SRC stays in the round. -/
theorem inRound_loop (h : InRound s) (hrest : StoresOf s t)
    (hcell : ∀ c < s.cfg.arraySize, (t.cell c).sigIdx = (s.cell c).sigIdx ∧ (t.cell c).src = (s.cell c).src) :
    InRound t := by
  obtain ⟨hlt, hactive, hkind, hcells⟩ := h
  have hregisters : t.cfg = s.cfg ∧ t.iter = s.iter ∧ t.active = s.active ∧ t.roundKind = s.roundKind := by
    rw [hrest]
    exact ⟨rfl, rfl, rfl, rfl⟩
  obtain ⟨hcfg, hiter, hactive', hkind'⟩ := hregisters
  rw [InRound, hcfg, hiter, hactive', hkind']
  refine ⟨hlt, hactive, hkind, fun c hc => ?_⟩
  rw [(hcell c hc).1, (hcell c hc).2]
  exact hcells c hc

/-- Where a cell of a round reads from (`42_array_commands.md` R183): the round's row, or its predecessor in a shift
round. -/
theorem inRound_source (h : InRound s) {c : Nat} (hc : c < s.cfg.arraySize) :
    (∃ r < s.cfg.numSignals, (s.cell c).src = .ext r ∧ (c = 0 ∨ s.roundKind = true)) ∨
    (c ≠ 0 ∧ (s.cell c).src = .pred ∧ s.roundKind = false) := by
  obtain ⟨hlt, -, hkind, hcells⟩ := h
  obtain ⟨-, hsrc⟩ := hcells c hc
  by_cases hext : c = 0 ∨ s.iter.toNat % s.cfg.arraySize = 0
  · refine .inl ⟨_, Nat.div_lt_of_lt_mul (Nat.mul_comm .. ▸ hlt), hsrc.trans (if_pos hext), hext.imp id fun h => ?_⟩
    rw [hkind, h, BEq.rfl]
  · obtain ⟨h0, hmod⟩ := not_or.mp hext
    exact .inr ⟨h0, hsrc.trans (if_neg hext), hkind.trans (beq_eq_false_iff_ne.mpr hmod)⟩

/-- READ finds what it needs (`42_array_commands.md` R182). -/
theorem sourced_of_readCounts (h : InRound s) (hcounts : ReadCounts s) : Sourced s := by
  intro c hc
  obtain ⟨r, hr, hsrc, -⟩ | ⟨h0, hsrc, hkind⟩ := inRound_source h hc
  · exact .inl ⟨r, hr, hsrc⟩
  · obtain ⟨-, -, hshift⟩ := hcounts (c - 1) (by omega)
    rw [if_neg (Bool.eq_false_iff.mp hkind)] at hshift
    exact .inr ⟨h0, hsrc, Nat.le_of_eq hshift.symm⟩

theorem cellBounds_of_readCounts (hs : Shape s) (h : ReadCounts s) : CellBounds s :=
  forall_cells hs fun c hc => by
    obtain ⟨hraw, hconj, hshift⟩ := h c hc
    rw [hraw, hconj, hshift]
    refine ⟨Nat.zero_le _, ?_, ?_⟩ <;> split <;> omega

theorem cellBounds_of_computeCounts (hs : Shape s) (h : ComputeCounts s) : CellBounds s :=
  forall_cells hs fun c hc => by
    obtain ⟨hraw, hconj, hshift, -⟩ := h c hc
    rw [hraw, hconj, hshift, roundShiftCount]
    refine ⟨Nat.le_refl _, Nat.le_refl _, ?_⟩
    split <;> omega

/-- The block a sourced cell reads has n samples. -/
theorem length_readBlock {c : Nat} (h : SourcedAt s c) : (readBlock s c).length = s.cfg.cellSize := by
  unfold readBlock
  obtain ⟨r, -, hsrc⟩ | ⟨-, hsrc, hblock⟩ := h
  · rw [hsrc]
    exact length_zeroFilled _ _ _
  · rw [hsrc]
    exact List.length_take_of_le hblock

/-- What READ leaves in a SHIFT (`42_array_commands.md` R181): the last one of a shift round has no successor to empty
it. -/
theorem length_shift_afterRead (h : InRound s) {c : Nat} (hc : c < s.cfg.arraySize)
    (hshift : (s.cell c).shift.length = if s.roundKind then 0 else s.cfg.cellSize) :
    (if c + 1 < s.cfg.arraySize ∧ (s.cell (c + 1)).src = .pred then [] else (s.cell c).shift).length =
      roundShiftCount s c := by
  unfold roundShiftCount
  cases hkind : s.roundKind with
  | true =>
    rw [hkind, if_pos rfl] at hshift
    have hload : ¬ (true = false ∧ c + 1 = s.cfg.arraySize) := fun h => Bool.noConfusion h.1
    refine Eq.trans ?_ (if_neg hload).symm
    split
    · rfl
    · exact hshift
  | false =>
    rw [hkind, if_neg Bool.false_ne_true] at hshift
    rcases Nat.lt_or_ge (c + 1) s.cfg.arraySize with hnext | hlast
    · obtain ⟨r, -, -, hext⟩ | ⟨-, hpred, -⟩ := inRound_source h hnext
      · simp [hkind] at hext
      · rw [if_pos ⟨hnext, hpred⟩, if_neg fun h => Nat.ne_of_lt hnext h.2]
        rfl
    · rw [if_neg fun h => Nat.not_lt.mpr hlast h.1, if_pos ⟨rfl, Nat.le_antisymm hc hlast⟩]
      exact hshift

/-- A loop over the cells leaves ROUND_KIND alone, and with it the SHIFT that stays full. -/
theorem roundShiftCount_loop (hrest : StoresOf s t) (c : Nat) : roundShiftCount t c = roundShiftCount s c := by
  rw [hrest]
  rfl

/-- The counts after READ, and the conjugates of the blocks read externally (`42_array_commands.md` R181;
`41_cell_ops.md` R162). -/
theorem computeCounts_afterRead (h : InRound s) (hcounts : ReadCounts s) (hdone : ReadDone s s.cfg.arraySize t) :
    ComputeCounts t := by
  intro c hc
  rw [hdone.rest.cfg] at hc
  obtain ⟨-, hconj, hshift⟩ := hcounts c hc
  have hkind : t.roundKind = s.roundKind := by rw [hdone.rest]
  have hblock := length_readBlock (sourced_of_readCounts h hcounts c hc)
  have hshift' := length_shift_afterRead h hc hshift
  rw [hdone.cell c hc, roundShiftCount_loop hdone.rest, hkind, hdone.rest.cfg]
  simp only [hc, if_true, true_and]
  obtain ⟨r, -, hsrc, -⟩ | ⟨h0, hsrc, hshiftRound⟩ := inRound_source h hc
  · rw [if_pos (by rw [hsrc]; nofun)]
    exact ⟨hblock, (List.length_map _).trans hblock, hshift', fun _ => rfl⟩
  · rw [if_neg (not_not_intro hsrc)]
    rw [if_neg (Bool.eq_false_iff.mp hshiftRound)] at hconj
    exact ⟨hblock, hconj, hshift', fun hext => by simp [h0, hshiftRound] at hext⟩

/-- READ moves blocks: the round stays, and its counts become those of COMPUTE. -/
theorem afterRead (h : InRound s) (hcounts : ReadCounts s) (hdone : ReadDone s s.cfg.arraySize t) :
    InRound t ∧ ComputeCounts t :=
  ⟨inRound_loop h hdone.rest fun c hc => by rw [hdone.cell c hc]; exact ⟨rfl, rfl⟩,
    computeCounts_afterRead h hcounts hdone⟩

/-- COMPUTE writes ALPHA and ALPHA_TOP only: the round and its counts stay. -/
theorem afterCompute (h : InRound s) (hcounts : ComputeCounts s) (hdone : ComputeDone s s.cfg.arraySize t) :
    InRound t ∧ ComputeCounts t := by
  have hcell {c : Nat} (hc : c < s.cfg.arraySize) : ∃ alpha alphaTop,
      t.cell c = { s.cell c with alpha := alpha, alphaTop := alphaTop } :=
    ⟨_, _, ((hdone.cell c hc).trans (if_pos hc)).trans (computedCell_eq s c _)⟩
  refine ⟨inRound_loop h hdone.rest fun c hc => ?_, fun c hc => ?_⟩
  · obtain ⟨alpha, alphaTop, hk⟩ := hcell hc
    rw [hk]
    exact ⟨rfl, rfl⟩
  · rw [hdone.rest.cfg] at hc
    obtain ⟨alpha, alphaTop, hk⟩ := hcell hc
    have hkind : t.roundKind = s.roundKind := by rw [hdone.rest]
    rw [hk, roundShiftCount_loop hdone.rest, hkind, hdone.rest.cfg]
    exact hcounts c hc

/-- SHIFT ends the round: every block is in SHIFT and the round is counted (`42_array_commands.md` R174, R181). -/
theorem betweenRounds_afterShift (hlegal : s.cfg.legal = true) (h : InRound s) (hcounts : ComputeCounts s)
    (hcfg : t.cfg = s.cfg) (hactive : t.active = s.active) (hiter : t.iter = s.iter + 1)
    (hcell : ∀ c < s.cfg.arraySize, t.cell c = { s.cell c with raw := [], shift := (s.cell c).raw }) :
    BetweenRounds t := by
  obtain ⟨hlt, hround, -, hcells⟩ := h
  obtain ⟨hN, hN', hS⟩ := legal_bounds hlegal
  have hsmall : s.iter.toNat < 256 * 256 := Nat.lt_of_lt_of_le hlt (Nat.mul_le_mul hS hN')
  have hnext : (s.iter + 1).toNat = s.iter.toNat + 1 :=
    BitVec.toNat_add_of_lt (show s.iter.toNat + 1 < 2 ^ 32 by omega)
  have hpos : s.iter + 1 ≠ 0 := fun h0 => by
    rw [h0] at hnext
    cases hnext
  rw [BetweenRounds, hcfg, hactive, hiter, hnext, Nat.add_sub_cancel]
  refine ⟨hlt, hround, fun c hc => ?_⟩
  obtain ⟨hsig, hsrc⟩ := hcells c hc
  obtain ⟨hraw, hconj, -⟩ := hcounts c hc
  rw [hcell c hc, Nat.succ_add_sub_one, Nat.add_div_right _ hN]
  simp only [if_neg hpos]
  exact ⟨hsig, trivial, hconj, hraw, hsrc⟩

end Stages

/-! ### The invariant -/

section Invariant

variable {s : State}

/-- A fault claims the shape of the stores only. -/
theorem acceptedInv_raise (h : AcceptedInv s) (w : Word) (f : Raised) : AcceptedInv (s.raise w f) := by
  obtain ⟨hlegal, hshape, -⟩ := h
  refine ⟨by rw [State.raise_cfg]; exact hlegal, ?_, ?_⟩
  · simpa only [Shape, State.raise_cells, State.raise_cfg, State.raise_result, State.raise_extq] using hshape
  · simp only [AcceptedPoint, State.raise_phase]

theorem acceptedPoint_connect (hphase : s.phase = .connect) : AcceptedPoint s ↔ BetweenRounds s := by
  rw [AcceptedPoint, hphase]

theorem acceptedPoint_read (hphase : s.phase = .read) : AcceptedPoint s ↔ InRound s ∧ ReadCounts s := by
  rw [AcceptedPoint, hphase]

theorem acceptedPoint_compute (hphase : s.phase = .compute) : AcceptedPoint s ↔ InRound s ∧ ComputeCounts s := by
  rw [AcceptedPoint, hphase]

theorem acceptedPoint_shift (hphase : s.phase = .shift) : AcceptedPoint s ↔ InRound s ∧ ComputeCounts s := by
  rw [AcceptedPoint, hphase]

theorem acceptedInv_connectBody (h : AcceptedInv s) : ResultHas AcceptedInv (connectBody s) := by
  have ⟨hlegal, hshape, hpoint⟩ := h
  obtain ⟨-, hb⟩ | ⟨-, f, -, hb⟩ | ⟨hphase, hchecks, -⟩ := connectBody_cases s
  · rw [hb]; exact h
  · rw [hb]; exact h
  · rw [connectBody_eq_connected hshape hphase hchecks]
    have hbetween := (acceptedPoint_connect hphase).mp hpoint
    have hshape' : Shape (connected s) := ⟨List.length_mapIdx.trans hshape.1, hshape.2⟩
    refine ⟨hlegal, hshape', ?_⟩
    show InRound (connected s) ∧ ReadCounts (connected s)
    cases hload : s.isLoadRound with
    | true => exact connected_load hlegal hshape hbetween hload (by simpa [hload] using hchecks)
    | false => exact connected_shift hlegal hshape hbetween hload

theorem acceptedInv_readBody (h : AcceptedInv s) : ResultHas AcceptedInv (readBody s) := by
  have ⟨hlegal, hshape, hpoint⟩ := h
  obtain ⟨-, hb⟩ | ⟨-, f, -, hb⟩ | ⟨hphase, -, hb⟩ := readBody_cases s <;> rw [hb]
  · exact h
  · exact h
  · obtain ⟨hround, hcounts⟩ := (acceptedPoint_read hphase).mp hpoint
    have hdone := forCells_read hshape (cellBounds_of_readCounts hshape hcounts) (sourced_of_readCounts hround hcounts)
    have hafter := afterRead hround hcounts hdone
    exact ⟨hdone.rest.cfg ▸ hlegal, hdone.shape, hafter⟩

theorem acceptedInv_computeBody (h : AcceptedInv s) : ResultHas AcceptedInv (computeBody s) := by
  have ⟨hlegal, hshape, hpoint⟩ := h
  obtain ⟨-, hb⟩ | ⟨-, c, -, hb⟩ | ⟨hphase, -, hb⟩ := computeBody_cases s <;> rw [hb]
  · exact h
  · exact h
  · obtain ⟨hround, hcounts⟩ := (acceptedPoint_compute hphase).mp hpoint
    have hdone := forCells_compute hshape
    have hafter := afterCompute hround hcounts hdone
    exact ⟨hdone.rest.cfg ▸ hlegal, hdone.shape, hafter⟩

theorem acceptedInv_shiftBody (h : AcceptedInv s) : ResultHas AcceptedInv (shiftBody s) := by
  have ⟨hlegal, hshape, hpoint⟩ := h
  obtain ⟨-, hb⟩ | ⟨-, c, -, hb⟩ | ⟨hphase, -, hb⟩ := shiftBody_cases s <;> rw [hb]
  · exact h
  · exact h
  · obtain ⟨hround, hcounts⟩ := (acceptedPoint_shift hphase).mp hpoint
    have hfull : ∀ k ∈ s.cells, s.cfg.cellSize ≤ k.raw.length :=
      forall_cells hshape fun c hc => Nat.le_of_eq (hcounts c hc).1.symm
    have hdone := forCells_shift hshape (cellBounds_of_computeCounts hshape hcounts) hfull
    have hactive : (forCells shiftCell s).active = s.active := by rw [hdone.rest]
    exact ⟨hdone.rest.cfg ▸ hlegal, hdone.shape, betweenRounds_afterShift hlegal hround hcounts hdone.rest.cfg hactive
      rfl fun c hc => (hdone.cell c hc).trans (if_pos hc)⟩

theorem acceptedInv_finalizeBody (h : AcceptedInv s) : ResultHas AcceptedInv (finalizeBody s) := by
  unfold finalizeBody
  split
  · exact h
  · rename_i hp
    obtain ⟨hlegal, ⟨hcells, -, hrows⟩, hpoint⟩ := h
    exact ⟨hlegal, ⟨hcells, by simp [State.runOutput], hrows⟩, (acceptedPoint_connect (not_not.mp hp)).mp hpoint⟩

theorem kept_acceptedInv : KeptByBodies AcceptedInv where
  connect := fun _ => acceptedInv_connectBody
  read := fun _ => acceptedInv_readBody
  compute := fun _ => acceptedInv_computeBody
  shift := fun _ => acceptedInv_shiftBody
  finalize := fun _ => acceptedInv_finalizeBody
  input := fun _ _ _ h => h
  reset := fun _ h => acceptedInv_resetWith h.1
  respond := fun _ _ h => h
  queue := fun _ r c q ⟨hlegal, hshape, hpoint⟩ => ⟨hlegal, shape_setQueue r c q hshape, hpoint⟩
  raise := fun _ w f h => acceptedInv_raise h w f

end Invariant

/-- Settles O55: each thing a step is made of keeps the invariant. -/
theorem stepKeepsAcceptedInvariant : Obligations.StepKeepsAcceptedInvariant :=
  fun _ _ hs ht => kept_acceptedInv.step hs ht

end Sys2Proof.AcceptedSequence

/-! SUPPORT. The stage-type commands as a sequence (`42_array_commands.md` R170, R175, R177, R178): the PHASE check of
each, FINALIZE, and ROUND against the four stage commands. -/

namespace Sys2Proof.StageSequence

open Sys2Proof.Machine
open Sys2Proof.CellStages (stageCommand_completes)
open Sys2Proof.HostRegisters (raise_eq_afterFault)
open Sys2Proof.NumberDomain (roundStages_eq_bind)
open Sys2Proof.RunSequence (finalizeBody_of_connect roundStages_error_running roundStages_leaves sameRegisters_refl)
open Sys2Proof.StepEffects
open Sys2Proof.Safety (afterFault execSeq)

/-! ### The PHASE check -/

section PhaseCheck

variable {s : State}

/-- A stage-type command whose PHASE check fails (`42_array_commands.md` R178). -/
theorem stageCommand_wrongPhase {w : Word} {body : State → StageResult} {stage : BitVec 3} (hs : s.phase ≠ .fault)
    (hbody : body s = .error (s, sequenceFault stage)) :
    (Host.Outcome.next (stageCommand w body s) : Host.Outcome State Fault Refusal) =
      .next (afterFault s w 0x02 0 0 stage) := by
  rw [stageCommand_of_error hs hbody, raise_eq_afterFault]
  rfl

/-- Every stage-type command is refused in P_FAULT (`60_exceptions.md` R248). -/
theorem exec_stageType_faulted {i : Instr} (hi : i.isStageType = true) (hs : s.phase = .fault) :
    exec i s = .next s.refuseFaulted := by
  cases i with
  | connect | read | compute | shift | round | run _ | finalize =>
    exact congrArg Host.Outcome.next (stageCommand_of_faulted hs)
  | nop | qpush _ _ | rdreg _ | rdres _ _ | rdalpha _ _ _ | rdcell _ _ | rdqlen _ _ | rdraw _ _ | rdconj _ _
  | rdshift _ _ => cases hi

end PhaseCheck

/-- Settles O14: outside P_FAULT the first check of each body fails, in P_FAULT no body starts. -/
theorem wrongPhaseFaultsSequence : Obligations.WrongPhaseFaultsSequence := by
  refine fun s => ⟨fun hs => ?_, fun hs i hi => exec_stageType_faulted hi hs, by decide⟩
  exact ⟨fun hp => stageCommand_wrongPhase hs (if_pos hp), fun hp => stageCommand_wrongPhase hs (if_pos hp),
    fun hp => stageCommand_wrongPhase hs (if_pos hp), fun hp => stageCommand_wrongPhase hs (if_pos hp),
    fun hp => stageCommand_wrongPhase hs (if_pos hp), fun _ hp => stageCommand_wrongPhase hs (if_pos hp),
    fun hp => stageCommand_wrongPhase hs (if_pos hp)⟩

/-! ### FINALIZE -/

/-- The run output, cell by cell (`42_array_commands.md` R177). -/
theorem runOutput_eq (s : State) : s.runOutput =
    (List.range s.cfg.arraySize).map fun c => if c = 0 then (s.cell c).alphaTop else (s.cell c).alpha := by
  refine List.map_congr_left fun c _ => ?_
  split
  · rename_i h0
    rw [h0]
  · rfl

/-- Settles O46: in P_CONNECT the body of FINALIZE completes. -/
theorem finalizeCollectsResults : Obligations.FinalizeCollectsResults := by
  intro s hphase
  rw [← runOutput_eq]
  exact stageCommand_completes hphase nofun (finalizeBody_of_connect hphase)

/-! ### ROUND and the four stage commands -/

/-- The state a sequence of stage commands ends in, when its bodies in a row answer r: the last command succeeds, or one
has taken the fault and the later ones are refused. -/
def EndsAs : StageResult → State → Prop
  | .ok v, t => t = v.respondOk
  | .error (v, f), t => ∃ w r, r.status ≠ 0 ∧ t = (v.raise w f).withRsp r

section Sequence

variable {s t v : State}

/-- Completed stages take no fault. -/
theorem stages_running (hs : s.phase ≠ .fault) (h : Stages s t) : t.phase ≠ .fault := by
  cases h with
  | refl => exact hs
  | tail _ hmove => exact hmove.phases.2

/-- A fault overwrites the response. -/
theorem raise_withRsp (s : State) (r : Response) (w : Word) (f : Raised) : (s.withRsp r).raise w f = s.raise w f := by
  by_cases hs : s.phase = .fault
  · rw [State.raise_of_faulted s w f hs, State.raise_of_faulted (s.withRsp r) w f hs]
    rfl
  · rw [State.raise_of_running s w f hs, State.raise_of_running (s.withRsp r) w f hs]
    rfl

/-- No cause has the code of success (`60_exceptions.md` R241). -/
theorem code_ne_zero (cause : Cause) : cause.code ≠ 0 := by cases cause <;> decide

/-- Stage-type commands after a fault change the response only, and none succeeds. -/
theorem execSeq_faulted {l : List Instr} (hl : ∀ i ∈ l, i.isStageType = true) (hs : s.phase = .fault)
    (hstatus : s.rsp.status ≠ 0) : ∃ r, r.status ≠ 0 ∧ execSeq l s = .next (s.withRsp r) := by
  induction l generalizing s with
  | nil => exact ⟨s.rsp, hstatus, rfl⟩
  | cons i l ih =>
    obtain ⟨hi, hl⟩ := List.forall_mem_cons.mp hl
    rw [execSeq, exec_stageType_faulted hi hs]
    exact ih (s := s.refuseFaulted) hl hs (code_ne_zero .faulted)

/-- One stage command and then others: as the bodies one after another. -/
theorem execSeq_cons_endsAs {i : Instr} {l : List Instr} {w : Word} {body rest : State → StageResult}
    (hexec : ∀ u, exec i u = .next (stageCommand w body u)) (hl : ∀ j ∈ l, j.isStageType = true)
    (hrsp : ∀ r u, body (u.withRsp r) = (body u).withRsp r) (hanswers : Answers s (body s)) (hs : s.phase ≠ .fault)
    (hrest : ∀ v, v.phase ≠ .fault → ∃ t, execSeq l v.respondOk = .next t ∧ EndsAs (rest v) t) (r : Response) :
    ∃ t, execSeq (i :: l) (s.withRsp r) = .next t ∧ EndsAs ((body s).bind rest) t := by
  have hrunning : (s.withRsp r).phase ≠ .fault := hs
  rw [execSeq, hexec]
  cases hbody : body s with
  | ok v =>
    rw [hbody] at hanswers
    rw [stageCommand_of_ok hrunning ((hrsp r s).trans (by rw [hbody]; rfl))]
    exact hrest v (stages_running hs hanswers)
  | error e =>
    obtain ⟨v, f⟩ := e
    rw [stageCommand_of_error hrunning ((hrsp r s).trans (by rw [hbody]; rfl))]
    rw [raise_withRsp]
    obtain ⟨r', hr', hseq⟩ := execSeq_faulted hl (State.raise_phase v w f) (code_ne_zero f.cause)
    exact ⟨_, hseq, w, r', hr', rfl⟩

/-- The four stage commands in a row end as the bodies of a round do (`42_array_commands.md` R175). -/
theorem execSeq_stages (hs : s.phase ≠ .fault) :
    ∃ t, execSeq [.connect, .read, .compute, .shift] s = .next t ∧ EndsAs (roundStages s) t := by
  have hround : roundStages s = (connectBody s).bind fun s1 => (readBody s1).bind fun s2 =>
      (computeBody s2).bind fun s3 => (shiftBody s3).bind .ok := by
    rw [roundStages_eq_bind]
    refine congrArg _ (funext fun s1 => congrArg _ (funext fun s2 => congrArg _ (funext fun s3 => ?_)))
    cases shiftBody s3 <;> rfl
  rw [hround]
  exact execSeq_cons_endsAs (fun _ => rfl) (by decide) connectBody_withRsp (connectBody_answers s) hs (fun s1 h1 =>
    execSeq_cons_endsAs (fun _ => rfl) (by decide) readBody_withRsp (readBody_answers s1) h1 (fun s2 h2 =>
      execSeq_cons_endsAs (fun _ => rfl) (by decide) computeBody_withRsp (computeBody_answers s2) h2 (fun s3 h3 =>
        execSeq_cons_endsAs (rest := .ok) (fun _ => rfl) (by decide) shiftBody_withRsp (shiftBody_answers s3) h3
          (fun v _ => ⟨v.respondOk, rfl, rfl⟩) _) _) _) s.rsp

/-- ROUND in P_CONNECT performs the bodies of a round. -/
theorem exec_round (hs : s.phase = .connect) : exec .round s = .next ((roundStages s).finish (encode .round)) := by
  have hbody : roundBody s = roundStages s := if_neg (not_not_intro hs)
  show Host.Outcome.next (stageCommand _ _ _) = _
  rw [stageCommand, if_neg (by simp [hs]), hbody]

end Sequence

/-- Settles O47: both perform the bodies of a round, and a fault differs in the recorded word and the response. -/
theorem roundIsFourStages : Obligations.RoundIsFourStages := by
  intro s t hs hseq
  have hrunning : s.phase ≠ .fault := by simp [hs]
  obtain ⟨t', hseq', hends⟩ := execSeq_stages hrunning
  cases hseq'.symm.trans hseq
  rw [exec_round hs]
  cases hround : roundStages s with
  | ok v =>
    rw [hround] at hends
    obtain rfl : t = v.respondOk := hends
    exact congrArg Host.Outcome.next (if_pos rfl).symm
  | error e =>
    obtain ⟨v, f⟩ := e
    rw [hround] at hends
    obtain ⟨w, r, hr, rfl⟩ := hends
    have hkept := roundStages_leaves (sameRegisters_refl s)
    rw [hround] at hkept
    have hv : v.phase ≠ .fault := roundStages_error_running hrunning hround
    refine congrArg Host.Outcome.next (Eq.trans ?_ (if_neg hr).symm)
    rw [State.raise_of_running v w f hv, ← hkept.cfg]
    exact State.raise_of_running v _ f hv

end Sys2Proof.StageSequence

/-! SUPPORT. The rounds of an accepted sequence (`42_array_commands.md` R175, R176, R182, R184, R186; log entry 19):
each stage passes its checks and adds its share to CYC, so a round completes until the last signal row is used. -/

namespace Sys2Proof.AcceptedRounds

open Sys2Proof.Machine Sys2Proof.CellStages Sys2Proof.AcceptedSequence
open Sys2Proof.NumberDomain (roundStages_eq_bind runRounds_succ_eq_bind runBody_eq_bind)
open Sys2Proof.StepEffects (finalized)
open Sys2Proof.RunSequence (finalizeBody_of_connect exec_run_of_ok runRounds_succ_of_ok)
open Sys2Proof.StageSequence (runOutput_eq)
open Sys2Proof.HostReads (exec_read_outcome)
open Sys2Proof.Safety (Shape roundSource roundActive roundCost BetweenRounds InRound ReadCounts ComputeCounts
  AcceptedInv okResponse)

/-! ### The checks of a round -/

section Checks

variable {s : State}

/-! #### What the invariant says, phase by phase -/

theorem accepted_shape (h : AcceptedInv s) : Shape s := h.2.1

theorem accepted_connect (h : AcceptedInv s) (hphase : s.phase = .connect) : BetweenRounds s :=
  (acceptedPoint_connect hphase).mp h.2.2

theorem accepted_read (h : AcceptedInv s) (hphase : s.phase = .read) : InRound s ∧ ReadCounts s :=
  (acceptedPoint_read hphase).mp h.2.2

theorem accepted_compute (h : AcceptedInv s) (hphase : s.phase = .compute) : InRound s ∧ ComputeCounts s :=
  (acceptedPoint_compute hphase).mp h.2.2

theorem accepted_shift (h : AcceptedInv s) (hphase : s.phase = .shift) : InRound s ∧ ComputeCounts s :=
  (acceptedPoint_shift hphase).mp h.2.2

/-! #### The stages pass -/

/-- A clearShift finds its block: after the first round CONJ and SHIFT are full, before it no row is selected
(`42_array_commands.md` R181, R182). -/
theorem clearUnderflow_betweenRounds (h : BetweenRounds s) {c : Nat} (hc : c < s.cfg.arraySize) :
    clearUnderflow s c = false := by
  obtain ⟨-, -, hcells⟩ := h
  obtain ⟨hsig, -, hconj, hshift, -⟩ := hcells c hc
  by_cases h0 : s.iter = 0
  · have hrow : (s.cell c).sigIdx = 0 := by
      rw [← BitVec.toNat_inj, hsig, h0]
      exact Nat.div_eq_of_lt (show 0 + s.cfg.arraySize - 1 < s.cfg.arraySize by omega)
    simp [clearUnderflow, hrow]
  · rw [if_neg h0] at hconj hshift
    simp [clearUnderflow, hconj, hshift]

/-- The row a load round selects is missing when all rounds are done, and then only (`42_array_commands.md` R184). -/
theorem noSignal_iff (h : BetweenRounds s) (hload : s.iter.toNat % s.cfg.arraySize = 0) {c : Nat}
    (hc : c < s.cfg.arraySize) : noSignal s c = true ↔ s.iter.toNat = s.cfg.numSignals * s.cfg.arraySize := by
  obtain ⟨hle, -, hcells⟩ := h
  obtain ⟨hsig, -⟩ := hcells c hc
  have hN : 0 < s.cfg.arraySize := by omega
  rw [noSignal, decide_eq_true_eq, hsig, rowsDone_of_load hN hload, Nat.le_div_iff_mul_le hN]
  omega

theorem loadFault_betweenRounds (h : BetweenRounds s) (hload : s.iter.toNat % s.cfg.arraySize = 0)
    (hlt : s.iter.toNat < s.cfg.numSignals * s.cfg.arraySize) : loadFault s = none :=
  loadFault_eq_none.mpr fun _ hc =>
    ⟨Bool.eq_false_iff.mpr fun hmissing => Nat.ne_of_lt hlt ((noSignal_iff h hload hc).mp hmissing),
      clearUnderflow_betweenRounds h hc⟩

/-- CONNECT completes while a signal row is left (`42_array_commands.md` R184). -/
theorem connectBody_completes (h : AcceptedInv s) (hphase : s.phase = .connect)
    (hlt : s.iter.toNat < s.cfg.numSignals * s.cfg.arraySize) : connectBody s = .ok (connected s) := by
  refine connectBody_eq_connected (accepted_shape h) hphase ?_
  split
  · rename_i hload
    exact loadFault_betweenRounds (accepted_connect h hphase) (isLoadRound_iff.mp hload) hlt
  · rfl

/-- After the last round CONNECT finds no row, first at cell 0 (`42_array_commands.md` R184). -/
theorem connectBody_noSignal (h : AcceptedInv s) (hphase : s.phase = .connect)
    (hlast : s.iter.toNat = s.cfg.numSignals * s.cfg.arraySize) :
    ∃ f, connectBody s = .error (s, f) ∧ f.cause = .noSignal := by
  obtain ⟨hN, -⟩ := legal_bounds h.1
  have hload : s.iter.toNat % s.cfg.arraySize = 0 := hlast ▸ Nat.mul_mod_left _ _
  have hmissing : firstCell s (noSignal s) = some 0 := firstCell_eq_some.mpr
    ⟨hN, (noSignal_iff (accepted_connect h hphase) hload hN).mpr hlast, nofun⟩
  have hfault : loadFault s = some ⟨.noSignal, cellIndex 0, (s.cell 0).sigIdx.setWidth 8, 1⟩ := by
    rw [loadFault, hmissing]
  obtain ⟨hp, -⟩ | ⟨-, f, hf, hb⟩ | ⟨-, hpass, -⟩ := connectBody_cases s
  · exact absurd hphase hp
  · rw [isLoadRound_iff.mpr hload, if_pos rfl, hfault] at hf
    cases hf
    exact ⟨_, hb, rfl⟩
  · rw [isLoadRound_iff.mpr hload, if_pos rfl, hfault] at hpass
    cases hpass

theorem iter_lt_or_eq (h : AcceptedInv s) (hphase : s.phase = .connect) :
    s.iter.toNat < s.cfg.numSignals * s.cfg.arraySize ∨ s.iter.toNat = s.cfg.numSignals * s.cfg.arraySize :=
  Nat.lt_or_eq_of_le (accepted_connect h hphase).1

theorem readBody_completes (h : AcceptedInv s) (hphase : s.phase = .read) :
    readBody s = .ok { forCells readCell s with phase := .compute } := by
  obtain ⟨hround, hcounts⟩ := accepted_read h hphase
  exact readBody_of_sourced hphase (sourced_of_readCounts hround hcounts)

theorem computeBody_completes (h : AcceptedInv s) (hphase : s.phase = .compute) :
    computeBody s = .ok { forCells computeCell s with phase := .shift } := by
  obtain ⟨-, hcounts⟩ := accepted_compute h hphase
  refine computeBody_of_full (accepted_shape h) hphase (forall_cells (accepted_shape h) fun c hc => ?_)
  obtain ⟨hraw, hconj, -⟩ := hcounts c hc
  exact ⟨Nat.le_of_eq hraw.symm, Nat.le_of_eq hconj.symm⟩

/-- Every RAW is full at the SHIFT (`42_array_commands.md` R181). -/
theorem raw_full_of_computeCounts (h : AcceptedInv s) (hcounts : ComputeCounts s) :
    ∀ k ∈ s.cells, s.cfg.cellSize ≤ k.raw.length :=
  forall_cells (accepted_shape h) fun c hc => Nat.le_of_eq (hcounts c hc).1.symm

theorem shiftBody_completes (h : AcceptedInv s) (hphase : s.phase = .shift) :
    shiftBody s = .ok { forCells shiftCell s with iter := s.iter + 1, phase := .connect } :=
  shiftBody_of_full (accepted_shape h) hphase (raw_full_of_computeCounts h (accepted_shift h hphase).2)

end Checks

/-- Settles O57: CONNECT completes below the last row and finds none after it, and the two statuses differ. -/
theorem noSignalExactlyAfterLastRow : Obligations.NoSignalExactlyAfterLastRow := by
  intro s h hphase
  have hrunning : s.phase ≠ .fault := by simp [hphase]
  obtain hlt | hlast := iter_lt_or_eq h hphase
  · refine ⟨_, congrArg Host.Outcome.next (stageCommand_of_ok hrunning (connectBody_completes h hphase hlt)), ?_⟩
    simp [hlt, Nat.ne_of_lt hlt]
  · obtain ⟨f, hbody, hcause⟩ := connectBody_noSignal h hphase hlast
    refine ⟨_, congrArg Host.Outcome.next (stageCommand_of_error hrunning hbody), ?_⟩
    simp [hlast, hcause, Cause.code]

/-! ### No underflow -/

/-- A body that fails no underflow check. -/
def NoUnderflow : StageResult → Prop
  | .ok _ => True
  | .error (_, f) => f.cause ≠ .underflow

section Underflow

variable {s : State}

/-- One body after another in an accepted sequence: the second starts where the invariant holds again. -/
theorem NoUnderflow.bind {r : StageResult} {body : State → StageResult} (hr : NoUnderflow r)
    (haccepted : ResultHas AcceptedInv r) (hbody : ∀ t, AcceptedInv t → NoUnderflow (body t)) :
    NoUnderflow (r.bind body) := by
  cases r with
  | error e => exact hr
  | ok t => exact hbody t haccepted

theorem noUnderflow_sequenceFault (t : State) (stage : BitVec 3) : NoUnderflow (.error (t, sequenceFault stage)) :=
  nofun

/-- A body that fails no check but that of PHASE. -/
theorem noUnderflow_of_completes {body : State → StageResult} {p : Phase} {stage : BitVec 3} {t : State}
    (hok : s.phase = p → body s = .ok t) (hwrong : s.phase ≠ p → body s = .error (s, sequenceFault stage)) :
    NoUnderflow (body s) := by
  by_cases hphase : s.phase = p
  · rw [hok hphase]
    trivial
  · rw [hwrong hphase]
    exact noUnderflow_sequenceFault s stage

theorem readBody_noUnderflow (h : AcceptedInv s) : NoUnderflow (readBody s) :=
  noUnderflow_of_completes (readBody_completes h) fun hp => if_pos hp

theorem computeBody_noUnderflow (h : AcceptedInv s) : NoUnderflow (computeBody s) :=
  noUnderflow_of_completes (computeBody_completes h) fun hp => if_pos hp

theorem shiftBody_noUnderflow (h : AcceptedInv s) : NoUnderflow (shiftBody s) :=
  noUnderflow_of_completes (shiftBody_completes h) fun hp => if_pos hp

theorem finalizeBody_noUnderflow (s : State) : NoUnderflow (finalizeBody s) :=
  noUnderflow_of_completes finalizeBody_of_connect fun hp => if_pos hp

/-- CONNECT completes or finds no signal row; its clearShifts find their blocks. -/
theorem connectBody_noUnderflow (h : AcceptedInv s) : NoUnderflow (connectBody s) := by
  by_cases hphase : s.phase = .connect
  · obtain hlt | hlast := iter_lt_or_eq h hphase
    · rw [connectBody_completes h hphase hlt]
      trivial
    · obtain ⟨f, hbody, hcause⟩ := connectBody_noSignal h hphase hlast
      rw [hbody, NoUnderflow, hcause]
      nofun
  · rw [show connectBody s = _ from if_pos hphase]
    exact noUnderflow_sequenceFault s 1

theorem roundStages_noUnderflow (h : AcceptedInv s) : NoUnderflow (roundStages s) := by
  rw [roundStages_eq_bind]
  exact (connectBody_noUnderflow h).bind (acceptedInv_connectBody h) fun s1 h1 =>
    (readBody_noUnderflow h1).bind (acceptedInv_readBody h1) fun s2 h2 =>
      (computeBody_noUnderflow h2).bind (acceptedInv_computeBody h2) fun s3 h3 => shiftBody_noUnderflow h3

theorem runRounds_noUnderflow (h : AcceptedInv s) (n : Nat) : NoUnderflow (runRounds n s) := by
  induction n generalizing s with
  | zero => trivial
  | succ n ih =>
    rw [runRounds_succ_eq_bind]
    exact (roundStages_noUnderflow h).bind (kept_acceptedInv.roundStages s h) fun _ => ih

theorem roundBody_noUnderflow (h : AcceptedInv s) : NoUnderflow (roundBody s) := by
  unfold roundBody
  split
  · exact noUnderflow_sequenceFault s 0
  · exact roundStages_noUnderflow h

theorem runBody_noUnderflow (h : AcceptedInv s) (n : BitVec 16) : NoUnderflow (runBody n s) := by
  rw [runBody_eq_bind]
  split
  · exact noUnderflow_sequenceFault s 0
  · exact (runRounds_noUnderflow h n.toNat).bind (kept_acceptedInv.runRounds n.toNat h) fun t _ =>
      finalizeBody_noUnderflow t

/-- The code of E_UNDERFLOW is its own (`60_exceptions.md` R241). -/
theorem code_ne_underflow {cause : Cause} (h : cause ≠ .underflow) : cause.code ≠ 0x03 := by
  cases cause with
  | underflow => exact absurd rfl h
  | illegal | sequence | range | qfull | noSignal | faulted => decide

theorem success_ne_underflow : (0 : BitVec 8) ≠ 0x03 := by decide

theorem stageCommand_noUnderflow (w : Word) {body : State → StageResult} (hbody : NoUnderflow (body s)) :
    (stageCommand w body s).rsp.status ≠ 0x03 := by
  obtain ⟨-, hs⟩ | ⟨-, t, -, hs⟩ | ⟨-, t, f, hb, hs⟩ := stageCommand_cases w body s <;> rw [hs]
  · exact code_ne_underflow (cause := .faulted) nofun
  · exact success_ne_underflow
  · rw [hb] at hbody
    exact code_ne_underflow hbody

theorem execQpush_noUnderflow (r c : BitVec 8) (s : State) :
    ∃ t, execQpush r c s = .next t ∧ t.rsp.status ≠ 0x03 := by
  refine ⟨_, rfl, ?_⟩
  split
  · exact code_ne_underflow (cause := .faulted) nofun
  · split
    · exact code_ne_underflow (cause := .range) nofun
    · split
      · exact code_ne_underflow (cause := .qfull) nofun
      · exact success_ne_underflow

theorem exec_read_noUnderflow {i : Instr} (hread : i.isRead = true) (s : State) :
    ∃ t, exec i s = .next t ∧ t.rsp.status ≠ 0x03 := by
  cases exec_read_outcome hread s with
  | reports v z h => exact ⟨_, h s.rsp, success_ne_underflow⟩
  | fails c k h => exact ⟨_, h s ⟨rfl, rfl, rfl⟩, code_ne_underflow (cause := .range) nofun⟩

theorem exec_noUnderflow (h : AcceptedInv s) (i : Instr) : ∃ t, exec i s = .next t ∧ t.rsp.status ≠ 0x03 := by
  cases i with
  | nop => exact ⟨_, rfl, success_ne_underflow⟩
  | qpush r c => exact execQpush_noUnderflow r c s
  | connect => exact ⟨_, rfl, stageCommand_noUnderflow _ (connectBody_noUnderflow h)⟩
  | read => exact ⟨_, rfl, stageCommand_noUnderflow _ (readBody_noUnderflow h)⟩
  | compute => exact ⟨_, rfl, stageCommand_noUnderflow _ (computeBody_noUnderflow h)⟩
  | shift => exact ⟨_, rfl, stageCommand_noUnderflow _ (shiftBody_noUnderflow h)⟩
  | round => exact ⟨_, rfl, stageCommand_noUnderflow _ (roundBody_noUnderflow h)⟩
  | run n => exact ⟨_, rfl, stageCommand_noUnderflow _ (runBody_noUnderflow h n)⟩
  | finalize => exact ⟨_, rfl, stageCommand_noUnderflow _ (finalizeBody_noUnderflow s)⟩
  | rdreg _ | rdres _ _ | rdalpha _ _ _ | rdcell _ _ | rdqlen _ _ | rdraw _ _ | rdconj _ _ | rdshift _ _ =>
    exact exec_read_noUnderflow rfl s

/-- READ in its PHASE succeeds (`42_array_commands.md` R182). -/
theorem exec_read_succeeds (h : AcceptedInv s) (hphase : s.phase = .read) :
    ∃ t, exec .read s = .next t ∧ t.rsp.status = 0 :=
  ⟨_, stageCommand_completes hphase nofun (readBody_completes h hphase), rfl⟩

end Underflow

/-- Settles O56: every body passes its underflow checks where the invariant holds, the rounds of a RUN included, since
each of them ends where it holds again. -/
theorem acceptedSequenceNeverUnderflows : Obligations.AcceptedSequenceNeverUnderflows := by
  intro i s t h ht
  refine ⟨?_, ?_⟩
  · obtain ⟨t', ht', hstatus⟩ := exec_noUnderflow h i
    cases ht'.symm.trans ht
    exact hstatus
  · rintro hphase rfl
    obtain ⟨t', ht', hstatus⟩ := exec_read_succeeds h hphase
    cases ht'.symm.trans ht
    exact hstatus

/-! ### The cost of a round -/

section Cost

variable {s : State}

theorem roundSource_eq_pred {cfg : Config} {t c : Nat} :
    roundSource cfg t c = .pred ↔ c ≠ 0 ∧ t % cfg.arraySize ≠ 0 := by
  by_cases h : c = 0 ∨ t % cfg.arraySize = 0
  · rw [roundSource, if_pos h, ← not_or]
    exact ⟨nofun, fun hn => absurd h hn⟩
  · rw [roundSource, if_neg h, ← not_or]
    exact ⟨fun _ => h, fun _ => rfl⟩

/-- The external reads of the first m cells of a round: all of them in a load round, that of cell 0 in a shift round
(`42_array_commands.md` R183). -/
theorem externalReads_inRound (h : InRound s) {m : Nat} (hm : m ≤ s.cfg.arraySize) :
    externalReads s m = if s.iter.toNat % s.cfg.arraySize = 0 then m else min m 1 := by
  induction m with
  | zero => simp [externalReads]
  | succ m ih =>
    obtain ⟨-, -, -, hcells⟩ := h
    obtain ⟨-, hsrc⟩ := hcells m hm
    rw [externalReads_succ, ih (by omega)]
    simp only [hsrc, roundSource_eq_pred]
    split_ifs <;> omega

/-- CYC added by the READ of round t (`42_array_commands.md` R186). -/
def readCost (cfg : Config) (t : Nat) : Nat :=
  if t % cfg.arraySize = 0 then cfg.cellSize * cfg.arraySize else cfg.cellSize

theorem readCost_eq (h : InRound s) (hN : 1 ≤ s.cfg.arraySize) :
    s.cfg.cellSize * externalReads s s.cfg.arraySize = readCost s.cfg s.iter.toNat := by
  rw [externalReads_inRound h (Nat.le_refl _), Nat.min_eq_right hN, readCost]
  split
  · rfl
  · exact Nat.mul_one _

/-- CYC added by the COMPUTE of round t (`42_array_commands.md` R186). -/
def computeRoundCost (cfg : Config) (t : Nat) : Nat :=
  cfg.arraySize * (cfg.cellSize + cfg.cellSize * cfg.log2CellSize + 16) +
    (if t = 0 then 0 else if t < cfg.arraySize then 16 * cfg.arraySize - 8 else 16 * cfg.arraySize)

/-- ACTIVE as a signed number: it counts down, below zero from round N + 1 on (`42_array_commands.md` R180). -/
theorem toInt_roundActive {cfg : Config} {t : Nat} (hlegal : cfg.legal = true)
    (ht : t < cfg.numSignals * cfg.arraySize) : (roundActive cfg t).toInt = cfg.arraySize - t := by
  obtain ⟨-, hN, hS⟩ := legal_bounds hlegal
  have hsmall : cfg.numSignals * cfg.arraySize ≤ 256 * 256 := Nat.mul_le_mul hS hN
  exact BitVec.toInt_ofInt_eq_self (by decide) (by omega) (by omega)

/-- The merges of a round: a last cell exists in the rounds 1 to N - 1 (`42_array_commands.md` R180, R186). -/
theorem sum_computeCost_inRound (hlegal : s.cfg.legal = true) (h : InRound s) :
    ∑ c ∈ Finset.range s.cfg.arraySize, computeCost s c = computeRoundCost s.cfg s.iter.toNat := by
  obtain ⟨hlt, hactive, -⟩ := h
  have hfirst : s.iter = 0 ↔ s.iter.toNat = 0 := BitVec.toNat_inj.symm
  rw [sum_computeCost, sum_mergeCost, computeRoundCost, hactive, toInt_roundActive hlegal hlt]
  simp only [hfirst]
  split_ifs <;> omega

theorem roundCost_eq (cfg : Config) (t : Nat) :
    roundCost cfg t = readCost cfg t + computeRoundCost cfg t + cfg.cellSize * cfg.arraySize := rfl

end Cost

/-! ### The stages of a round -/

/-- A state that differs from another at most in what the stages of a round write (`20_memory.md` R72). -/
abbrev RoundWrites (s t : State) : Prop :=
  t = { s with phase := t.phase, iter := t.iter, active := t.active, cyc := t.cyc, roundKind := t.roundKind,
               cells := t.cells, extq := t.extq }

theorem RoundWrites.trans {s t u : State} (h1 : RoundWrites s t) (h2 : RoundWrites t u) : RoundWrites s u :=
  Eq.trans h2 (congrArg (fun v : State => { v with
    phase := u.phase, iter := u.iter, active := u.active, cyc := u.cyc, roundKind := u.roundKind,
    cells := u.cells, extq := u.extq }) h1)

/-- A loop over the cells, and the registers a stage sets after it. -/
theorem roundWrites_of_storesOf {s t : State} (h : StoresOf s t) (p : Phase) (iter : BitVec 32) :
    RoundWrites s { t with phase := p, iter := iter } :=
  congrArg (fun v : State => { v with
    phase := p, iter := iter, active := t.active, roundKind := t.roundKind }) h

/-- Stages of a round performed in an accepted sequence, with the cycles they took. -/
structure Advanced (s : State) (cost : Nat) (t : State) : Prop where
  accepted : AcceptedInv t
  writes : RoundWrites s t
  cyc : t.cyc = s.cyc + BitVec.ofNat 64 cost

section Rounds

variable {s t u : State} {a b : Nat}

theorem Advanced.cfg (h : Advanced s a t) : t.cfg = s.cfg := by rw [h.writes]

theorem Advanced.okResponse (h : Advanced s a t) : okResponse t = okResponse s := by
  rw [Safety.okResponse, Safety.okResponse, h.cfg]

theorem Advanced.refl (h : AcceptedInv s) : Advanced s 0 s := ⟨h, rfl, (BitVec.add_zero s.cyc).symm⟩

theorem Advanced.trans (h1 : Advanced s a t) (h2 : Advanced t b u) : Advanced s (a + b) u where
  accepted := h2.accepted
  writes := h1.writes.trans h2.writes
  cyc := by rw [h2.cyc, h1.cyc, BitVec.add_assoc, ← BitVec.ofNat_add]

/-- The invariant after a body that completes. -/
theorem accepted_of_ok {r : StageResult} (h : ResultHas AcceptedInv r) (hr : r = .ok t) : AcceptedInv t := by
  rw [hr] at h
  exact h

/-- CONNECT takes no cycle (`41_cell_ops.md` R141). -/
theorem connect_advances (h : AcceptedInv s) (hphase : s.phase = .connect)
    (hlt : s.iter.toNat < s.cfg.numSignals * s.cfg.arraySize) :
    connectBody s = .ok (connected s) ∧ Advanced s 0 (connected s) := by
  have hbody := connectBody_completes h hphase hlt
  exact ⟨hbody, accepted_of_ok (acceptedInv_connectBody h) hbody, rfl, (BitVec.add_zero s.cyc).symm⟩

theorem read_advances (h : AcceptedInv s) (hphase : s.phase = .read) :
    ∃ t, readBody s = .ok t ∧ Advanced s (readCost s.cfg s.iter.toNat) t ∧ t.phase = .compute ∧ t.iter = s.iter := by
  have hbody := readBody_completes h hphase
  obtain ⟨hround, hcounts⟩ := accepted_read h hphase
  have hdone := forCells_read (accepted_shape h) (cellBounds_of_readCounts (accepted_shape h) hcounts)
    (sourced_of_readCounts hround hcounts)
  have hiter : (forCells readCell s).iter = s.iter := by rw [hdone.rest]
  refine ⟨_, hbody, ⟨accepted_of_ok (acceptedInv_readBody h) hbody, ?_, ?_⟩, rfl, hiter⟩
  · exact roundWrites_of_storesOf hdone.rest .compute _
  · rw [← readCost_eq hround (legal_bounds h.1).1]
    exact hdone.cyc

theorem compute_advances (h : AcceptedInv s) (hphase : s.phase = .compute) :
    ∃ t, computeBody s = .ok t ∧ Advanced s (computeRoundCost s.cfg s.iter.toNat) t ∧ t.phase = .shift ∧
      t.iter = s.iter := by
  have hbody := computeBody_completes h hphase
  obtain ⟨hround, hcounts⟩ := accepted_compute h hphase
  have hdone := forCells_compute (accepted_shape h)
  have hiter : (forCells computeCell s).iter = s.iter := by rw [hdone.rest]
  refine ⟨_, hbody, ⟨accepted_of_ok (acceptedInv_computeBody h) hbody, ?_, ?_⟩, rfl, hiter⟩
  · exact roundWrites_of_storesOf hdone.rest .shift _
  · rw [← sum_computeCost_inRound h.1 hround]
    exact forCells_compute_cyc fun c hc => ⟨(hcounts c hc).1, (hcounts c hc).2.1⟩

theorem shift_advances (h : AcceptedInv s) (hphase : s.phase = .shift) :
    ∃ t, shiftBody s = .ok t ∧ Advanced s (s.cfg.cellSize * s.cfg.arraySize) t ∧ t.phase = .connect ∧
      t.iter = s.iter + 1 := by
  have hbody := shiftBody_completes h hphase
  obtain ⟨-, hcounts⟩ := accepted_shift h hphase
  have hdone := forCells_shift (accepted_shape h) (cellBounds_of_computeCounts (accepted_shape h) hcounts)
    (raw_full_of_computeCounts h hcounts)
  exact ⟨_, hbody, ⟨accepted_of_ok (acceptedInv_shiftBody h) hbody,
    roundWrites_of_storesOf hdone.rest .connect (s.iter + 1), hdone.cyc⟩, rfl, rfl⟩

/-- ITER counts the rounds of an accepted sequence without overflow. -/
theorem iter_succ (hlegal : s.cfg.legal = true) (hlt : s.iter.toNat < s.cfg.numSignals * s.cfg.arraySize) :
    (s.iter + 1).toNat = s.iter.toNat + 1 := by
  obtain ⟨-, hN, hS⟩ := legal_bounds hlegal
  have hsmall : s.cfg.numSignals * s.cfg.arraySize ≤ 256 * 256 := Nat.mul_le_mul hS hN
  exact BitVec.toNat_add_of_lt (show s.iter.toNat + 1 < 2 ^ 32 by omega)

/-- A round completes while a signal row is left (`42_array_commands.md` R175, R184, R186). -/
theorem round_advances (h : AcceptedInv s) (hphase : s.phase = .connect)
    (hlt : s.iter.toNat < s.cfg.numSignals * s.cfg.arraySize) :
    ∃ t, roundStages s = .ok t ∧ Advanced s (roundCost s.cfg s.iter.toNat) t ∧ t.phase = .connect ∧
      t.iter.toNat = s.iter.toNat + 1 := by
  obtain ⟨hb1, h1⟩ := connect_advances h hphase hlt
  obtain ⟨s2, hb2, h2, hphase2, hiter2⟩ := read_advances h1.accepted rfl
  obtain ⟨s3, hb3, h3, hphase3, hiter3⟩ := compute_advances h2.accepted hphase2
  obtain ⟨t, hb4, h4, hphase4, hiter4⟩ := shift_advances h3.accepted hphase3
  refine ⟨t, (roundStages_of_ok hb1 hb2 hb3).trans hb4, ?_, hphase4, ?_⟩
  · have hadvanced := ((h1.trans h2).trans h3).trans h4
    rw [h3.cfg, h2.cfg, hiter2, Nat.zero_add] at hadvanced
    exact hadvanced
  · rw [hiter4, hiter3, hiter2]
    exact iter_succ h.1 hlt

/-- k rounds complete while their signal rows are left, and their costs add up (`42_array_commands.md` R176, R186). -/
theorem rounds_advance (h : AcceptedInv s) (hphase : s.phase = .connect) {k : Nat}
    (hk : s.iter.toNat + k ≤ s.cfg.numSignals * s.cfg.arraySize) :
    ∃ t, runRounds k s = .ok t ∧ Advanced s (∑ j ∈ Finset.range k, roundCost s.cfg (s.iter.toNat + j)) t ∧
      t.phase = .connect ∧ t.iter.toNat = s.iter.toNat + k := by
  induction k with
  | zero => exact ⟨s, rfl, .refl h, hphase, rfl⟩
  | succ k ih =>
    obtain ⟨t, hrun, ht, htphase, htiter⟩ := ih (by omega)
    obtain ⟨u, hround, hu, huphase, huiter⟩ := round_advances ht.accepted htphase (by rw [ht.cfg, htiter]; omega)
    have hadvanced := ht.trans hu
    rw [ht.cfg, htiter, ← Finset.sum_range_succ] at hadvanced
    exact ⟨u, (runRounds_succ_of_ok hrun).trans hround, hadvanced, huphase, by omega⟩

end Rounds

/-- Settles O49: ROUND performs a round, which completes while a row is left. -/
theorem roundCompletesInAcceptedSequence : Obligations.RoundCompletesInAcceptedSequence := by
  intro s h hphase hlt
  obtain ⟨t, hround, ht, htphase, hiter⟩ := round_advances h hphase hlt
  have hbody : roundBody s = .ok t := (if_neg (not_not_intro hphase)).trans hround
  refine ⟨_, stageCommand_completes hphase nofun hbody, htphase, hiter, ht.okResponse, ht.cyc,
    kept_acceptedInv.respond t _ ht.accepted, ?_⟩
  have hwrites := ht.writes
  rw [RoundWrites, htphase, ← hphase] at hwrites
  exact congrArg (fun v : State => { v with rsp := okResponse t }) hwrites

/-- Settles O50: the rounds of a RUN complete one after the other, and FINALIZE collects what the last one left. -/
theorem runCompletesInAcceptedSequence : Obligations.RunCompletesInAcceptedSequence := by
  intro s n h hphase hn
  obtain ⟨t, hrun, ht, htphase, hiter⟩ := rounds_advance h hphase hn
  refine ⟨_, exec_run_of_ok hphase hrun htphase, rfl, hiter, ht.okResponse, rfl, ?_, ht.cyc, ?_, ?_, ?_⟩
  · show BitVec.ofNat 16 t.cfg.arraySize = _
    rw [ht.cfg]
  · rw [← ht.cfg]
    exact runOutput_eq t
  · exact kept_acceptedInv.respond (finalized t) _
      (accepted_of_ok (acceptedInv_finalizeBody ht.accepted) (finalizeBody_of_connect htphase))
  · exact congrArg (fun v : State => { v with
      phase := .done, result := t.runOutput, resultCount := BitVec.ofNat 16 t.cfg.arraySize, retired0 := true
      rsp := okResponse t }) ht.writes

end Sys2Proof.AcceptedRounds

/-! SUPPORT. Data and control (`10_state.md` R56, `42_array_commands.md` R187): what a state holds but data, and that
every operation takes states that agree in it to states that agree in it. -/

namespace Sys2Proof.DataErased

open Sys2Proof.Machine
open Sys2Proof.NumberDomain (roundStages_eq_bind runRounds_succ_eq_bind runBody_eq_bind)
open Sys2Proof.Safety (eraseFifo eraseCell erase)

/-! ### FIFOs -/

section Fifos

variable {n : Nat} {f f' raw raw' : List Sample}

theorem length_fifoPush_congr (h : f.length = f'.length) (v v' : Sample) :
    (fifoPush n f v).length = (fifoPush n f' v').length := by
  unfold fifoPush
  rw [h]
  split <;> simp [h]

theorem length_foldl_fifoPush_congr {vs vs' : List Sample} (hvs : vs.length = vs'.length) (h : f.length = f'.length) :
    (vs.foldl (fifoPush n) f).length = (vs'.foldl (fifoPush n) f').length := by
  induction vs generalizing vs' f f' with
  | nil =>
    obtain rfl := List.length_eq_zero_iff.mp hvs.symm
    exact h
  | cons v vs ih =>
    obtain ⟨v', vs', rfl⟩ := List.exists_cons_of_length_eq_add_one hvs.symm
    rw [List.foldl_cons, List.foldl_cons]
    exact ih (Nat.add_right_cancel hvs) (length_fifoPush_congr h v v')

/-- A predecessor read moves as many samples, whatever they are. -/
theorem length_moveSlots_congr (j : Nat) (h : f.length = f'.length) (hraw : raw.length = raw'.length) :
    (moveSlots n j f raw).1.length = (moveSlots n j f' raw').1.length ∧
      (moveSlots n j f raw).2.length = (moveSlots n j f' raw').2.length := by
  induction j generalizing f f' raw raw' with
  | zero => exact ⟨h, hraw⟩
  | succ j ih =>
    cases f with
    | nil =>
      obtain rfl := List.length_eq_zero_iff.mp h.symm
      exact ⟨rfl, hraw⟩
    | cons v f =>
      obtain ⟨v', f', rfl⟩ := List.exists_cons_of_length_eq_add_one h.symm
      exact ih (Nat.add_right_cancel h) (length_fifoPush_congr hraw v v')

end Fifos

/-! ### What a cell and a state hold but data -/

/-- The control part of a cell: its registers and the counts of its FIFOs. -/
def control (k : Cell) : BitVec 16 × Src × Nat × Nat × Nat :=
  (k.sigIdx, k.src, k.raw.length, k.conj.length, k.shift.length)

theorem control_eq_iff {k k' : Cell} : control k = control k' ↔
    k.sigIdx = k'.sigIdx ∧ k.src = k'.src ∧ k.raw.length = k'.raw.length ∧ k.conj.length = k'.conj.length ∧
      k.shift.length = k'.shift.length := by
  simp only [control, Prod.mk.injEq]

/-- Two states that agree in everything but data. -/
structure SameControl (s s' : State) : Prop where
  cfg : s.cfg = s'.cfg
  phase : s.phase = s'.phase
  roundKind : s.roundKind = s'.roundKind
  retired0 : s.retired0 = s'.retired0
  iter : s.iter = s'.iter
  active : s.active = s'.active
  cyc : s.cyc = s'.cyc
  resultCount : s.resultCount = s'.resultCount
  result : s.result.length = s'.result.length
  faultCause : s.faultCause = s'.faultCause
  faultCmd : s.faultCmd = s'.faultCmd
  faultInfo : s.faultInfo = s'.faultInfo
  cells : s.cells.map control = s'.cells.map control
  extq : s.extq.map (List.map List.length) = s'.extq.map (List.map List.length)
  port : s.port = s'.port
  status : s.rsp.status = s'.rsp.status
  word : s.rsp.word = s'.rsp.word

section Erase

/-- Two maps that identify the same elements identify the same lists. -/
theorem map_eq_map_congr {α β γ : Type} {f : α → β} {g : α → γ} (h : ∀ a b, f a = f b ↔ g a = g b) {l l' : List α} :
    l.map f = l'.map f ↔ l.map g = l'.map g := by
  induction l generalizing l' with
  | nil => simp only [List.map_nil, List.nil_eq, List.map_eq_nil_iff]
  | cons a l ih =>
    cases l' with
    | nil => simp only [List.map_nil, List.map_cons, reduceCtorEq]
    | cons b l' => simp only [List.map_cons, List.cons.injEq, h, ih]

variable {num : Numerics}

theorem eraseFifo_eq_iff {f f' : List Sample} : eraseFifo num f = eraseFifo num f' ↔ f.length = f'.length := by
  simp [eraseFifo]

theorem eraseCell_eq_iff {k k' : Cell} : eraseCell num k = eraseCell num k' ↔ control k = control k' := by
  simp only [eraseCell, Cell.mk.injEq, eraseFifo_eq_iff, control_eq_iff, and_true]

/-- The states `erase` identifies are those that agree but for data. -/
theorem erase_eq_iff {s s' : State} : erase s = erase s' ↔ SameControl s s' := by
  have hcells (num : Numerics) : s.cells.map (eraseCell num) = s'.cells.map (eraseCell num) ↔
      s.cells.map control = s'.cells.map control := map_eq_map_congr fun _ _ => eraseCell_eq_iff
  have hrow (num : Numerics) (q q' : List (List Sample)) : q.map (eraseFifo num) = q'.map (eraseFifo num) ↔
      q.map List.length = q'.map List.length := map_eq_map_congr fun _ _ => eraseFifo_eq_iff
  have hextq (num : Numerics) : (s.extq.map fun row => row.map (eraseFifo num)) =
      (s'.extq.map fun row => row.map (eraseFifo num)) ↔
      s.extq.map (List.map List.length) = s'.extq.map (List.map List.length) :=
    map_eq_map_congr (hrow num)
  constructor
  · intro h
    have hcfg : s.cfg = s'.cfg := show (erase s).cfg = (erase s').cfg by rw [h]
    simp only [erase, hcfg, State.mk.injEq, Response.mk.injEq, hcells, hextq] at h
    obtain ⟨-, hphase, hkind, hretired, hiter, hactive, hcyc, hcount, hresult, hcause, hcmd, hinfo, hc, hq, hport, -,
      hstatus, hword, -⟩ := h
    exact ⟨hcfg, hphase, hkind, hretired, hiter, hactive, hcyc, hcount, by simpa using congrArg List.length hresult,
      hcause, hcmd, hinfo, hc, hq, hport, hstatus, hword⟩
  · intro h
    simp only [erase, h.cfg, State.mk.injEq, hcells, hextq, h.phase, h.roundKind, h.retired0, h.iter, h.active, h.cyc,
      h.resultCount, h.faultCause, h.faultCmd, h.faultInfo, h.cells, h.extq, h.port, h.status, h.word,
      List.map_const', h.result, and_true]

end Erase

/-! ### The state -/

section States

variable {s s' : State}

/-! #### What control reads -/

theorem SameControl.cell (h : SameControl s s') (c : Nat) : control (s.cell c) = control (s'.cell c) := by
  have hc := congrArg (List.getD · c (control (Cell.reset s'.cfg.numerics))) h.cells
  simp only [List.getD_map] at hc
  rw [State.cell, h.cfg]
  exact hc

theorem SameControl.row (h : SameControl s s') (r : Nat) :
    (s.extq.getD r []).map List.length = (s'.extq.getD r []).map List.length := by
  have hrow := congrArg (List.getD · r (([] : List (List Sample)).map List.length)) h.extq
  simp only [List.getD_map] at hrow
  exact hrow

theorem SameControl.queue (h : SameControl s s') (r c : Nat) : (s.queue r c).length = (s'.queue r c).length := by
  have hq := congrArg (List.getD · c ([] : List Sample).length) (h.row r)
  simp only [List.getD_map] at hq
  exact hq

theorem SameControl.cellInRange (h : SameControl s s') (c : BitVec 8) : s.cellInRange c = s'.cellInRange c := by
  rw [State.cellInRange, State.cellInRange, h.cfg]

theorem SameControl.signalInRange (h : SameControl s s') (r : BitVec 8) : s.signalInRange r = s'.signalInRange r := by
  rw [State.signalInRange, State.signalInRange, h.cfg]

theorem SameControl.resultInRange (h : SameControl s s') (k : BitVec 8) : s.resultInRange k = s'.resultInRange k := by
  rw [State.resultInRange, State.resultInRange, h.resultCount]

theorem SameControl.readReg (h : SameControl s s') (r : BitVec 8) : s.readReg r = s'.readReg r := by
  simp only [State.readReg, State.statusWord, h.cfg, h.phase, h.roundKind, h.retired0, h.iter, h.active, h.cyc,
    h.resultCount, h.faultCause, h.faultCmd, h.faultInfo]

theorem select_congr {k k' : Cell} (hk : control k = control k') (sel : BitVec 8) : k.select sel = k'.select sel := by
  obtain ⟨hsig, hsrc, hraw, hconj, hshift⟩ := control_eq_iff.mp hk
  rw [Cell.select, Cell.select, hsig, hsrc, hraw, hconj, hshift]

theorem SameControl.isLoadRound (h : SameControl s s') : s.isLoadRound = s'.isLoadRound := by
  rw [State.isLoadRound, State.isLoadRound, h.iter, h.cfg]

theorem SameControl.nextActive (h : SameControl s s') : s.nextActive = s'.nextActive := by
  rw [State.nextActive, State.nextActive, h.iter, h.active]

theorem SameControl.isLast (h : SameControl s s') (c : Nat) : isLast s c = isLast s' c := by
  rw [Machine.isLast, Machine.isLast, h.active]

/-! #### Checks -/

theorem SameControl.firstCell (h : SameControl s s') {bad bad' : Nat → Bool} (hbad : ∀ c, bad c = bad' c) :
    firstCell s bad = firstCell s' bad' := by
  rw [Machine.firstCell, Machine.firstCell, h.cfg, funext hbad]

theorem SameControl.loadFault (h : SameControl s s') : loadFault s = loadFault s' := by
  have hsig (c : Nat) : (s.cell c).sigIdx = (s'.cell c).sigIdx := (control_eq_iff.mp (h.cell c)).1
  have hsignal (c : Nat) : noSignal s c = noSignal s' c := by rw [noSignal, noSignal, h.cfg, hsig]
  have hclear (c : Nat) : clearUnderflow s c = clearUnderflow s' c := by
    obtain ⟨hsig, -, -, hconj, hshift⟩ := control_eq_iff.mp (h.cell c)
    rw [clearUnderflow, clearUnderflow, h.cfg, hsig, hconj, hshift]
  simp only [Machine.loadFault, h.firstCell hsignal, h.firstCell hclear, hsig]

theorem SameControl.readFault (h : SameControl s s') : readFault s = readFault s' := by
  have hsrc (c : Nat) : (s.cell c).src = (s'.cell c).src := (control_eq_iff.mp (h.cell c)).2.1
  have hsource (c : Nat) : noSource s c = noSource s' c := by rw [noSource, noSource, hsrc]
  have hunderflow (c : Nat) : readUnderflow s c = readUnderflow s' c := by
    obtain ⟨-, -, -, -, hshift⟩ := control_eq_iff.mp (h.cell (c - 1))
    rw [readUnderflow, readUnderflow, h.cfg, hsrc, hshift]
  simp only [Machine.readFault, h.firstCell hsource, h.firstCell hunderflow]

theorem SameControl.computeUnderflow (h : SameControl s s') :
    Machine.firstCell s (computeUnderflow s) = Machine.firstCell s' (computeUnderflow s') := by
  refine h.firstCell fun c => ?_
  obtain ⟨-, -, hraw, hconj, -⟩ := control_eq_iff.mp (h.cell c)
  rw [Machine.computeUnderflow, Machine.computeUnderflow, h.cfg, hraw, hconj]

theorem SameControl.shiftUnderflow (h : SameControl s s') :
    Machine.firstCell s (shiftUnderflow s) = Machine.firstCell s' (shiftUnderflow s') := by
  refine h.firstCell fun c => ?_
  obtain ⟨-, -, hraw, -⟩ := control_eq_iff.mp (h.cell c)
  rw [Machine.shiftUnderflow, Machine.shiftUnderflow, h.cfg, hraw]

/-! #### What a command writes -/

theorem SameControl.setCell (h : SameControl s s') (c : Nat) {k k' : Cell} (hk : control k = control k') :
    SameControl (s.setCell c k) (s'.setCell c k') :=
  { h with cells := by simp only [State.setCell_cells, List.map_set, h.cells, hk] }

theorem SameControl.setQueue (h : SameControl s s') (r c : Nat) {q q' : List Sample} (hq : q.length = q'.length) :
    SameControl (s.setQueue r c q) (s'.setQueue r c q') :=
  { h with extq := by simp only [State.setQueue_extq, List.map_set, h.extq, h.row r, hq] }

theorem SameControl.setCyc (h : SameControl s s') {cyc cyc' : BitVec 64} (hcyc : cyc = cyc') :
    SameControl { s with cyc := cyc } { s' with cyc := cyc' } :=
  { h with cyc := hcyc }

theorem SameControl.respond (h : SameControl s s') {r r' : Response} (hstatus : r.status = r'.status)
    (hword : r.word = r'.word) : SameControl { s with rsp := r } { s' with rsp := r' } :=
  { h with status := hstatus, word := hword }

theorem SameControl.raise (h : SameControl s s') (w : Word) (f : Raised) :
    SameControl (s.raise w f) (s'.raise w f) := by
  by_cases hphase : s.phase = .fault
  · rw [State.raise_of_faulted s w f hphase, State.raise_of_faulted s' w f (h.phase ▸ hphase)]
    exact h.respond rfl rfl
  · rw [State.raise_of_running s w f hphase, State.raise_of_running s' w f (h.phase ▸ hphase)]
    exact { h with phase := rfl, faultCause := rfl, faultCmd := rfl, faultInfo := rfl, status := rfl, word := rfl }

theorem SameControl.forCells (h : SameControl s s') {f f' : Nat → State → State}
    (hf : ∀ c t t', SameControl t t' → SameControl (f c t) (f' c t')) :
    SameControl (forCells f s) (forCells f' s') := by
  unfold Machine.forCells
  rw [h.cfg]
  generalize List.range s'.cfg.arraySize = l
  induction l generalizing s s' with
  | nil => exact h
  | cons c l ih => exact ih (hf c s s' h)

/-! #### The cell operations -/

theorem control_connectedCell {k k' : Cell} (hk : control k = control k') (cfg : Config) (load : Bool) (c : Nat) :
    control (connectedCell cfg load c k) = control (connectedCell cfg load c k') := by
  have ⟨hsig, _, hraw, hconj, hshift⟩ := control_eq_iff.mp hk
  cases load with
  | true =>
    rw [CellStages.connectedCell_load, CellStages.connectedCell_load, control_eq_iff]
    refine ⟨congrArg (· + 1) hsig, congrArg (fun i : BitVec 16 => Src.ext i.toNat) hsig, hraw, ?_, ?_⟩ <;>
      simp only [hsig] <;> split <;> simp [hconj, hshift]
  | false =>
    rw [CellStages.connectedCell_shift, CellStages.connectedCell_shift]
    split
    · exact hk
    · exact control_eq_iff.mpr ⟨hsig, rfl, hraw, hconj, hshift⟩

theorem SameControl.connectCell (h : SameControl s s') (load : Bool) (c : Nat) :
    SameControl (connectCell load c s) (connectCell load c s') := by
  rw [connectCell_eq, connectCell_eq, h.cfg]
  exact h.setCell c (control_connectedCell (h.cell c) _ load c)

theorem SameControl.readExternal (h : SameControl s s') (r c : Nat) :
    SameControl (readExternal r c s) (readExternal r c s') := by
  obtain ⟨hsig, hsrc, hraw, hconj, hshift⟩ := control_eq_iff.mp (h.cell c)
  have hq := h.queue r c
  unfold Machine.readExternal
  simp only [readSlots_eq, h.cfg]
  refine ((h.setQueue r c ?_).setCell c ?_).setCyc ?_
  · simp only [List.length_drop, hq]
  · rw [control_eq_iff]
    exact ⟨hsig, hsrc, length_foldl_fifoPush_congr (by simp only [length_zeroFilled]) hraw,
      length_foldl_fifoPush_congr (by simp only [List.length_map, length_zeroFilled]) hconj, hshift⟩
  · rw [h.cyc]

theorem SameControl.readPredecessor (h : SameControl s s') (c : Nat) :
    SameControl (readPredecessor c s) (readPredecessor c s') := by
  obtain ⟨hsig, hsrc, hraw, hconj, hshift⟩ := control_eq_iff.mp (h.cell c)
  obtain ⟨hsig', hsrc', hraw', hconj', hshift'⟩ := control_eq_iff.mp (h.cell (c - 1))
  unfold Machine.readPredecessor
  rw [h.cfg]
  obtain ⟨hfrom, hto⟩ := length_moveSlots_congr (n := s'.cfg.cellSize) s'.cfg.cellSize hshift' hraw
  refine (h.setCell (c - 1) ?_).setCell c ?_ <;> rw [control_eq_iff]
  · exact ⟨hsig', hsrc', hraw', hconj', hfrom⟩
  · exact ⟨hsig, hsrc, hto, hconj, hshift⟩

theorem SameControl.readCell (h : SameControl s s') (c : Nat) : SameControl (readCell c s) (readCell c s') := by
  obtain ⟨-, hsrc, -⟩ := control_eq_iff.mp (h.cell c)
  unfold Machine.readCell
  rw [hsrc]
  cases (s'.cell c).src with
  | none => exact h
  | ext r => exact h.readExternal r c
  | pred =>
    by_cases h0 : c = 0
    · simpa only [h0, if_true] using h
    · simpa only [h0, if_false] using h.readPredecessor c

/-- The spectrum of a cell takes as many cycles, whatever its samples are (`40_units.md` R119, R123, R126). -/
theorem cellSpectrum_snd_congr {k k' : Cell} (hk : control k = control k') (cfg : Config) (cyc : BitVec 64) :
    (cellSpectrum cfg k cyc).2 = (cellSpectrum cfg k' cyc).2 := by
  obtain ⟨-, -, hraw, hconj, -⟩ := control_eq_iff.mp hk
  simp only [cellSpectrum, Machine.spectrum, Transform.pfft_snd, corr_eq, hraw, hconj]

theorem control_computedCell (s : State) (c : Nat) (pred : Alpha) :
    control (computedCell s c pred) = control (s.cell c) := by
  rw [computedCell_eq]
  rfl

theorem SameControl.computeCell (h : SameControl s s') (c : Nat) :
    SameControl (computeCell c s) (computeCell c s') := by
  rw [computeCell_eq c s, computeCell_eq c s']
  refine (h.setCell c ?_).setCyc ?_
  · rw [control_computedCell, control_computedCell, h.cell c]
  · simp only [Machine.computeCell, CellStages.mergeStep_snd, h.cfg, h.cyc, h.iter, h.isLast c,
      cellSpectrum_snd_congr (h.cell c)]

theorem SameControl.shiftCell (h : SameControl s s') (c : Nat) : SameControl (shiftCell c s) (shiftCell c s') := by
  obtain ⟨hsig, hsrc, hraw, hconj, hshift⟩ := control_eq_iff.mp (h.cell c)
  unfold Machine.shiftCell
  simp only [drainRaw_eq, h.cfg]
  refine (h.setCell c ?_).setCyc ?_
  · rw [control_eq_iff]
    exact ⟨hsig, hsrc, rfl, hconj, length_foldl_fifoPush_congr hraw hshift⟩
  · rw [h.cyc, hraw]

end States

/-! ### Stage bodies -/

/-- Two answers of a body that agree but for data. -/
def SameAnswer : StageResult → StageResult → Prop
  | .ok t, .ok t' => SameControl t t'
  | .error (t, f), .error (t', f') => SameControl t t' ∧ f = f'
  | .ok _, .error _ | .error _, .ok _ => False

section Bodies

variable {s s' : State}

theorem SameControl.error (h : SameControl s s') (f : Raised) : SameAnswer (.error (s, f)) (.error (s', f)) := ⟨h, rfl⟩

/-- The PHASE check of a body (`42_array_commands.md` R178). -/
theorem SameControl.phaseCheck (h : SameControl s s') {p : Phase} {f : Raised} {r r' : StageResult}
    (hr : SameAnswer r r') :
    SameAnswer (if s.phase ≠ p then .error (s, f) else r) (if s'.phase ≠ p then .error (s', f) else r') := by
  rw [h.phase]
  split
  · exact h.error f
  · exact hr

/-- One body after another: the first fault ends both sequences. -/
theorem SameAnswer.bind {r r' : StageResult} {body : State → StageResult} (hr : SameAnswer r r')
    (hbody : ∀ t t', SameControl t t' → SameAnswer (body t) (body t')) : SameAnswer (r.bind body) (r'.bind body) := by
  cases r with
  | ok t =>
    cases r' with
    | ok t' => exact hbody t t' hr
    | error e' => exact hr.elim
  | error e =>
    cases r' with
    | ok t' => exact hr.elim
    | error e' => exact hr

theorem SameControl.connectBody (h : SameControl s s') : SameAnswer (connectBody s) (connectBody s') := by
  unfold Machine.connectBody
  rw [h.isLoadRound, h.loadFault, h.nextActive]
  refine h.phaseCheck ?_
  cases (if s'.isLoadRound then Machine.loadFault s' else none) with
  | some f => exact h.error f
  | none =>
    have hactive : SameControl { s with active := s'.nextActive } { s' with active := s'.nextActive } :=
      { h with active := rfl }
    have hloop := hactive.forCells fun c _ _ ht => ht.connectCell s'.isLoadRound c
    exact { hloop with roundKind := rfl, phase := rfl }

theorem SameControl.readBody (h : SameControl s s') : SameAnswer (readBody s) (readBody s') := by
  unfold Machine.readBody
  rw [h.readFault]
  refine h.phaseCheck ?_
  cases Machine.readFault s' with
  | some f => exact h.error f
  | none => exact { h.forCells fun c _ _ ht => ht.readCell c with phase := rfl }

theorem SameControl.computeBody (h : SameControl s s') : SameAnswer (computeBody s) (computeBody s') := by
  unfold Machine.computeBody
  rw [h.computeUnderflow]
  refine h.phaseCheck ?_
  cases Machine.firstCell s' (Machine.computeUnderflow s') with
  | some c => exact h.error _
  | none => exact { h.forCells fun c _ _ ht => ht.computeCell c with phase := rfl }

theorem SameControl.shiftBody (h : SameControl s s') : SameAnswer (shiftBody s) (shiftBody s') := by
  unfold Machine.shiftBody
  rw [h.shiftUnderflow]
  refine h.phaseCheck ?_
  cases Machine.firstCell s' (Machine.shiftUnderflow s') with
  | some c => exact h.error _
  | none => exact { h.forCells fun c _ _ ht => ht.shiftCell c with iter := congrArg (· + 1) h.iter, phase := rfl }

theorem SameControl.finalizeBody (h : SameControl s s') : SameAnswer (finalizeBody s) (finalizeBody s') := by
  unfold Machine.finalizeBody
  refine h.phaseCheck ?_
  exact { h with
    result := by simp only [State.runOutput, List.length_map, h.cfg]
    retired0 := rfl
    resultCount := by rw [h.cfg]
    phase := rfl }

theorem SameControl.roundStages (h : SameControl s s') : SameAnswer (roundStages s) (roundStages s') := by
  rw [roundStages_eq_bind, roundStages_eq_bind]
  exact h.connectBody.bind fun _ _ h1 => h1.readBody.bind fun _ _ h2 => h2.computeBody.bind fun _ _ h3 => h3.shiftBody

theorem SameControl.roundBody (h : SameControl s s') : SameAnswer (roundBody s) (roundBody s') := by
  unfold Machine.roundBody
  exact h.phaseCheck h.roundStages

theorem SameControl.runRounds (h : SameControl s s') (n : Nat) : SameAnswer (runRounds n s) (runRounds n s') := by
  induction n generalizing s s' with
  | zero => exact h
  | succ n ih =>
    rw [runRounds_succ_eq_bind, runRounds_succ_eq_bind]
    exact h.roundStages.bind fun _ _ => ih

theorem SameControl.runBody (h : SameControl s s') (n : BitVec 16) : SameAnswer (runBody n s) (runBody n s') := by
  rw [runBody_eq_bind, runBody_eq_bind]
  exact h.phaseCheck ((h.runRounds n.toNat).bind fun _ _ ht => ht.finalizeBody)

/-- Both commands are refused, or end as their bodies do. -/
theorem SameControl.stageCommand (h : SameControl s s') (w : Word) {body : State → StageResult}
    (hbody : SameAnswer (body s) (body s')) : SameControl (stageCommand w body s) (stageCommand w body s') := by
  unfold Machine.stageCommand
  rw [h.phase]
  split
  · exact h.respond rfl rfl
  · cases hb : body s with
    | ok t =>
      cases hb' : body s' with
      | ok t' =>
        rw [hb, hb'] at hbody
        exact SameControl.respond hbody rfl rfl
      | error e' => simp only [hb, hb', SameAnswer] at hbody
    | error e =>
      cases hb' : body s' with
      | ok t' => simp only [hb, hb', SameAnswer] at hbody
      | error e' =>
        rw [hb, hb'] at hbody
        obtain ⟨ht, hf⟩ := hbody
        simpa only [StageResult.finish, hf] using ht.raise w e'.2

end Bodies

/-! ### Commands -/

section Commands

variable {s s' : State}

/-- The two states after the same command agree but for data. -/
abbrev SameAfter (i : Instr) (s s' : State) : Prop :=
  ∃ t t', exec i s = .next t ∧ exec i s' = .next t' ∧ SameControl t t'

theorem SameControl.qpush (h : SameControl s s') (r c : BitVec 8) : SameAfter (.qpush r c) s s' := by
  refine ⟨_, _, rfl, rfl, ?_⟩
  rw [h.phase, h.signalInRange, h.cellInRange, h.queue, h.cfg]
  split
  · exact h.respond rfl rfl
  · split
    · exact h.raise _ _
    · split
      · exact h.raise _ _
      · exact (h.setQueue _ _ (length_fifoPush_congr (h.queue _ _) _ _)).respond rfl rfl

theorem SameControl.rdreg (h : SameControl s s') (r : BitVec 8) : SameAfter (.rdreg r) s s' := by
  refine ⟨_, _, rfl, rfl, ?_⟩
  rw [h.readReg]
  cases s'.readReg r with
  | some v => exact h.respond rfl rfl
  | none => exact h.raise _ _

theorem SameControl.rdres (h : SameControl s s') (k : BitVec 8) (j : BitVec 3) : SameAfter (.rdres k j) s s' := by
  refine ⟨_, _, rfl, rfl, ?_⟩
  rw [h.resultInRange]
  split
  · exact h.respond rfl rfl
  · exact h.raise _ _

theorem SameControl.rdalpha (h : SameControl s s') (c : BitVec 8) (sel : BitVec 1) (j : BitVec 3) :
    SameAfter (.rdalpha c sel j) s s' := by
  refine ⟨_, _, rfl, rfl, ?_⟩
  rw [h.cellInRange]
  split
  · exact h.respond rfl rfl
  · exact h.raise _ _

theorem SameControl.rdcell (h : SameControl s s') (c sel : BitVec 8) : SameAfter (.rdcell c sel) s s' := by
  refine ⟨_, _, rfl, rfl, ?_⟩
  rw [h.cellInRange, select_congr (h.cell c.toNat)]
  cases (if s'.cellInRange c then (s'.cell c.toNat).select sel else none) with
  | some v => exact h.respond rfl rfl
  | none => exact h.raise _ _

theorem SameControl.rdqlen (h : SameControl s s') (r c : BitVec 8) : SameAfter (.rdqlen r c) s s' := by
  refine ⟨_, _, rfl, rfl, ?_⟩
  rw [h.signalInRange, h.cellInRange, h.queue]
  split
  · exact h.respond rfl rfl
  · exact h.raise _ _

/-- RDRAW, RDCONJ and RDSHIFT: whether an element exists depends on the count. -/
theorem SameControl.readElem (h : SameControl s s') (w : Word) (c : BitVec 8) (i : BitVec 16)
    {fifo : Cell → List Sample} (hfifo : (fifo (s.cell c.toNat)).length = (fifo (s'.cell c.toNat)).length) :
    SameControl (readElem w c i fifo s) (readElem w c i fifo s') := by
  unfold Machine.readElem fifoElem
  rw [h.cellInRange]
  cases s'.cellInRange c with
  | false => exact h.raise _ _
  | true =>
    simp only [if_true]
    rcases Nat.lt_or_ge i.toNat (fifo (s'.cell c.toNat)).length with hi | hi
    · rw [List.getElem?_eq_getElem hi, List.getElem?_eq_getElem (hfifo ▸ hi)]
      exact h.respond rfl rfl
    · rw [List.getElem?_eq_none hi, List.getElem?_eq_none (hfifo ▸ hi)]
      exact h.raise _ _

theorem SameControl.exec (h : SameControl s s') (i : Instr) : SameAfter i s s' := by
  cases i with
  | nop => exact ⟨_, _, rfl, rfl, h.respond rfl rfl⟩
  | qpush r c => exact h.qpush r c
  | connect => exact ⟨_, _, rfl, rfl, h.stageCommand _ h.connectBody⟩
  | read => exact ⟨_, _, rfl, rfl, h.stageCommand _ h.readBody⟩
  | compute => exact ⟨_, _, rfl, rfl, h.stageCommand _ h.computeBody⟩
  | shift => exact ⟨_, _, rfl, rfl, h.stageCommand _ h.shiftBody⟩
  | round => exact ⟨_, _, rfl, rfl, h.stageCommand _ h.roundBody⟩
  | run n => exact ⟨_, _, rfl, rfl, h.stageCommand _ (h.runBody n)⟩
  | finalize => exact ⟨_, _, rfl, rfl, h.stageCommand _ h.finalizeBody⟩
  | rdreg r => exact h.rdreg r
  | rdres k j => exact h.rdres k j
  | rdalpha c sel j => exact h.rdalpha c sel j
  | rdcell c sel => exact h.rdcell c sel
  | rdqlen r c => exact h.rdqlen r c
  | rdraw c i =>
    obtain ⟨-, -, hraw, -⟩ := control_eq_iff.mp (h.cell c.toNat)
    exact ⟨_, _, rfl, rfl, h.readElem _ c i hraw⟩
  | rdconj c i =>
    obtain ⟨-, -, -, hconj, -⟩ := control_eq_iff.mp (h.cell c.toNat)
    exact ⟨_, _, rfl, rfl, h.readElem _ c i hconj⟩
  | rdshift c i =>
    obtain ⟨-, -, -, -, hshift⟩ := control_eq_iff.mp (h.cell c.toNat)
    exact ⟨_, _, rfl, rfl, h.readElem _ c i hshift⟩

end Commands

/-- Settles O58: the states `erase` identifies agree in their control, and every command keeps that. -/
theorem controlIndependentOfData : Obligations.ControlIndependentOfData := by
  intro i s s' h
  obtain ⟨t, t', ht, ht', hsame⟩ := (erase_eq_iff.mp h).exec i
  exact ⟨t, t', ht, ht', erase_eq_iff.mpr hsame⟩

end Sys2Proof.DataErased

/-! SUPPORT. NOP, QPUSH and the reads of stores (`43_host_io.md` R211, R212, R214, R215, R217 to R220): what each answers
when its index operands are in range, and what each read answers when they are not. -/

namespace Sys2Proof.HostCommands

open Sys2Proof.Machine
open Sys2Proof.Safety (Shape afterFault okResponse)
open Sys2Proof.HostRegisters (raise_eq_afterFault)

section Commands

variable {s : State}

/-! ### Index operands -/

theorem cellInRange_iff {c : BitVec 8} : s.cellInRange c = true ↔ c.toNat < s.cfg.arraySize := decide_eq_true_iff

theorem resultInRange_iff {k : BitVec 8} : s.resultInRange k = true ↔ k.toNat < s.resultCount.toNat :=
  decide_eq_true_iff

theorem queueInRange_iff {r c : BitVec 8} :
    (s.signalInRange r && s.cellInRange c) = true ↔ r.toNat < s.cfg.numSignals ∧ c.toNat < s.cfg.arraySize := by
  rw [Bool.and_eq_true, cellInRange_iff]
  exact and_congr_left' decide_eq_true_iff

/-- An index out of range is E_RANGE with the cell and the secondary index (`60_exceptions.md` R245). -/
theorem raise_rangeFault (s : State) (w : Word) (c k : BitVec 8) :
    s.raise w (rangeFault c k) = afterFault s w 0x04 c k 0 := raise_eq_afterFault s w (rangeFault c k)

/-! ### Pushing into a queue -/

/-- A push into a FIFO that is not full appends. -/
theorem fifoPush_of_ne {cap : Nat} {f : List Sample} (v : Sample) (h : f.length ≠ cap) : fifoPush cap f v = f ++ [v] := by
  rw [fifoPush, if_neg h]

/-- Writing a function of EXTQ[r][c] back modifies that queue in its row and no other. -/
theorem setQueue_queue_eq_modify (f : List Sample → List Sample) {r c : Nat} (hr : r < s.extq.length)
    (hc : c < (s.extq[r]).length) :
    s.setQueue r c (f (s.queue r c)) = { s with extq := s.extq.modify r fun row => row.modify c f } := by
  rw [State.setQueue, State.queue, List.getD_eq_getElem _ _ hr, List.getD_eq_getElem _ _ hc,
    List.modify_eq_set_get _ hr, List.get_eq_getElem, List.modify_eq_set_get _ hc, List.get_eq_getElem]

theorem exec_qpush_of_room {r c : BitVec 8} (hphase : s.phase ≠ .fault) (hr : r.toNat < s.cfg.numSignals)
    (hc : c.toNat < s.cfg.arraySize) (hroom : (s.queue r.toNat c.toNat).length ≠ s.cfg.qdepth) :
    exec (.qpush r c) s =
      .next (s.setQueue r.toNat c.toNat (s.queue r.toNat c.toNat ++ [s.operand])).respondOk := by
  simp only [exec, execQpush, hphase, queueInRange_iff.mpr ⟨hr, hc⟩, hroom, fifoPush_of_ne _ hroom, Bool.not_true,
    Bool.false_eq_true, if_false]

/-! ### Reading a result, an alpha vector or the count of a queue -/

theorem exec_rdres_of_lt {k : BitVec 8} (j : BitVec 3) (hk : k.toNat < s.resultCount.toNat) :
    exec (.rdres k j) s = .next (s.respondScalar (s.resultAt k.toNat)[binIndex j]) :=
  congrArg Host.Outcome.next (if_pos (resultInRange_iff.mpr hk))

theorem exec_rdres_of_le {k : BitVec 8} (j : BitVec 3) (hk : s.resultCount.toNat ≤ k.toNat) :
    exec (.rdres k j) s = .next (afterFault s (encode (.rdres k j)) 0x04 0 k 0) := by
  rw [← raise_rangeFault]
  exact congrArg Host.Outcome.next (if_neg (mt resultInRange_iff.mp (Nat.not_lt.mpr hk)))

/-- RESULT[k] is the k-th result vector. -/
theorem resultAt_of_getElem? {k : Nat} {a : Alpha} (h : s.result[k]? = some a) : s.resultAt k = a := by
  rw [State.resultAt, List.getD_eq_getElem?_getD, h, Option.getD_some]

theorem exec_rdalpha_of_lt {c : BitVec 8} (sel : BitVec 1) (j : BitVec 3) (hc : c.toNat < s.cfg.arraySize) :
    exec (.rdalpha c sel j) s = .next (s.respondScalar ((s.cell c.toNat).selectAlpha sel)[binIndex j]) :=
  congrArg Host.Outcome.next (if_pos (cellInRange_iff.mpr hc))

theorem exec_rdalpha_of_le {c : BitVec 8} (sel : BitVec 1) (j : BitVec 3) (hc : s.cfg.arraySize ≤ c.toNat) :
    exec (.rdalpha c sel j) s = .next (afterFault s (encode (.rdalpha c sel j)) 0x04 c 0 0) := by
  rw [← raise_rangeFault]
  exact congrArg Host.Outcome.next (if_neg (mt cellInRange_iff.mp (Nat.not_lt.mpr hc)))

theorem exec_rdqlen_of_lt {r c : BitVec 8} (hr : r.toNat < s.cfg.numSignals) (hc : c.toNat < s.cfg.arraySize) :
    exec (.rdqlen r c) s = .next (s.respondWord (BitVec.ofNat 32 (s.queue r.toNat c.toNat).length)) :=
  congrArg Host.Outcome.next (if_pos (queueInRange_iff.mpr ⟨hr, hc⟩))

theorem exec_rdqlen_of_le {r c : BitVec 8} (h : s.cfg.numSignals ≤ r.toNat ∨ s.cfg.arraySize ≤ c.toNat) :
    exec (.rdqlen r c) s = .next (afterFault s (encode (.rdqlen r c)) 0x04 c r 0) := by
  have hout : ¬(r.toNat < s.cfg.numSignals ∧ c.toNat < s.cfg.arraySize) := by omega
  rw [← raise_rangeFault]
  exact congrArg Host.Outcome.next (if_neg (mt queueInRange_iff.mp hout))

/-! ### Reading an element of a FIFO -/

variable {fifo : Cell → List Sample} {c : BitVec 8} {i : BitVec 16}

theorem readElem_of_some (w : Word) {z : Sample} (hc : c.toNat < s.cfg.arraySize)
    (hz : (fifo (s.cell c.toNat))[i.toNat]? = some z) : readElem w c i fifo s = s.respondVal z := by
  simp only [readElem, cellInRange_iff.mpr hc, if_true, fifoElem, hz]

/-- No such cell, or no such element in it. -/
theorem readElem_of_range (w : Word)
    (h : s.cfg.arraySize ≤ c.toNat ∨ (fifo (s.cell c.toNat)).length ≤ i.toNat) :
    readElem w c i fifo s = afterFault s w 0x04 c (i.setWidth 8) 0 := by
  have hnone : (if s.cellInRange c then fifoElem (fifo (s.cell c.toNat)) i else none) = none := by
    rcases h with hc | hi
    · exact if_neg (mt cellInRange_iff.mp (Nat.not_lt.mpr hc))
    · rw [fifoElem, List.getElem?_eq_none hi, ite_self]
  simp only [readElem, hnone, raise_rangeFault]

end Commands

/-! ### The statements -/

/-- Settles O17: a queue in range and not full is addressed by the operands, and the push appends to it. -/
theorem qpushAppendsOperand : Obligations.QpushAppendsOperand := by
  intro s r c ⟨_, _, hrows, hcols⟩ hphase hr hc hroom
  have hr' : r.toNat < s.extq.length := hrows ▸ hr
  have hc' : c.toNat < s.extq[r.toNat].length := hcols _ (List.getElem_mem hr') ▸ hc
  rw [exec_qpush_of_room hphase hr hc hroom, setQueue_queue_eq_modify (· ++ [s.operand]) hr' hc']
  rfl

/-- Settles O25: the three commands are one read, of three FIFOs. -/
theorem fifoReadsReturnElement : Obligations.FifoReadsReturnElement := fun _ _ _ =>
  ⟨fun _ hc hz => congrArg Host.Outcome.next (readElem_of_some _ hc hz),
   fun _ hc hz => congrArg Host.Outcome.next (readElem_of_some _ hc hz),
   fun _ hc hz => congrArg Host.Outcome.next (readElem_of_some _ hc hz),
   fun h => congrArg Host.Outcome.next (readElem_of_range _ h),
   fun h => congrArg Host.Outcome.next (readElem_of_range _ h),
   fun h => congrArg Host.Outcome.next (readElem_of_range _ h)⟩

/-- Settles O16: NOP is the bare response, in every PHASE. -/
theorem nopOnlyResponds : Obligations.NopOnlyResponds := fun _ => rfl

/-- Settles O21: below RESULT_COUNT the result vector of the operand answers. -/
theorem rdresReturnsResultBin : Obligations.RdresReturnsResultBin := by
  refine fun s k j => ⟨fun a hk ha => ?_, exec_rdres_of_le j⟩
  rw [exec_rdres_of_lt j hk, resultAt_of_getElem? ha]
  rfl

/-- Settles O22, selector by selector. -/
theorem rdalphaReturnsBin : Obligations.RdalphaReturnsBin := fun _ _ j =>
  ⟨fun hc => ⟨exec_rdalpha_of_lt 0 j hc, exec_rdalpha_of_lt 1 j hc⟩, fun hc sel => exec_rdalpha_of_le sel j hc⟩

/-- Settles O24: the queue in range and the queue out of range. -/
theorem rdqlenReturnsCount : Obligations.RdqlenReturnsCount := fun _ _ _ => ⟨exec_rdqlen_of_lt, exec_rdqlen_of_le⟩

end Sys2Proof.HostCommands

/-! SUPPORT. Faults and the block in P_FAULT (`60_exceptions.md` R242, R248 to R250, R252, R253, R262): fault entry, the
illegal word, what a step does in P_FAULT, and the stores a fault leaves alone. -/

namespace Sys2Proof.FaultedBlock

open Sys2Proof.Machine
open Sys2Proof.Safety (afterFault)
open Sys2Proof.HostRegisters (raise_eq_afterFault)
open Sys2Proof.HostReads (exec_read_outcome)
open Sys2Proof.ResetState (step_reset)
open Sys2Proof.CommandPort (accept_command step_command)
open Sys2Proof.Encoding (wordSelectsOneRowOrIsIllegal)
open Sys2Proof.StageSequence (exec_stageType_faulted)
open Sys2Proof.StoreWriters

/-- Settles O10: the state after a fault is written out on each side of P_FAULT. -/
theorem faultEntryKeepsFirstFault : Obligations.FaultEntryKeepsFirstFault := fun s w f =>
  ⟨s.raise_of_running w f, s.raise_of_faulted w f⟩

/-! ### The step, input by input -/

section Inputs

variable {s t : State} {w : Word} {d : Sample} {rest : List HostInput}

theorem step_idle (hlegal : s.cfg.legal = true) (hport : s.port = []) : step s = .next s := by
  simp only [step, hlegal, if_true, State.accept, hport]

/-- A data operand outside the number domain is no input of the block (log entry 7). -/
theorem step_foreignOperand (hlegal : s.cfg.legal = true) (hport : s.port = .command w d :: rest)
    (hd : d.inDomain s.cfg.numerics = false) : step s = .fault .operandDomain := by
  simp only [step, hlegal, if_true, State.accept, hport, hd, Bool.false_eq_true, if_false]

theorem step_illegalWord {e : Reject} (hlegal : s.cfg.legal = true) (hport : s.port = .command w d :: rest)
    (hd : d.inDomain s.cfg.numerics = true) (hdecode : decode w = .error e) :
    step s = .next (illegalWord w { s with port := rest, operand := d }) := by
  simp only [step, hlegal, if_true, accept_command hport hd, hdecode]

/-- Only a block takes steps (`70_reset_and_hazards.md` R274). -/
theorem legal_of_step (ht : step s = .next t) : s.cfg.legal = true := by
  by_contra hlegal
  rw [step, if_neg hlegal] at ht
  cases ht

/-- A word that selects no row of the opcode map is illegal (`30_encoding.md` R96). -/
theorem decode_of_unselected (h : ∀ r ∈ opcodeMap, r.selects w = false) : ∃ e, decode w = .error e := by
  obtain ⟨i, r, -, hr, hsel, -⟩ | ⟨herror, -⟩ := wordSelectsOneRowOrIsIllegal w
  · cases (h r hr).symm.trans hsel
  · exact herror

end Inputs

/-- Settles O7: an empty port presents nothing. -/
theorem idleStepHoldsState : Obligations.IdleStepHoldsState := fun _ => step_idle

/-- Settles O5: a word that selects no row does not decode, and its step is the fault entry with E_ILLEGAL. -/
theorem illegalWordFaults : Obligations.IllegalWordFaults := by
  intro s w d rest hlegal hport hd hrows
  obtain ⟨e, hdecode⟩ := decode_of_unselected hrows
  rw [step_illegalWord hlegal hport hd hdecode, illegalWord, raise_eq_afterFault]
  rfl

/-! ### In P_FAULT -/

section Faulted

variable {s t : State} {i : Instr}

/-- Every command but NOP and the read commands is refused (`60_exceptions.md` R248). -/
theorem exec_refused_of_faulted (hs : s.phase = .fault) (hread : i.isRead = false) (hnop : i ≠ .nop) :
    exec i s = .next s.refuseFaulted := by
  cases i with
  | nop => exact absurd rfl hnop
  | qpush r c => exact congrArg Host.Outcome.next (if_pos hs)
  | connect | read | compute | shift | round | run _ | finalize => exact exec_stageType_faulted rfl hs
  | rdreg _ | rdres _ _ | rdalpha _ _ _ | rdcell _ _ | rdqlen _ _ | rdraw _ _ | rdconj _ _ | rdshift _ _ => cases hread

/-- Every command only responds: NOP and a read that reports as ever, a read that fails because the first fault is
kept. -/
theorem exec_of_faulted (hs : s.phase = .fault) (i : Instr) : ∃ r, exec i s = .next { s with rsp := r } := by
  by_cases hnop : i = .nop
  · subst hnop
    exact ⟨_, rfl⟩
  · cases hread : i.isRead with
    | false => exact ⟨_, exec_refused_of_faulted hs hread hnop⟩
    | true =>
      cases exec_read_outcome hread s with
      | reports v z h => exact ⟨_, h s.rsp⟩
      | fails c k h => exact ⟨_, (h s ⟨rfl, rfl, rfl⟩).trans (congrArg _ (s.raise_of_faulted _ _ hs))⟩

theorem illegalWord_of_faulted (w : Word) (hs : s.phase = .fault) :
    illegalWord w s = { s with rsp := ⟨0x01, 0, sampleZero s.cfg.numerics⟩ } := s.raise_of_faulted w _ hs

/-- A step in P_FAULT is the reset event, or it keeps all but the port, the operand latch and the response. -/
theorem step_of_faulted (hs : s.phase = .fault) (ht : step s = .next t) :
    (∃ rest, s.port = .reset :: rest ∧ t = { State.resetWith s.cfg with port := rest }) ∨
    t = { s with port := t.port, operand := t.operand, rsp := t.rsp } := by
  have hlegal := legal_of_step ht
  obtain ⟨hport, -⟩ | ⟨rest, hport, -⟩ | ⟨w, d, rest, hport, hd, -⟩ | ⟨w, d, rest, hport, hd, -⟩ := s.accept_cases
  · cases (step_idle hlegal hport).symm.trans ht
    exact .inr rfl
  · cases (step_reset hlegal hport).symm.trans ht
    exact .inl ⟨rest, hport, rfl⟩
  · right
    cases hdecode : decode w with
    | ok i =>
      obtain ⟨r, hexec⟩ := exec_of_faulted (s := { s with port := rest, operand := d }) hs i
      cases ((step_command hlegal hport hd hdecode).trans hexec).symm.trans ht
      rfl
    | error e =>
      have hraise := illegalWord_of_faulted (s := { s with port := rest, operand := d }) w hs
      cases ((step_illegalWord hlegal hport hd hdecode).trans (congrArg _ hraise)).symm.trans ht
      rfl
  · cases (step_foreignOperand hlegal hport hd).symm.trans ht

end Faulted

/-- Settles O11: the refusal of a command, and an illegal word's fault, which is not the first. -/
theorem faultedBlockRefusesCommands : Obligations.FaultedBlockRefusesCommands :=
  ⟨fun _ _ hs hread hnop => exec_refused_of_faulted hs hread hnop,
    fun s w d rest hlegal hs hport hd hrows =>
      (illegalWordFaults s w d rest hlegal hport hd hrows).trans (congrArg _ (if_pos hs))⟩

/-- Settles O12: a step that is not the reset event. -/
theorem faultedBlockKeepsState : Obligations.FaultedBlockKeepsState := by
  intro s t hs hnoreset ht
  obtain ⟨rest, hport, -⟩ | hkept := step_of_faulted hs ht
  · exact absurd hport (hnoreset rest)
  · exact hkept

/-- Settles O13: every other step keeps PHASE. -/
theorem onlyResetLeavesFault : Obligations.OnlyResetLeavesFault := by
  intro s t hs ht hleft
  obtain hreset | hkept := step_of_faulted hs ht
  · exact hreset
  · exact absurd ((congrArg State.phase hkept).trans hs) hleft

/-! ### Precise faults -/

/-- A command that took s to t succeeded, or wrote PHASE, the FAULT registers and the response at most
(`60_exceptions.md` R250). -/
def Precise (s t : State) : Prop := t.rsp.status = 0 ∨ ReportsOn s t

section Precision

variable {i : Instr} {s : State}

/-- A body that changes nothing when it faults makes a precise command. -/
theorem stageCommand_precise (w : Word) {body : State → StageResult} (hbody : BodyWrites i s (body s)) :
    Precise s (stageCommand w body s) := by
  obtain ⟨-, hs⟩ | ⟨-, t, -, hs⟩ | ⟨-, t, f, hb, hs⟩ := stageCommand_cases w body s <;> rw [hs]
  · exact .inr (reportsOn_respond s _)
  · exact .inl rfl
  · rw [hb] at hbody
    obtain rfl := hbody
    exact .inr (reportsOn_raise t w f)

theorem execQpush_precise (r c : BitVec 8) (s : State) : ∃ t, execQpush r c s = .next t ∧ Precise s t := by
  refine ⟨_, rfl, ?_⟩
  split
  · exact .inr (reportsOn_respond s _)
  · split
    · exact .inr (reportsOn_raise s _ _)
    · split
      · exact .inr (reportsOn_raise s _ _)
      · exact .inl rfl

theorem exec_read_precise (hread : i.isRead = true) (s : State) : ∃ t, exec i s = .next t ∧ Precise s t := by
  cases exec_read_outcome hread s with
  | reports v z h => exact ⟨_, h s.rsp, .inl rfl⟩
  | fails c k h => exact ⟨_, h s ⟨rfl, rfl, rfl⟩, .inr (reportsOn_raise s _ _)⟩

theorem exec_precise (s : State) (hround : i ≠ .round) (hrun : ∀ n, i ≠ .run n) :
    ∃ t, exec i s = .next t ∧ Precise s t := by
  cases i with
  | nop => exact ⟨_, rfl, .inl rfl⟩
  | qpush r c => exact execQpush_precise r c s
  | connect => exact ⟨_, rfl, stageCommand_precise _ (connectBody_writes s)⟩
  | read => exact ⟨_, rfl, stageCommand_precise _ (readBody_writes s)⟩
  | compute => exact ⟨_, rfl, stageCommand_precise _ (computeBody_writes s)⟩
  | shift => exact ⟨_, rfl, stageCommand_precise _ (shiftBody_writes s)⟩
  | finalize => exact ⟨_, rfl, stageCommand_precise _ (finalizeBody_writes s)⟩
  | round => exact absurd rfl hround
  | run n => exact absurd rfl (hrun n)
  | rdreg _ | rdres _ _ | rdalpha _ _ _ | rdcell _ _ | rdqlen _ _ | rdraw _ _ | rdconj _ _ | rdshift _ _ =>
    exact exec_read_precise rfl s

end Precision

/-- Settles O15: a command that reports an error did not succeed. -/
theorem faultsArePrecise : Obligations.FaultsArePrecise := by
  intro i s t hround hrun ht hstatus
  obtain ⟨t', ht', hprecise⟩ := exec_precise s hround hrun
  cases ht'.symm.trans ht
  obtain hok | ⟨phase, cause, cmd, info, rsp, rfl⟩ := hprecise
  · exact absurd hok hstatus
  · rfl

end Sys2Proof.FaultedBlock

/-! SUPPORT. The checks that fail (`60_exceptions.md` R243 to R247, R251): which fault each command takes, in the order of
its checks, and the lowest cell it names. -/

namespace Sys2Proof.FailedChecks

open Sys2Proof.Machine
open Sys2Proof.Safety (afterFault)
open Sys2Proof.HostRegisters (raise_eq_afterFault)
open Sys2Proof.HostCommands (queueInRange_iff raise_rangeFault)
open Sys2Proof.CellStages (isLoadRound_iff)

section Checks

variable {s : State} {c : Nat} {f : Raised}

/-! ### QPUSH -/

theorem exec_qpush_of_range {r c : BitVec 8} (hphase : s.phase ≠ .fault)
    (h : s.cfg.numSignals ≤ r.toNat ∨ s.cfg.arraySize ≤ c.toNat) :
    exec (.qpush r c) s = .next (afterFault s (encode (.qpush r c)) 0x04 c r 0) := by
  have hout : ¬(r.toNat < s.cfg.numSignals ∧ c.toNat < s.cfg.arraySize) := by omega
  simp only [exec, execQpush, hphase, if_false, Bool.eq_false_iff.mpr (mt queueInRange_iff.mp hout), Bool.not_false,
    if_true, raise_rangeFault]

theorem exec_qpush_of_full {r c : BitVec 8} (hphase : s.phase ≠ .fault) (hr : r.toNat < s.cfg.numSignals)
    (hc : c.toNat < s.cfg.arraySize) (hfull : (s.queue r.toNat c.toNat).length = s.cfg.qdepth) :
    exec (.qpush r c) s = .next (afterFault s (encode (.qpush r c)) 0x05 c r 0) := by
  simp only [exec, execQpush, hphase, queueInRange_iff.mpr ⟨hr, hc⟩, hfull, Bool.not_true, Bool.false_eq_true,
    if_false, if_true, raise_eq_afterFault]
  rfl

/-! ### The lowest failing cell -/

/-- The search stops at the first cell of which the property checked for holds. -/
theorem firstCell_of_lowest {bad : Nat → Bool} {P : Nat → Prop} (hbad : ∀ d, bad d = true ↔ P d)
    (hc : c < s.cfg.arraySize) (hP : P c) (hlow : ∀ d < c, ¬P d) : firstCell s bad = some c :=
  firstCell_eq_some.mpr ⟨hc, (hbad c).mpr hP, fun d hd => Bool.eq_false_iff.mpr (mt (hbad d).mp (hlow d hd))⟩

theorem firstCell_of_nowhere {bad : Nat → Bool} {P : Nat → Prop} (hbad : ∀ d, bad d = true ↔ P d)
    (h : ∀ d < s.cfg.arraySize, ¬P d) : firstCell s bad = none :=
  firstCell_eq_none.mpr fun d hd => Bool.eq_false_iff.mpr (mt (hbad d).mp (h d hd))

/-- A stage command whose body fails a check. -/
theorem stageCommand_fails {w : Word} {body : State → StageResult} {p : Phase} (hphase : s.phase = p)
    (hp : p ≠ .fault) (hbody : body s = .error (s, f)) :
    (Host.Outcome.next (stageCommand w body s) : Host.Outcome State Fault Refusal) =
      .next (afterFault s w f.cause.code f.cell f.sec f.stage) := by
  rw [stageCommand_of_error (hphase ▸ hp) hbody, raise_eq_afterFault]

/-! ### CONNECT -/

theorem noSignal_eq_true (s : State) (c : Nat) :
    noSignal s c = true ↔ s.cfg.numSignals ≤ (s.cell c).sigIdx.toNat := decide_eq_true_iff

theorem clearUnderflow_eq_true (s : State) (c : Nat) : clearUnderflow s c = true ↔
    (s.cell c).sigIdx ≠ 0 ∧
      ((s.cell c).shift.length < s.cfg.cellSize ∨ (s.cell c).conj.length < s.cfg.cellSize) := by
  simp only [clearUnderflow, Bool.and_eq_true, Bool.or_eq_true, bne_iff_ne, decide_eq_true_eq]

theorem connectBody_of_loadFault (hphase : s.phase = .connect) (hround : s.iter.toNat % s.cfg.arraySize = 0)
    (hf : loadFault s = some f) : connectBody s = .error (s, f) := by
  have hchecks : (if s.isLoadRound then loadFault s else none) = some f := by
    rw [if_pos (isLoadRound_iff.mpr hround), hf]
  obtain ⟨hp, -⟩ | ⟨-, g, hg, hb⟩ | ⟨-, hpass, -⟩ := connectBody_cases s
  · exact absurd hphase hp
  · cases hg.symm.trans hchecks
    exact hb
  · cases hpass.symm.trans hchecks

theorem loadFault_of_noSignal (hfirst : firstCell s (noSignal s) = some c) :
    loadFault s = some ⟨.noSignal, cellIndex c, (s.cell c).sigIdx.setWidth 8, 1⟩ := by
  rw [loadFault, hfirst]

theorem loadFault_of_underflow (hrows : firstCell s (noSignal s) = none)
    (hfirst : firstCell s (clearUnderflow s) = some c) : loadFault s = some ⟨.underflow, cellIndex c, 0, 1⟩ := by
  rw [loadFault, hrows, hfirst]
  rfl

/-! ### READ -/

theorem noSource_eq_true (s : State) (c : Nat) : noSource s c = true ↔ (s.cell c).src = .none := beq_iff_eq

theorem readUnderflow_eq_true (s : State) (c : Nat) : readUnderflow s c = true ↔
    c ≠ 0 ∧ (s.cell c).src = .pred ∧ (s.cell (c - 1)).shift.length < s.cfg.cellSize := by
  simp only [readUnderflow, Bool.and_eq_true, bne_iff_ne, beq_iff_eq, decide_eq_true_eq, and_assoc]

theorem readBody_of_readFault (hphase : s.phase = .read) (hf : readFault s = some f) :
    readBody s = .error (s, f) := by
  obtain ⟨hp, -⟩ | ⟨-, g, hg, hb⟩ | ⟨-, hpass, -⟩ := readBody_cases s
  · exact absurd hphase hp
  · cases hg.symm.trans hf
    exact hb
  · cases hpass.symm.trans hf

theorem readFault_of_noSource (hfirst : firstCell s (noSource s) = some c) :
    readFault s = some ⟨.sequence, cellIndex c, 0, 2⟩ := by
  rw [readFault, hfirst]

theorem readFault_of_underflow (hsources : firstCell s (noSource s) = none)
    (hfirst : firstCell s (readUnderflow s) = some c) : readFault s = some ⟨.underflow, cellIndex c, 0, 2⟩ := by
  rw [readFault, hsources, hfirst]
  rfl

/-! ### COMPUTE and SHIFT -/

theorem computeUnderflow_eq_true (s : State) (c : Nat) : computeUnderflow s c = true ↔
    (s.cell c).raw.length < s.cfg.cellSize ∨ (s.cell c).conj.length < s.cfg.cellSize := by
  simp only [computeUnderflow, Bool.or_eq_true, decide_eq_true_eq]

theorem shiftUnderflow_eq_true (s : State) (c : Nat) :
    shiftUnderflow s c = true ↔ (s.cell c).raw.length < s.cfg.cellSize := decide_eq_true_iff

theorem computeBody_of_underflow (hphase : s.phase = .compute) (hfirst : firstCell s (computeUnderflow s) = some c) :
    computeBody s = .error (s, ⟨.underflow, cellIndex c, 0, 3⟩) := by
  obtain ⟨hp, -⟩ | ⟨-, d, hd, hb⟩ | ⟨-, hpass, -⟩ := computeBody_cases s
  · exact absurd hphase hp
  · cases hd.symm.trans hfirst
    exact hb
  · cases hpass.symm.trans hfirst

theorem shiftBody_of_underflow (hphase : s.phase = .shift) (hfirst : firstCell s (shiftUnderflow s) = some c) :
    shiftBody s = .error (s, ⟨.underflow, cellIndex c, 0, 4⟩) := by
  obtain ⟨hp, -⟩ | ⟨-, d, hd, hb⟩ | ⟨-, hpass, -⟩ := shiftBody_cases s
  · exact absurd hphase hp
  · cases hd.symm.trans hfirst
    exact hb
  · cases hpass.symm.trans hfirst

end Checks

/-! ### The statements -/

/-- Settles O18: the range check comes first, the count of the queue after it. -/
theorem qpushFaults : Obligations.QpushFaults := fun _ _ _ hphase =>
  ⟨exec_qpush_of_range hphase, exec_qpush_of_full hphase⟩

/-- Settles O41: the missing row, and with every row there the clearShift without its block. -/
theorem connectFaults : Obligations.ConnectFaults := by
  refine fun s c hphase hround hc => ⟨fun hrow hlow => ?_, fun hrows hsig hshort hlow => ?_⟩
  · have hfirst : firstCell s (noSignal s) = some c :=
      firstCell_of_lowest (noSignal_eq_true s) hc hrow fun d hd => Nat.not_le.mpr (hlow d hd)
    exact stageCommand_fails hphase nofun (connectBody_of_loadFault hphase hround (loadFault_of_noSignal hfirst))
  · have hexist : firstCell s (noSignal s) = none :=
      firstCell_of_nowhere (noSignal_eq_true s) fun d hd => Nat.not_le.mpr (hrows d hd)
    have hfirst : firstCell s (clearUnderflow s) = some c := by
      refine firstCell_of_lowest (clearUnderflow_eq_true s) hc ⟨hsig, hshort⟩ fun d hd ⟨hne, hlt⟩ => ?_
      obtain h0 | hblocks := hlow d hd
      · exact hne h0
      · omega
    exact stageCommand_fails hphase nofun
      (connectBody_of_loadFault hphase hround (loadFault_of_underflow hexist hfirst))

/-- Settles O45: READ's two checks in their order, and the one check of COMPUTE and of SHIFT. -/
theorem stageUnderflowFaults : Obligations.StageUnderflowFaults := by
  refine fun s c hc => ⟨fun hphase hsrc hlow => ?_, fun hphase hsources h0 hsrc hshort hlow => ?_,
    fun hphase hshort hlow => ?_, fun hphase hshort hlow => ?_⟩
  · have hfirst := firstCell_of_lowest (noSource_eq_true s) hc hsrc hlow
    exact stageCommand_fails hphase nofun (readBody_of_readFault hphase (readFault_of_noSource hfirst))
  · have hfirst : firstCell s (readUnderflow s) = some c := by
      refine firstCell_of_lowest (readUnderflow_eq_true s) hc ⟨h0, hsrc, hshort⟩ fun d hd ⟨hd0, hpred, hlt⟩ => ?_
      obtain hzero | hother | hblock := hlow d hd
      · exact hd0 hzero
      · exact hother hpred
      · exact Nat.not_lt.mpr hblock hlt
    exact stageCommand_fails hphase nofun (readBody_of_readFault hphase
      (readFault_of_underflow (firstCell_of_nowhere (noSource_eq_true s) hsources) hfirst))
  · have hfirst : firstCell s (computeUnderflow s) = some c :=
      firstCell_of_lowest (computeUnderflow_eq_true s) hc hshort fun d hd hlt => by
        have hfull := hlow d hd
        omega
    exact stageCommand_fails hphase nofun (computeBody_of_underflow hphase hfirst)
  · have hfirst : firstCell s (shiftUnderflow s) = some c :=
      firstCell_of_lowest (shiftUnderflow_eq_true s) hc hshort fun d hd => Nat.not_lt.mpr (hlow d hd)
    exact stageCommand_fails hphase nofun (shiftBody_of_underflow hphase hfirst)

end Sys2Proof.FailedChecks

/-! SUPPORT. Where a step stops (`70_reset_and_hazards.md` R274; log entry 7): the configurations that describe no block,
and the next state of every input a block takes. -/

namespace Sys2Proof.StepStops

open Sys2Proof.Machine
open Sys2Proof.StepEffects (exec_effect)
open Sys2Proof.ResetState (step_reset)
open Sys2Proof.CommandPort (step_command)
open Sys2Proof.FaultedBlock (step_idle step_foreignOperand step_illegalWord)

/-- The ways out of the legal ranges (`00_scope.md` R9 to R11). -/
theorem legal_eq_false_iff {cfg : Config} :
    cfg.legal = false ↔
      cfg.arraySize = 0 ∨ 256 < cfg.arraySize ∨ cfg.log2CellSize < 4 ∨ 16 < cfg.log2CellSize ∨
      cfg.numSignals = 0 ∨ 256 < cfg.numSignals ∨ cfg.qdepth = 0 ∨ 2 ^ 32 ≤ cfg.qdepth := by
  simp only [Config.legal, Bool.and_eq_false_iff, decide_eq_false_iff_not]
  omega

section Steps

variable {s : State} {w : Word} {d : Sample} {rest : List HostInput}

theorem step_illegalConfiguration (h : s.cfg.legal = false) : step s = .refused .illegalConfiguration :=
  if_neg (Bool.eq_false_iff.mp h)

/-- A command has a next state whether its word decodes or not. -/
theorem step_command_next (hlegal : s.cfg.legal = true) (hport : s.port = .command w d :: rest)
    (hd : d.inDomain s.cfg.numerics = true) : ∃ t, step s = .next t := by
  cases hdecode : decode w with
  | ok i =>
    obtain ⟨t, ht, -⟩ := exec_effect i { s with port := rest, operand := d }
    exact ⟨t, (step_command hlegal hport hd hdecode).trans ht⟩
  | error e => exact ⟨_, step_illegalWord hlegal hport hd hdecode⟩

/-- Only an operand outside the number domain stops a block. -/
theorem step_next (hlegal : s.cfg.legal = true)
    (hdomain : ∀ w d rest, s.port = .command w d :: rest → d.inDomain s.cfg.numerics = true) :
    ∃ t, step s = .next t := by
  match hport : s.port with
  | [] => exact ⟨s, step_idle hlegal hport⟩
  | .reset :: rest => exact ⟨_, step_reset hlegal hport⟩
  | .command w d :: rest => exact step_command_next hlegal hport (hdomain w d rest hport)

end Steps

/-- Settles O9: outside the legal ranges nothing is accepted, and inside them each input has its own step. -/
theorem stepStopsOnlyWhereNamed : Obligations.StepStopsOnlyWhereNamed := fun _ =>
  ⟨fun hout => step_illegalConfiguration (legal_eq_false_iff.mpr hout), fun hlegal =>
    ⟨fun _ _ _ => step_foreignOperand hlegal, step_next hlegal⟩⟩

end Sys2Proof.StepStops
